-- ==== Sys2Proof/Word.lean ====
section
/-! DEFINITION. The word types of the Blocky16 decoder engine and the small closed sets of names its spec uses
(00_scope.md R11, R14; 10_state.md R19 to R34; 60_exceptions.md R141, R142). -/

namespace Sys2Proof

/-- `u8` (R11). -/
abbrev Byte := BitVec 8

/-- `u16`: a pixel of a frame buffer, a colour, a codebook entry (R11, R40). -/
abbrev Pixel := BitVec 16

/-- `u32` (R11): the header's width and height, the arguments of `init`. -/
abbrev U32 := BitVec 32

/-- A physical frame buffer number, `{0, 1, 2}` (R14, R27). -/
inductive BufId where
  | b0 | b1 | b2
  deriving DecidableEq, Repr, Inhabited

/-- The block sizes `{8, 4, 2}` (R30). -/
inductive BlockSize where
  | s8 | s4 | s2
  deriving DecidableEq, Repr, Inhabited

/-- A block `(cx, cy, bs)` (R34). -/
structure Block where
  cx : Nat
  cy : Nat
  bs : BlockSize
  deriving DecidableEq, Repr, Inhabited

/-- `LIFE` (R19). -/
inductive Life where
  | uninit | ready | fatal
  deriving DecidableEq, Repr, Inhabited

/-- `RLE_SINK` (R29): where the RLE engine's output bytes go. -/
inductive Sink where
  | curpix | scr
  deriving DecidableEq, Repr, Inhabited

/-- `STATUS` (R31). -/
inductive Status where
  | idle | busy | ok | fail
  deriving DecidableEq, Repr, Inhabited

/-- `CAUSE` (R31, R141). -/
inductive Cause where
  | none | truncated | dimMismatch | badSubcodec | rleOverrun | instanceFatal
  deriving DecidableEq, Repr, Inhabited

/-- The kinds of a diagnostic record (R32, R142). -/
inductive DiagKind where
  | mvSkip | glyphSkip
  deriving DecidableEq, Repr, Inhabited

/-- The `value` of a diagnostic record: the `(dx, dy)` of a skipped vector or the index of a skipped glyph (R147). -/
inductive DiagValue where
  | vector (dx dy : Int)
  | glyphIndex (g : Nat)
  deriving DecidableEq, Repr, Inhabited

/-- A record `(kind, cx, cy, bs, value)` of `DIAG` (R32). -/
structure DiagRecord where
  kind : DiagKind
  cx : Nat
  cy : Nat
  bs : Nat
  value : DiagValue
  deriving DecidableEq, Repr, Inhabited

end Sys2Proof
end

