-- ==== Sys2Proof/Config.lean ====
section
/-! DEFINITION. What an implementation fixes (the parameters of 00_scope.md R7 to R10) and the free values (the
behaviours 93_implementation_defined.md treats as `any value`). Each is an opaque constant with no value, so that a
statement that names no parameter holds for every value of it (R10). -/

namespace Sys2Proof

/-- The header fields in the order of 30_encoding.md R53. -/
structure Header where
  hw : U32
  hh : U32
  seq : BitVec 16
  subc : Byte
  rot : Byte
  scb : Vector Pixel 4
  bg : Pixel
  cb : Vector Pixel 256
  deriving DecidableEq, Repr, Inhabited

/-- The fields of the frame header (R53). -/
inductive HeaderField where
  | hw | hh | seq | subc | rot | scb | bg | cb
  deriving DecidableEq, Repr, Inhabited

/-- `F5_DIVISOR ∈ {W, AW}` (R10, D8). -/
inductive F5Divisor where
  | w | aw
  deriving DecidableEq, Repr, Inhabited

/-- `PIXEL_MAP ∈ {window, linear}` (R10, R104, D14). -/
inductive PixelMap where
  | window | linear
  deriving DecidableEq, Repr, Inhabited

/-- `DST_BYTE_ORDER ∈ {little, big}` (R10, R41, D16). -/
inductive ByteOrder where
  | little | big
  deriving DecidableEq, Repr, Inhabited

/-- `SUBCODEC_1_7 ∈ {fail, noop}` (R10, R107, D19). -/
inductive Subcodec17 where
  | fail | noop
  deriving DecidableEq, Repr, Inhabited

/-- The places a free value is drawn for: one name for each piece of state the spec leaves at any value. -/
inductive Place where
  | pixel (b : BufId) (i : Nat)
  | scratch (i : Nat)
  | dst (i : Nat)
  | pos
  | hw | hh | seq | subc | rot
  | scb (i : Nat) | bg | cb (i : Nat)
  | rleN | rleK | rleSink
  | op | cx | cy | bs
  | w | h | aw | ah
  | cur | prev | ref
  | status | cause
  deriving DecidableEq, Repr, Inhabited

namespace Config

/-- `MV_TABLE` (R8): 256 pairs `(dx, dy)` of signed 8-bit values, contents not in the source. Log 8. -/
opaque mvTable : Fin 256 → BitVec 8 × BitVec 8

/-- `GLYPH4` (R9): 256 masks of 16 elements. Log 8. -/
opaque glyph4 : Fin 256 → Fin 16 → Bool

/-- `GLYPH8` (R9): 256 masks of 64 elements. Log 8. -/
opaque glyph8 : Fin 256 → Fin 64 → Bool

/-- How many reserved bytes stand directly before a field of the header (R53, R10). Log 7. -/
opaque headerGap : HeaderField → Nat

/-- How many reserved bytes stand behind the last field of the header (R53, R10). Log 7. -/
opaque headerTail : Nat

/-- The byte offset of a field: the fields stand in the order of R53, each behind its own reserved bytes. Log 7. -/
def headerOffset (f : HeaderField) : Nat :=
  let hw := headerGap .hw
  let hh := hw + 4 + headerGap .hh
  let seq := hh + 4 + headerGap .seq
  let subc := seq + 2 + headerGap .subc
  let rot := subc + 1 + headerGap .rot
  let scb := rot + 1 + headerGap .scb
  let bg := scb + 8 + headerGap .bg
  let cb := bg + 2 + headerGap .cb
  match f with
  | .hw => hw
  | .hh => hh
  | .seq => seq
  | .subc => subc
  | .rot => rot
  | .scb => scb
  | .bg => bg
  | .cb => cb

/-- `HEADER_SIZE`, any byte count of at least the 534 of the fields (R10, R53, 90_conflicts.md C1). Irreducible, so
that no proof counts through its literal by accident. Log 7. -/
@[irreducible] def headerSize : Nat := headerOffset .cb + 512 + headerTail

/-- The number behind `maxDim`. Log 6. -/
opaque maxDimSeed : Nat

/-- `MAX_DIM`, any value from 1 to 2^32 - 1 (R7, R10). Log 6. -/
def maxDim : Nat := maxDimSeed % (2 ^ 32 - 1) + 1

/-- `F5_SIGNED` (R10, D7). Log 6. -/
opaque f5Signed : Bool

/-- `F5_DIVISOR` (R10, D8). Log 6. -/
opaque f5Divisor : F5Divisor

/-- `PIXEL_MAP` (R10, R104, D14). Log 6. -/
opaque pixelMap : PixelMap

/-- `DST_BYTE_ORDER` (R10, R41, D16). Log 6. -/
opaque dstByteOrder : ByteOrder

/-- `KEYFRAME_CLEARS_CURRENT` (R10, R103, D17). Log 6. -/
opaque keyframeClearsCurrent : Bool

/-- `SUBCODEC_1_7` (R10, R107, D19). Log 6. -/
opaque subcodec17 : Subcodec17

/-- `DIM_MISMATCH_STICKY` (R10, R100, R102, D20). Log 6. -/
opaque dimMismatchSticky : Bool

/-- The free values: what draw number `n` gives at place `p` (R154, R144, R97). Log 9. -/
opaque free : Nat → Place → Nat

/-- The free contents of `DIAG` after `deinit`, when every register is undefined (R97). Log 12. -/
opaque freeDiag : Nat → List DiagRecord

end Config

end Sys2Proof
end

