-- ==== Sys2Proof/Syntax.lean ====
section
/-! DEFINITION. The instructions of spec/opcode_table.json: the block opcodes, the RLE runs, the subcodecs and the host
commands. One constructor for each mnemonic; the several rows of `mv`, `fills` and `invalid` differ only in the operand
that the opcode byte itself holds. -/

namespace Sys2Proof

inductive Instr where
  /- Block opcodes of subcodec 2 (44_block_decoder.md). -/
  /-- 0x00..0xF4: motion vector from the table (R124). -/
  | mv (k : Byte)
  /-- 0xF5: motion vector from a 16-bit offset (R125). -/
  | mvabs (v : BitVec 16)
  /-- 0xF6: copy from the previous frame (R126). -/
  | prev
  /-- 0xF7 at BS = 2: four codebook pixels (R127). -/
  | pix4c (i0 i1 i2 i3 : Byte)
  /-- 0xF7 at BS = 4, 8: two-colour glyph, codebook colours (R128). -/
  | glyphc (g bgi fgi : Byte)
  /-- 0xF8 at BS = 2: four literal pixels (R129). -/
  | pix4 (p0 p1 p2 p3 : Pixel)
  /-- 0xF8 at BS = 4, 8: two-colour glyph, literal colours (R130). -/
  | glyph (g : Byte) (bg fg : Pixel)
  /-- 0xF9..0xFC: solid fill from the small codebook (R131). -/
  | fills (i : Fin 4)
  /-- 0xFD: solid fill from the codebook (R132). -/
  | fillc (i : Byte)
  /-- 0xFE: solid fill with a literal colour (R133). -/
  | fill (v : Pixel)
  /-- 0xFF at BS = 4, 8: quad-tree subdivision (R134). -/
  | split
  /-- 0xFF at BS = 2: four literal pixels (R135). -/
  | pix4f (p0 p1 p2 p3 : Pixel)
  /- RLE runs (42_rle_engine.md). -/
  /-- Literal run of the given bytes, 1 to 128 of them (R93). -/
  | copy (bytes : List Byte)
  /-- Fill run of `n` bytes `b`, 1 to 128 of them (R92). -/
  | run (n : Nat) (b : Byte)
  /- Subcodecs, selected by the header's subcodecId (43_frame_sequencer.md R105). -/
  /-- Id 0: raw pixels (R106). -/
  | raw
  /-- Id 1 (R107). -/
  | subc1
  /-- Id 2: the block decoder (R108). -/
  | block
  /-- Id 3: current = reference (R109). -/
  | copyref
  /-- Id 4: current = previous (R110). -/
  | copyprev
  /-- Id 5: RLE into the current frame (R111). -/
  | rle16
  /-- Id 6: codebook indices (R112). -/
  | cbmap
  /-- Id 7 (R107). -/
  | subc7
  /-- Id 8: RLE into the scratch buffer, then the codebook map (R113). -/
  | rlecb
  /-- Ids 9..255 (R114). -/
  | invalid (id : Byte)
  /- Host commands (43_frame_sequencer.md R96 to R99). -/
  /-- `init(width, height)` (R96). -/
  | init (width height : U32)
  /-- `deinit()` (R97). -/
  | deinit
  /-- `decode(dst, compressed, size)` (R99); `dst` is the host's buffer as it stands at the call. -/
  | decode (dst compressed : List Byte) (size : Nat)
  deriving DecidableEq, Repr

end Sys2Proof
end

