-- ==== Sys2Proof/WellFormed.lean ====
section
/-! DEFINITION. Which instruction terms the encodings admit (30_encoding.md R54, R57, R59). -/

namespace Sys2Proof

/-- The operand ranges of the encodings: `mv k` has `k ≤ 0xF4` (R57, R124), a run is 1 to 128 bytes long (R59), the
invalid subcodec ids are 9 to 255 (R54). Every other operand fills its field, so every value of it is encodable. -/
def Instr.wellFormed : Instr → Bool
  | .mv k => k.toNat ≤ 0xF4
  | .copy bytes => 1 ≤ bytes.length && bytes.length ≤ 128
  | .run n _ => 1 ≤ n && n ≤ 128
  | .invalid id => 9 ≤ id.toNat
  | .mvabs _ | .prev | .pix4c _ _ _ _ | .glyphc _ _ _ | .pix4 _ _ _ _ | .glyph _ _ _ | .fills _ | .fillc _
  | .fill _ | .split | .pix4f _ _ _ _ | .raw | .subc1 | .block | .copyref | .copyprev | .rle16 | .cbmap | .subc7
  | .rlecb | .init _ _ | .deinit | .decode _ _ _ => true

end Sys2Proof
end

