-- ==== Sys2Proof/Decode.lean ====
section
/-! DEFINITION. The three byte-coded languages (30_encoding.md R52): the decoder, total on any bytes and rejecting by
name, and after it the encoder, from the same tables. Numeric literals of the source are named constants, so that a
correction changes one definition (91_not_in_source.md N27). -/

namespace Sys2Proof

/- Byte assembly (20_memory.md R39, 30_encoding.md R57): little-endian. -/

/-- A `u16` from its low and its high byte (R39). -/
def u16 (lo hi : Byte) : BitVec 16 := hi ++ lo

/-- A `u32` from its bytes, least significant first (R39). -/
def u32 (b0 b1 b2 b3 : Byte) : U32 := (b3 ++ b2) ++ (b1 ++ b0)

/-- `lo(v) = v[7:0]` (R64). -/
def loByte (v : BitVec 16) : Byte := v.extractLsb' 0 8

/-- `hi(v) = v[15:8]` (R64). -/
def hiByte (v : BitVec 16) : Byte := v.extractLsb' 8 8

/- The frame header (R53). -/

/-- The `u16` at an offset (R39). -/
def u16At (bytes : List Byte) (p : Nat) : BitVec 16 := u16 (bytes.getD p 0) (bytes.getD (p + 1) 0)

/-- The `u32` at an offset (R39). -/
def u32At (bytes : List Byte) (p : Nat) : U32 :=
  u32 (bytes.getD p 0) (bytes.getD (p + 1) 0) (bytes.getD (p + 2) 0) (bytes.getD (p + 3) 0)

/-- `parseHeader` (R53): from the first `HEADER_SIZE` bytes of `IN` to the field values, every multi-byte field
little-endian (R39), the elements of the two codebooks one behind the other. The offsets are open. Log 7. -/
def readHeader (bytes : List Byte) : Header where
  hw := u32At bytes (Config.headerOffset .hw)
  hh := u32At bytes (Config.headerOffset .hh)
  seq := u16At bytes (Config.headerOffset .seq)
  subc := bytes.getD (Config.headerOffset .subc) 0
  rot := bytes.getD (Config.headerOffset .rot) 0
  scb := Vector.ofFn fun i => u16At bytes (Config.headerOffset .scb + 2 * i.val)
  bg := u16At bytes (Config.headerOffset .bg)
  cb := Vector.ofFn fun i => u16At bytes (Config.headerOffset .cb + 2 * i.val)

/- The opcode bytes (R55, R122). -/

/-- The last opcode that is an index into the motion-vector table (R124). -/
def opMvLast : Nat := 0xF4
def opMvabs : Byte := 0xF5
def opPrev : Byte := 0xF6
/-- Codebook pixels at BS = 2, a codebook glyph at BS > 2. -/
def opCodebook : Byte := 0xF7
/-- Literal pixels at BS = 2, a literal glyph at BS > 2. -/
def opLiteral : Byte := 0xF8
/-- The first of the four small-codebook fills (R131). -/
def opFills : Byte := 0xF9
def opFillc : Byte := 0xFD
def opFill : Byte := 0xFE
/-- A split at BS > 2, literal pixels at BS = 2. -/
def opSplit : Byte := 0xFF

/-- The run length `(r >> 1) + 1` (R59). -/
def runLength (r : Byte) : Nat := (r >>> 1).toNat + 1

/-- Bit 0 of the run byte: 1 is a fill run (R59). -/
def isFillRun (r : Byte) : Bool := r.getLsbD 0

/-- The side length of a block size (R30). -/
def BlockSize.toNat : BlockSize → Nat
  | .s8 => 8
  | .s4 => 4
  | .s2 => 2

/-- Which language a byte is read in: block opcodes at the current block size (R63), RLE runs, or the subcodec id. -/
inductive Lang where
  | block (bs : BlockSize)
  | rle
  | subcodec
  deriving DecidableEq, Repr

/-- Why no instruction is read. No byte value is a reason: every opcode and every run byte is defined (R60, R61). -/
inductive DecodeError where
  /-- There is no opcode byte. -/
  | noOpcode
  /-- The opcode is there, some of its operand bytes are not. -/
  | truncatedOperands (op : Byte)
  deriving DecidableEq, Repr

/-- The subcodec of an id (R54). -/
def decodeSubcodec (id : Byte) : Instr :=
  match id.toNat with
  | 0 => .raw
  | 1 => .subc1
  | 2 => .block
  | 3 => .copyref
  | 4 => .copyprev
  | 5 => .rle16
  | 6 => .cbmap
  | 7 => .subc7
  | 8 => .rlecb
  | _ => .invalid id

/-- Four literal pixels, format BKQ16 (R55). -/
def decodePixels (op : Byte) (make : Pixel → Pixel → Pixel → Pixel → Instr) :
    List Byte → Except DecodeError (Instr × List Byte)
  | a0 :: a1 :: b0 :: b1 :: c0 :: c1 :: d0 :: d1 :: rest =>
    .ok (make (u16 a0 a1) (u16 b0 b1) (u16 c0 c1) (u16 d0 d1), rest)
  | _ => .error (.truncatedOperands op)

/-- 0xF7 (R127, R128): formats BKQ8 and BKG8. -/
def decodeCodebook : BlockSize → List Byte → Except DecodeError (Instr × List Byte)
  | .s2, i0 :: i1 :: i2 :: i3 :: rest => .ok (.pix4c i0 i1 i2 i3, rest)
  | .s4, g :: bgi :: fgi :: rest => .ok (.glyphc g bgi fgi, rest)
  | .s8, g :: bgi :: fgi :: rest => .ok (.glyphc g bgi fgi, rest)
  | _, _ => .error (.truncatedOperands opCodebook)

/-- Format BKG16 (R55, R130). -/
def decodeGlyph : List Byte → Except DecodeError (Instr × List Byte)
  | g :: b0 :: b1 :: f0 :: f1 :: rest => .ok (.glyph g (u16 b0 b1) (u16 f0 f1), rest)
  | _ => .error (.truncatedOperands opLiteral)

/-- 0xF8 (R129, R130). -/
def decodeLiteral : BlockSize → List Byte → Except DecodeError (Instr × List Byte)
  | .s2, t => decodePixels opLiteral .pix4 t
  | .s4, t => decodeGlyph t
  | .s8, t => decodeGlyph t

/-- 0xFF (R134, R135). -/
def decodeSplit : BlockSize → List Byte → Except DecodeError (Instr × List Byte)
  | .s2, t => decodePixels opSplit .pix4f t
  | .s4, t => .ok (.split, t)
  | .s8, t => .ok (.split, t)

/-- One `u16` operand, format BK16 (R55). -/
def decodeU16 (op : Byte) (make : BitVec 16 → Instr) : List Byte → Except DecodeError (Instr × List Byte)
  | lo :: hi :: rest => .ok (make (u16 lo hi), rest)
  | _ => .error (.truncatedOperands op)

/-- One `u8` operand, format BK8 (R55). -/
def decodeU8 (op : Byte) (make : Byte → Instr) : List Byte → Except DecodeError (Instr × List Byte)
  | i :: rest => .ok (make i, rest)
  | _ => .error (.truncatedOperands op)

/-- The operands of a block opcode, from the bytes after it (R122, R55). -/
def decodeBlockOperands (bs : BlockSize) (op : Byte) (t : List Byte) : Except DecodeError (Instr × List Byte) :=
  if op.toNat ≤ opMvLast then .ok (.mv op, t)
  else if op = opMvabs then decodeU16 op .mvabs t
  else if op = opPrev then .ok (.prev, t)
  else if op = opCodebook then decodeCodebook bs t
  else if op = opLiteral then decodeLiteral bs t
  else if op = opFills then .ok (.fills 0, t)
  else if op = opFills + 1 then .ok (.fills 1, t)
  else if op = opFills + 2 then .ok (.fills 2, t)
  else if op = opFills + 3 then .ok (.fills 3, t)
  else if op = opFillc then decodeU8 op .fillc t
  else if op = opFill then decodeU16 op .fill t
  else decodeSplit bs t

/-- The block opcode stream at block size `bs` (R55, R122). -/
def decodeBlock (bs : BlockSize) : List Byte → Except DecodeError (Instr × List Byte)
  | [] => .error .noOpcode
  | op :: t => decodeBlockOperands bs op t

/-- The RLE run stream (R59). -/
def decodeRle : List Byte → Except DecodeError (Instr × List Byte)
  | [] => .error .noOpcode
  | r :: t =>
    if isFillRun r then decodeU8 r (.run (runLength r)) t
    else if t.length < runLength r then .error (.truncatedOperands r)
    else .ok (.copy (t.take (runLength r)), t.drop (runLength r))

/-- One instruction from the bytes of one language, with the bytes after it. -/
def decodeBytes : Lang → List Byte → Except DecodeError (Instr × List Byte)
  | .block bs, bytes => decodeBlock bs bytes
  | .rle, bytes => decodeRle bytes
  | .subcodec, [] => .error .noOpcode
  | .subcodec, id :: t => .ok (decodeSubcodec id, t)

/- The encoder. -/

/-- The two bytes of a `u16`, low byte first (R64). -/
def u16Bytes (v : BitVec 16) : List Byte := [loByte v, hiByte v]

/-- The first byte of an instruction: a block opcode, a run byte or a subcodec id; a host command has none. -/
def Instr.opcode : Instr → Option Byte
  | .mv k => some k
  | .mvabs _ => some opMvabs
  | .prev => some opPrev
  | .pix4c _ _ _ _ => some opCodebook
  | .glyphc _ _ _ => some opCodebook
  | .pix4 _ _ _ _ => some opLiteral
  | .glyph _ _ _ => some opLiteral
  | .fills i => some (opFills + BitVec.ofNat 8 i.val)
  | .fillc _ => some opFillc
  | .fill _ => some opFill
  | .split => some opSplit
  | .pix4f _ _ _ _ => some opSplit
  | .copy bytes => some (BitVec.ofNat 8 (2 * (bytes.length - 1)))
  | .run n _ => some (BitVec.ofNat 8 (2 * (n - 1) + 1))
  | .raw => some 0
  | .subc1 => some 1
  | .block => some 2
  | .copyref => some 3
  | .copyprev => some 4
  | .rle16 => some 5
  | .cbmap => some 6
  | .subc7 => some 7
  | .rlecb => some 8
  | .invalid id => some id
  | .init _ _ => none
  | .deinit => none
  | .decode _ _ _ => none

/-- The operand bytes in stream order (R55, R57, R59, R64). -/
def Instr.operandBytes : Instr → List Byte
  | .mvabs v => u16Bytes v
  | .pix4c i0 i1 i2 i3 => [i0, i1, i2, i3]
  | .glyphc g bgi fgi => [g, bgi, fgi]
  | .pix4 p0 p1 p2 p3 => u16Bytes p0 ++ u16Bytes p1 ++ u16Bytes p2 ++ u16Bytes p3
  | .glyph g bg fg => g :: (u16Bytes bg ++ u16Bytes fg)
  | .fillc i => [i]
  | .fill v => u16Bytes v
  | .pix4f p0 p1 p2 p3 => u16Bytes p0 ++ u16Bytes p1 ++ u16Bytes p2 ++ u16Bytes p3
  | .copy bytes => bytes
  | .run _ b => [b]
  | .mv _ | .prev | .fills _ | .split | .raw | .subc1 | .block | .copyref | .copyprev | .rle16 | .cbmap | .subc7
  | .rlecb | .invalid _ | .init _ _ | .deinit | .decode _ _ _ => []

/-- The bytes of an instruction; a host command has no encoding ("n/a" in the opcode table). -/
def encode (i : Instr) : Option (List Byte) := i.opcode.map fun op => op :: i.operandBytes

/-- The length in bytes of an encoded instruction (R56, R59). -/
def Instr.length (i : Instr) : Nat :=
  match i.opcode with
  | some _ => 1 + i.operandBytes.length
  | none => 0

/-- In which language an instruction is written, and for a block opcode at which block sizes (R64). -/
def Instr.validIn : Instr → Lang → Bool
  | .mv _, .block _ | .mvabs _, .block _ | .prev, .block _ | .fills _, .block _ | .fillc _, .block _
  | .fill _, .block _ => true
  | .pix4c _ _ _ _, .block bs | .pix4 _ _ _ _, .block bs | .pix4f _ _ _ _, .block bs => bs == .s2
  | .glyphc _ _ _, .block bs | .glyph _ _ _, .block bs | .split, .block bs => bs != .s2
  | .copy _, .rle | .run _ _, .rle => true
  | .raw, .subcodec | .subc1, .subcodec | .block, .subcodec | .copyref, .subcodec | .copyprev, .subcodec
  | .rle16, .subcodec | .cbmap, .subcodec | .subc7, .subcodec | .rlecb, .subcodec | .invalid _, .subcodec => true
  | _, _ => false

/- The host's view of one word. -/

/-- The longest instruction: a literal run of 128 bytes behind its run byte (R59). -/
def longestInstr : Nat := 129

/-- `n` bytes of a number, least significant first. -/
def bytesOf : Nat → Nat → List Byte
  | 0, _ => []
  | n + 1, w => BitVec.ofNat 8 w :: bytesOf n (w / 256)

/-- The bytes of a table word, first byte lowest, up to the longest instruction; the bits above `nbits` are zero. -/
def wordBytes (nbits w : Nat) : List Byte := bytesOf longestInstr (w % 2 ^ nbits)

/-- The language a word of the opcode table is read in. The same byte means different things in the three languages and
a word does not say which is meant; the word's length and its first byte decide here (DESIGN CHOICE, log 5). -/
def wordLang (nbits w : Nat) : Lang :=
  match nbits / 8 with
  | 1 => if w % 256 < 0x80 then .subcodec else .block .s8
  | 2 => if w % 256 = opFillc.toNat then .block .s8 else .rle
  | 5 => .block .s2
  | 9 => .block .s2
  | _ => .block .s8

/-- The instruction the decoder reads from a word of the opcode table. -/
def decodeTableWord (nbits w : Nat) : Option Instr :=
  match decodeBytes (wordLang nbits w) (wordBytes nbits w) with
  | .ok (i, _) => some i
  | .error _ => none

end Sys2Proof
end

