-- ==== Sys2Proof/Machine/State.lean ====
section
/-! DEFINITION. The state of the Blocky16 decoder engine (10_state.md R19 to R34), as plain data, the reasons a step can
stop, and the state after reset. -/

namespace Sys2Proof.Machine

/-- The three physical pixel buffers, each `AW * AH` pixels in row-major order (R21, R14). -/
structure FrameBuffers where
  b0 : List Pixel
  b1 : List Pixel
  b2 : List Pixel
  deriving DecidableEq, Repr

/-- The place reached in the sequence of `decode` (43_frame_sequencer.md R99): the model's own control point. Log 1. -/
inductive Phase where
  /-- No command runs. -/
  | idle
  /-- Header parsed, checked and buffers cleared; the subcodec of `SUBC` comes next (R105). -/
  | dispatch
  /-- In the loop of the block decoder (R121). -/
  | blocks
  /-- In the loop of the RLE engine (R89). -/
  | runs
  /-- The subcodec is done; copy-out and rotation come next (R115 to R117). -/
  | finish
  deriving DecidableEq, Repr

/-- A command of the host (43_frame_sequencer.md R96, R97, R99). -/
inductive HostCommand where
  | init (width height : U32)
  | deinit
  | decode (dst compressed : List Byte) (size : Nat)
  deriving DecidableEq, Repr

@[ext]
structure State where
  /-- `LIFE` (R19). -/
  life : Life
  /-- `W` (R20). -/
  w : Nat
  /-- `H` (R20). -/
  h : Nat
  /-- `AW` (R20). -/
  aw : Nat
  /-- `AH` (R20). -/
  ah : Nat
  /-- `FB[0..2]` (R21). -/
  fb : FrameBuffers
  /-- `SCR` (R22). -/
  scr : List Byte
  /-- `IN` (R23): the input of the running `decode`; between commands there is none, held as no bytes (log 22). -/
  inp : List Byte
  /-- `SIZE` (R23): 0 between commands (log 22). -/
  size : Nat
  /-- `POS` (R24). -/
  pos : Nat
  /-- `HW` (R25). -/
  hw : U32
  /-- `HH` (R25). -/
  hh : U32
  /-- `SEQ` (R25). -/
  seq : BitVec 16
  /-- `SUBC` (R25). -/
  subc : Byte
  /-- `ROT` (R25). -/
  rot : Byte
  /-- `SCB[0..3]` (R26). -/
  scb : Vector Pixel 4
  /-- `BG` (R26). -/
  bg : Pixel
  /-- `CB[0..255]` (R28). -/
  cb : Vector Pixel 256
  /-- `CUR` (R27). -/
  cur : BufId
  /-- `PREV` (R27). -/
  prev : BufId
  /-- `REF` (R27). -/
  ref : BufId
  /-- `RLE_N` (R29). -/
  rleN : Nat
  /-- `RLE_K` (R29). -/
  rleK : Nat
  /-- `RLE_SINK` (R29). -/
  rleSink : Sink
  /-- `OP` (R30). -/
  op : Byte
  /-- `CX` (R30). -/
  cx : Nat
  /-- `CY` (R30). -/
  cy : Nat
  /-- `BS` (R30). -/
  bs : BlockSize
  /-- `PEND` (R34). -/
  pend : List Block
  /-- `STATUS` (R31). -/
  status : Status
  /-- `CAUSE` (R31). -/
  cause : Cause
  /-- `DIAG`, oldest record first (R32). -/
  diag : List DiagRecord
  /-- `DST` (R33). -/
  dst : List Byte
  /-- The model's own: where in R99 the engine is (log 1). -/
  phase : Phase
  /-- The model's own: the host's commands still to come (log 2). -/
  inbox : List HostCommand
  /-- The model's own: how many times free values have been drawn (log 9). -/
  draws : Nat
  deriving DecidableEq, Repr

/-- Why the machine stops with a fault. -/
inductive Fault where
  /-- Raised by every block opcode when the block to be decoded does not lie inside the frame: its pixels do not exist
  (00_scope.md R14, 20_memory.md R38). Safe: no run from reset reaches it (log 15). -/
  | blockOutsideFrame
  deriving DecidableEq, Repr

/-- Why an instruction has no step. -/
inductive Refusal where
  /-- Raised by an arm of `exec` whose instruction has no meaning yet. Safe. -/
  | notModelled (mnemonic : String)
  /-- Raised by `init` when `LIFE` is not `UNINIT` (R96). Safe. -/
  | alreadyInitialised
  /-- Raised by `init` when a dimension is not in `1 .. MAX_DIM` (R96). Safe. -/
  | dimensionOutOfRange
  /-- Raised by `deinit` and `decode` when `LIFE` is `UNINIT` (R97, R99). Safe. -/
  | notInitialised
  /-- Raised by a host command while a command runs (R98 duty 4). Safe. -/
  | commandRunning
  /-- Raised by `decode` when `size` exceeds the length of `compressed` (R98 duty 1). Safe. -/
  | sizeBeyondInput
  /-- Raised by `decode` when `dst` has no room for `2*W*H` bytes (R98 duty 2). Safe. -/
  | dstTooSmall
  /-- Raised by a subcodec outside the dispatch step of a `decode` (R105). Safe (log 16). -/
  | notDispatching
  /-- Raised by a block opcode outside the block decoder's loop (R121). Safe (log 16). -/
  | notDecodingBlocks
  /-- Raised by a block opcode when no block is pending (R121, R122). Safe (log 16). -/
  | noPendingBlock
  /-- Raised by a block opcode at a block size its encoding does not have (R64, R122). Safe (log 16). -/
  | wrongBlockSize
  /-- Raised by an RLE run outside the RLE engine's loop (R89). Safe (log 16). -/
  | notDecodingRuns
  deriving DecidableEq, Repr

/-- The machine at power-on, before the first `init`: `LIFE = UNINIT` and no command running (R19, R153: "the instance
is `UNINIT` and has no other state"). The other registers hold the values of log 3. -/
def State.reset : State where
  life := .uninit
  w := 0
  h := 0
  aw := 0
  ah := 0
  fb := ⟨[], [], []⟩
  scr := []
  inp := []
  size := 0
  pos := 0
  hw := 0
  hh := 0
  seq := 0
  subc := 0
  rot := 0
  scb := Vector.replicate 4 0
  bg := 0
  cb := Vector.replicate 256 0
  cur := .b0
  prev := .b1
  ref := .b2
  rleN := 0
  rleK := 0
  rleSink := .curpix
  op := 0
  cx := 0
  cy := 0
  bs := .s8
  pend := []
  status := .idle
  cause := .none
  diag := []
  dst := []
  phase := .idle
  inbox := []
  draws := 0

end Sys2Proof.Machine
end

