-- ==== Sys2Proof/Machine/Flags.lean ====
section
/-! DEFINITION. The engine's only flags, `STATUS` and `CAUSE` (10_state.md R31, R36), its diagnostic log (R32) and the
checks that decide them: the bounds of a motion vector (41_glyph_and_blitter.md R78), the dimension check
(43_frame_sequencer.md R102). -/

namespace Sys2Proof.Machine

/-- The cause codes (60_exceptions.md R141). -/
def causeCode : Cause → Nat
  | .none => 0
  | .truncated => 1
  | .dimMismatch => 2
  | .badSubcodec => 3
  | .rleOverrun => 4
  | .instanceFatal => 5

/-- The start of a `decode`: `STATUS <- BUSY; CAUSE <- NONE; DIAG <- []` (R99). -/
def State.beginStatus (s : State) : State := { s with status := .busy, cause := .none, diag := [] }

/-- The successful end of a `decode`: `STATUS <- OK` (R99). -/
def State.okStatus (s : State) : State := { s with status := .ok }

/-- `diag(kind, cx, cy, bs, value)`: one more record, nothing else changes (R147). -/
def State.emitDiag (s : State) (r : DiagRecord) : State := { s with diag := s.diag ++ [r] }

/-- `inBounds(sx, sy, bs)` over mathematical integers, against the buffer's size `AW × AH` (R78). -/
def inBounds (aw ah : Nat) (sx sy : Int) (bs : Nat) : Bool :=
  decide (0 ≤ sx ∧ sx + bs ≤ aw ∧ 0 ≤ sy ∧ sy + bs ≤ ah)

/-- The header's dimensions are those of `init` (R102). -/
def State.dimensionsMatch (s : State) : Bool := s.hw.toNat = s.w && s.hh.toNat = s.h

/-- A block inside the frame: `CX + BS ≤ AW`, `CY + BS ≤ AH` (R30, R38). -/
def blockInFrame (aw ah : Nat) (b : Block) : Bool := b.cx + b.bs.toNat ≤ aw && b.cy + b.bs.toNat ≤ ah

end Sys2Proof.Machine
end

