-- ==== Sys2Proof/Machine/Operands.lean ====
section
/-! DEFINITION. The operand forms (30_encoding.md R57): the motion-vector table, the split of the 0xF5 offset, the two
codebooks, the glyph masks. -/

namespace Sys2Proof.Machine

/-- `mvLookup(k)` (41_glyph_and_blitter.md R77): the table's two signed 8-bit fields, sign-extended. -/
def mvLookup (k : Byte) : Int × Int :=
  let entry := Config.mvTable k.toFin
  (entry.1.toInt, entry.2.toInt)

/-- The 0xF5 offset as an integer: two's complement when `F5_SIGNED`, else unsigned (R57, R125). -/
def f5Index (signed : Bool) (v : BitVec 16) : Int := if signed then v.toInt else v.toNat

/-- The divisor of the 0xF5 split (R125): `W` or `AW`. -/
def f5Width (d : F5Divisor) (w aw : Nat) : Nat :=
  match d with
  | .w => w
  | .aw => aw

/-- `dx = idx mod D`, `dy = idx div D`, floor division (R125, R11). -/
def f5Split (idx : Int) (d : Nat) : Int × Int := (idx % d, idx / d)

/-- The displacement of `mvabs v` (R125) under the parameters `F5_SIGNED` and `F5_DIVISOR`. -/
def State.f5Vector (s : State) (v : BitVec 16) : Int × Int :=
  f5Split (f5Index Config.f5Signed v) (f5Width Config.f5Divisor s.w s.aw)

/-- `CB[i]`: every `u8` names an entry (R28, R57). -/
def State.codebook (s : State) (i : Byte) : Pixel := s.cb.get i.toFin

/-- `SCB[i]` (R26). -/
def State.smallCodebook (s : State) (i : Fin 4) : Pixel := s.scb.get i

/-- `mask(bs, g, x, y) = GLYPHbs[g][y*bs + x]`, true meaning foreground (R75). No glyph is used at size 2 and none has
an element outside the block; there the answer is background, which nothing reads. -/
def glyphMask (bs : BlockSize) (g : Fin 256) (x y : Nat) : Bool :=
  match bs with
  | .s4 => if h : y * 4 + x < 16 then Config.glyph4 g ⟨y * 4 + x, h⟩ else false
  | .s8 => if h : y * 8 + x < 64 then Config.glyph8 g ⟨y * 8 + x, h⟩ else false
  | .s2 => false

end Sys2Proof.Machine
end

