-- ==== Sys2Proof/Machine/Ops.lean ====
section
/-! DEFINITION. The shared operations: the Bitstream Reader (40_bitstream_reader.md), the frame buffers and the blitter
(41_glyph_and_blitter.md), the RLE engine's output (42_rle_engine.md R88), failure (60_exceptions.md R143, R144) and the
frame sequencer's steps (43_frame_sequencer.md R101 to R117). -/

namespace Sys2Proof.Machine

/- The single registers the operations write. -/

/-- The cursor moves over `n` bytes. -/
def State.advance (s : State) (n : Nat) : State := { s with pos := s.pos + n }

/-- The engine goes to another place of R99's sequence. -/
def State.enter (s : State) (p : Phase) : State := { s with phase := p }

/-- `PEND <- q`. -/
def State.withPend (s : State) (q : List Block) : State := { s with pend := q }

/-- `RLE_K <- RLE_K + n` (R90). -/
def State.countOutput (s : State) (n : Nat) : State := { s with rleK := s.rleK + n }

/-- `LIFE <- l`. -/
def State.withLife (s : State) (l : Life) : State := { s with life := l }

/-- `DST` is the buffer the host passed (R33). -/
def State.withDst (s : State) (d : List Byte) : State := { s with dst := d }

/-- The host's commands still to come are `cs` (log 2). -/
def State.withInbox (s : State) (cs : List HostCommand) : State := { s with inbox := cs }

/-- No input: `IN` and `SIZE` exist only during a `decode` (R23), outside one they are empty and 0 (log 22). -/
def State.withoutInput (s : State) : State := { s with inp := [], size := 0 }

/- The Bitstream Reader. -/

/-- `bytesLeft() = SIZE - POS` (R71). -/
def State.bytesLeft (s : State) : Nat := s.size - s.pos

/-- The bytes of `IN` from the cursor to the end. -/
def State.rest (s : State) : List Byte := (s.inp.take s.size).drop s.pos

/-- The byte of `IN` at an offset; every offset below `SIZE` has one (R37). -/
def State.inByte (s : State) (p : Nat) : Byte := s.inp.getD p 0

/-- `skip(n)` (R72): the check of R66, then the cursor moves; `none` is `Fail(TRUNCATED)` with nothing changed. -/
def State.skip (s : State) (n : Nat) : Option State :=
  if s.bytesLeft < n then none else some (s.advance n)

/-- `readU8` (R67). -/
def State.readU8 (s : State) : Option (Byte × State) :=
  (s.skip 1).map fun t => (s.inByte s.pos, t)

/-- `readU16LE` (R68). -/
def State.readU16LE (s : State) : Option (BitVec 16 × State) :=
  (s.skip 2).map fun t => (u16 (s.inByte s.pos) (s.inByte (s.pos + 1)), t)

/-- `readU32LE` (R69). -/
def State.readU32LE (s : State) : Option (U32 × State) :=
  (s.skip 4).map fun t =>
    (u32 (s.inByte s.pos) (s.inByte (s.pos + 1)) (s.inByte (s.pos + 2)) (s.inByte (s.pos + 3)), t)

/-- `readBuf(n)` (R70). -/
def State.readBuf (s : State) (n : Nat) : Option (List Byte × State) :=
  (s.skip n).map fun t => ((List.range n).map fun k => s.inByte (s.pos + k), t)

/- Free values (log 9): what the spec leaves at any value is drawn here and nowhere else. -/

def draw16 (n : Nat) (p : Place) : Pixel := BitVec.ofNat 16 (Config.free n p)

def draw8 (n : Nat) (p : Place) : Byte := BitVec.ofNat 8 (Config.free n p)

def draw32 (n : Nat) (p : Place) : U32 := BitVec.ofNat 32 (Config.free n p)

def drawBlockSize (n : Nat) (p : Place) : BlockSize :=
  match Config.free n p % 3 with
  | 0 => .s8
  | 1 => .s4
  | _ => .s2

def drawSink (n : Nat) (p : Place) : Sink := if Config.free n p % 2 = 0 then .curpix else .scr

def drawBufId (n : Nat) (p : Place) : BufId :=
  match Config.free n p % 3 with
  | 0 => .b0
  | 1 => .b1
  | _ => .b2

def drawStatus (n : Nat) (p : Place) : Status :=
  match Config.free n p % 4 with
  | 0 => .idle
  | 1 => .busy
  | 2 => .ok
  | _ => .fail

def drawCause (n : Nat) (p : Place) : Cause :=
  match Config.free n p % 6 with
  | 0 => .none
  | 1 => .truncated
  | 2 => .dimMismatch
  | 3 => .badSubcodec
  | 4 => .rleOverrun
  | _ => .instanceFatal

/-- A pixel buffer of `len` free pixels (R154). -/
def drawBuffer (n : Nat) (b : BufId) (len : Nat) : List Pixel := (List.range len).map fun i => draw16 n (.pixel b i)

/-- `len` free scratch bytes (R22). -/
def drawScratch (n len : Nat) : List Byte := (List.range len).map fun i => draw8 n (.scratch i)

/-- `len` free bytes in the host's output buffer (R144). -/
def drawDst (n len : Nat) : List Byte := (List.range len).map fun i => draw8 n (.dst i)

/-- The registers that hold no known value after `init`, `deinit` or a failure: the reader cursor, any number since the
`SIZE` of R24's bound ends with the command (R144, U21, log 10), header (R25, R26, R28), RLE engine with its bound (R29), block decoder (R30). -/
def State.freeCommandRegisters (s : State) : State :=
  let n := s.draws
  { s with
    pos := Config.free n .pos
    hw := draw32 n .hw
    hh := draw32 n .hh
    seq := draw16 n .seq
    subc := draw8 n .subc
    rot := draw8 n .rot
    scb := Vector.ofFn fun i => draw16 n (.scb i.val)
    bg := draw16 n .bg
    cb := Vector.ofFn fun i => draw16 n (.cb i.val)
    rleN := Config.free n .rleN
    rleK := Config.free n .rleK % (Config.free n .rleN + 1)
    rleSink := drawSink n .rleSink
    op := draw8 n .op
    cx := Config.free n .cx
    cy := Config.free n .cy
    bs := drawBlockSize n .bs
    draws := n + 1 }

/- The frame buffers. -/

def FrameBuffers.get (f : FrameBuffers) : BufId → List Pixel
  | .b0 => f.b0
  | .b1 => f.b1
  | .b2 => f.b2

def FrameBuffers.set (f : FrameBuffers) (b : BufId) (buf : List Pixel) : FrameBuffers :=
  match b with
  | .b0 => { f with b0 := buf }
  | .b1 => { f with b1 := buf }
  | .b2 => { f with b2 := buf }

/-- `FB[b][x, y]`, the pixel at index `y * AW + x` (00_scope.md R14). -/
def State.pixel (s : State) (b : BufId) (x y : Nat) : Pixel := (s.fb.get b).getD (y * s.aw + x) 0

/-- A whole buffer rewritten pixel by pixel: `f x y old` is the new value at `(x, y)`. The loops of R76 to R85 and R104
write each pixel at most once and read no pixel they write, so they are written as this one pointwise update. -/
def rewriteBuffer (aw : Nat) (f : Nat → Nat → Pixel → Pixel) (buf : List Pixel) : List Pixel :=
  buf.mapIdx fun i p => f (i % aw) (i / aw) p

def State.rewrite (s : State) (b : BufId) (f : Nat → Nat → Pixel → Pixel) : State :=
  { s with fb := s.fb.set b (rewriteBuffer s.aw f (s.fb.get b)) }

/-- `(x, y)` is a pixel of the `n × n` block at `(cx, cy)`. -/
def inBlock (cx cy n x y : Nat) : Bool := decide (cx ≤ x ∧ x < cx + n ∧ cy ≤ y ∧ y < cy + n)

/-- `for y, x in 0..n-1: FB[CUR][cx+x, cy+y] <- val x y`, the loop of R76, R79, R80, R81, R83. -/
def State.writeBlock (s : State) (cx cy n : Nat) (val : Nat → Nat → Pixel) : State :=
  s.rewrite s.cur fun x y old => if inBlock cx cy n x y then val (x - cx) (y - cy) else old

/- The blitter. -/

/-- `mcCopy(cx, cy, bs, dx, dy)` (R79). -/
def State.mcCopy (s : State) (cx cy bs : Nat) (v : Int × Int) : State :=
  let sx := (cx : Int) + v.1
  let sy := (cy : Int) + v.2
  if inBounds s.aw s.ah sx sy bs then
    s.writeBlock cx cy bs fun x y => s.pixel s.ref (sx.toNat + x) (sy.toNat + y)
  else s.emitDiag ⟨.mvSkip, cx, cy, bs, .vector v.1 v.2⟩

/-- `prevCopy(cx, cy, bs)` (R80). -/
def State.prevCopy (s : State) (cx cy bs : Nat) : State :=
  s.writeBlock cx cy bs fun x y => s.pixel s.prev (cx + x) (cy + y)

/-- `fillBlock(cx, cy, bs, v)` (R81). -/
def State.fillBlock (s : State) (cx cy bs : Nat) (v : Pixel) : State := s.writeBlock cx cy bs fun _ _ => v

/-- `put4(cx, cy, v0, v1, v2, v3)`: raster order (R82, R83). -/
def State.put4 (s : State) (cx cy : Nat) (v0 v1 v2 v3 : Pixel) : State :=
  s.writeBlock cx cy 2 fun x y => if y = 0 then (if x = 0 then v0 else v1) else (if x = 0 then v2 else v3)

/-- `drawGlyph(cx, cy, bs, g, fgColor, bgColor)` (R76); an index of 256 or more draws nothing and is logged. -/
def State.drawGlyph (s : State) (cx cy : Nat) (bs : BlockSize) (g : Nat) (fg bg : Pixel) : State :=
  if hg : g < 256 then
    s.writeBlock cx cy bs.toNat fun x y => if glyphMask bs ⟨g, hg⟩ x y then fg else bg
  else s.emitDiag ⟨.glyphSkip, cx, cy, bs.toNat, .glyphIndex g⟩

/-- `copyFrame(src)` (R84): the whole aligned buffer. -/
def State.copyFrame (s : State) (src : BufId) : State := s.rewrite s.cur fun x y _ => s.pixel src x y

/-- `clearFrame(b, v)` (R85). -/
def State.clearFrame (s : State) (b : BufId) (v : Pixel) : State := s.rewrite b fun _ _ _ => v

/- The W×H pixel map (R104). -/

/-- `pixmap(j)` (R104). -/
def pixmap (m : PixelMap) (w aw j : Nat) : Nat × Nat :=
  match m with
  | .window => (j % w, j / w)
  | .linear => (j % aw, j / aw)

/-- The `j < W*H` whose pixel is `(x, y)`, if there is one: `pixmap` read backwards. -/
def pixelSlot (m : PixelMap) (w h aw x y : Nat) : Option Nat :=
  match m with
  | .window => if x < w ∧ y < h then some (y * w + x) else none
  | .linear => if y * aw + x < w * h then some (y * aw + x) else none

/-- Pixel `j` of the image in buffer `b`: `FB[b][pixmap(j)]`. -/
def State.imagePixel (s : State) (b : BufId) (j : Nat) : Pixel :=
  let p := pixmap Config.pixelMap s.w s.aw j
  s.pixel b p.1 p.2

/-- `FB[CUR][pixmap(j)] <- val j` for every `j < W*H`; the other pixels keep their values (R106, R112, R113). -/
def State.writeImage (s : State) (val : Nat → Pixel) : State :=
  s.rewrite s.cur fun x y old =>
    match pixelSlot Config.pixelMap s.w s.h s.aw x y with
    | some j => val j
    | none => old

/- The RLE engine's output (R87, R88). -/

/-- `rleDecode(outSize, sink)` starts the engine (R87). -/
def State.startRle (s : State) (outSize : Nat) (sink : Sink) : State :=
  { s with rleN := outSize, rleK := 0, rleSink := sink, phase := .runs }

/-- Output byte number `k` after a run that produced `bytes` from number `start` on: the run's byte or the old one. -/
def emitted (start : Nat) (bytes : List Byte) (k : Nat) (old : Byte) : Byte :=
  if start ≤ k then bytes.getD (k - start) old else old

/-- `emit` to the sink `scr` (R88): `SCR[k]` is the output byte number `k`. -/
def State.emitScratch (s : State) (bytes : List Byte) : State :=
  { s with scr := s.scr.mapIdx fun k old => emitted s.rleK bytes k old }

/-- `emit` to the sink `curpix` (R88): byte `2j` is the low and byte `2j + 1` the high byte of pixel `j` of the image. -/
def State.emitImage (s : State) (bytes : List Byte) : State :=
  s.rewrite s.cur fun x y old =>
    match pixelSlot Config.pixelMap s.w s.h s.aw x y with
    | some j => u16 (emitted s.rleK bytes (2 * j) (loByte old)) (emitted s.rleK bytes (2 * j + 1) (hiByte old))
    | none => old

/-- `emit(RLE_K + j, bytes[j])` for every `j` (R88). -/
def State.emitBytes (s : State) (bytes : List Byte) : State :=
  match s.rleSink with
  | .scr => s.emitScratch bytes
  | .curpix => s.emitImage bytes

/- Failure: the engine's one exception (60_exceptions.md R143, R144). There is no handler and no return (R145). -/

/-- `raise Fail(c)`: the command stops, `STATUS <- FAIL`, `CAUSE <- c` and control is the host's again (R143). What R144
leaves unspecified is drawn: every byte of `DST`, every pixel of `FB[CUR]`, `SCR`, the cursor, the header, RLE and block
registers. `PREV`, `REF`, their buffers, `LIFE` and `DIAG` stay; no block is pending (R34) and the command's input is gone
(R23). Log 10, 19, 22. -/
def State.raiseFail (s : State) (c : Cause) : State :=
  { s.freeCommandRegisters.withoutInput with
    fb := s.fb.set s.cur (drawBuffer s.draws s.cur (s.fb.get s.cur).length)
    scr := drawScratch s.draws s.scr.length
    dst := drawDst s.draws s.dst.length
    pend := []
    status := .fail
    cause := c
    phase := .idle }

/- The frame sequencer. -/

/-- `8 * ceil(n / 8)` (R7). -/
def align8 (n : Nat) : Nat := 8 * ((n + 7) / 8)

/-- The effect of `init(width, height)` (R96, R153). The absent `IN`, `SIZE` and `POS` are empty, 0 and 0 (log 11, 22). -/
def State.allocate (s : State) (w h : Nat) : State :=
  let n := s.draws
  { s.withoutInput.freeCommandRegisters with
    life := .ready
    pos := 0
    w := w
    h := h
    aw := align8 w
    ah := align8 h
    fb := ⟨drawBuffer n .b0 (align8 w * align8 h), drawBuffer n .b1 (align8 w * align8 h),
      drawBuffer n .b2 (align8 w * align8 h)⟩
    scr := drawScratch n (w * h)
    cur := .b0
    prev := .b1
    ref := .b2
    pend := []
    status := .idle
    cause := .none
    diag := [] }

/-- The effect of `deinit()` (R97): the buffers are released, every register is undefined, `LIFE <- UNINIT`. Log 12. -/
def State.release (s : State) : State :=
  let n := s.draws
  { s.withoutInput.freeCommandRegisters with
    life := .uninit
    w := Config.free n .w
    h := Config.free n .h
    aw := Config.free n .aw
    ah := Config.free n .ah
    fb := ⟨[], [], []⟩
    scr := []
    cur := drawBufId n .cur
    prev := drawBufId n .prev
    ref := drawBufId n .ref
    pend := []
    status := drawStatus n .status
    cause := drawCause n .cause
    diag := Config.freeDiag n }

/-- The reader is wrapped around the input: `IN = compressed[0 .. size-1]`, `POS <- 0` (R65). -/
def State.wrapReader (s : State) (compressed : List Byte) (size : Nat) : State :=
  { s with inp := compressed.take size, size := size, pos := 0 }

/-- The header registers and the codebooks are loaded (R101). -/
def State.loadHeader (s : State) (f : Header) : State :=
  { s with
    hw := f.hw, hh := f.hh, seq := f.seq, subc := f.subc, rot := f.rot, scb := f.scb, bg := f.bg, cb := f.cb }

/-- The keyframe clear (R103): at `SEQ = 0`, `PREV` and `REF`, and `CUR` under `KEYFRAME_CLEARS_CURRENT`. -/
def State.keyframeClear (s : State) : State :=
  if s.seq = 0 then
    let t := (s.clearFrame s.prev s.bg).clearFrame s.ref s.bg
    if Config.keyframeClearsCurrent then t.clearFrame s.cur s.bg else t
  else s

/-- The header is read: `need(HEADER_SIZE)`, the fields from its bytes, `POS <- HEADER_SIZE`; `none` is
`Fail(TRUNCATED)` (R101). -/
def State.parseHeader (s : State) : Option State :=
  (s.readBuf Config.headerSize).map fun r => r.2.loadHeader (readHeader r.1)

/-- A dimension mismatch (R102, R100): the instance becomes `FATAL` when mismatches are sticky, the frame fails. -/
def State.failDimensions (s : State) : State :=
  (s.withLife (if Config.dimMismatchSticky then .fatal else s.life)).raiseFail .dimMismatch

/-- The steps of `decode` from the reader wrap to the keyframe clear, with the subcodec next (R99). -/
def State.startFrame (s : State) (compressed : List Byte) (size : Nat) : State :=
  let s0 := s.wrapReader compressed size
  match s0.parseHeader with
  | none => s0.raiseFail .truncated
  | some s1 =>
    if s1.dimensionsMatch then s1.keyframeClear.enter .dispatch
    else s1.failDimensions

/-- The accepted command `decode(dst, compressed, size)` up to the dispatch (R99, R100). -/
def State.beginDecode (s : State) (dst compressed : List Byte) (size : Nat) : State :=
  let s0 := s.beginStatus.withDst dst
  if s.life = .fatal then s0.raiseFail .instanceFatal else s0.startFrame compressed size

/-- The subcodec succeeded: copy-out and rotation come next (R99). -/
def State.endSubcodec (s : State) : State := s.enter .finish

/-- Byte `i` of the image in `DST`: pixel `i / 2`, low or high byte as `DST_BYTE_ORDER` says (R115, R41). -/
def dstByte (o : ByteOrder) (i : Nat) (v : Pixel) : Byte :=
  match o with
  | .little => if i % 2 = 0 then loByte v else hiByte v
  | .big => if i % 2 = 0 then hiByte v else loByte v

/-- Copy-out (R115). -/
def State.copyOut (s : State) : State :=
  { s with
    dst := s.dst.mapIdx fun i old =>
      if i < 2 * (s.w * s.h) then dstByte Config.dstByteOrder i (s.imagePixel s.cur (i / 2)) else old }

/-- Rotation, first step (R116): at `ROT = 2` the roles `REF` and `PREV` are swapped. -/
def State.rotateRefPrev (s : State) : State :=
  { s with ref := if s.rot = 2 then s.prev else s.ref, prev := if s.rot = 2 then s.ref else s.prev }

/-- Rotation, second step (R117): at `ROT ≠ 0` the roles `CUR` and `REF` are swapped. -/
def State.rotateCurRef (s : State) : State :=
  { s with cur := if s.rot = 0 then s.cur else s.ref, ref := if s.rot = 0 then s.ref else s.cur }

/-- Rotation (R116, R117). -/
def State.rotate (s : State) : State := s.rotateRefPrev.rotateCurRef

/-- The end of a successful `decode`: copy-out, rotation, `STATUS <- OK` (R99, R115 to R117); the command is over and its
input with it (R23). -/
def State.completeDecode (s : State) : State := s.copyOut.rotate.okStatus.withoutInput.enter .idle

/- The block decoder's control (44_block_decoder.md). -/

/-- Every top-level block of the aligned frame in raster order (R120). -/
def topLevelBlocks (aw ah : Nat) : List Block :=
  (List.range (ah / 8)).flatMap fun by' => (List.range (aw / 8)).map fun bx => ⟨8 * bx, 8 * by', .s8⟩

/-- Half of a block size that can be split (R134). -/
def halfSize : BlockSize → BlockSize
  | .s8 => .s4
  | .s4 => .s2
  | .s2 => .s2

/-- The four quadrants in the order of R134. -/
def quadrants (b : Block) : List Block :=
  let k := halfSize b.bs
  let n := k.toNat
  [⟨b.cx, b.cy, k⟩, ⟨b.cx + n, b.cy, k⟩, ⟨b.cx, b.cy + n, k⟩, ⟨b.cx + n, b.cy + n, k⟩]

/-- `(CX, CY, BS) <- head(PEND); PEND <- tail(PEND); OP <-` the opcode (R122). -/
def State.takeBlock (s : State) (b : Block) (rest : List Block) (op : Byte) : State :=
  { s with cx := b.cx, cy := b.cy, bs := b.bs, pend := rest, op := op }

/-- The quadrants of the current block go on the front of `PEND` (R134). -/
def State.pushQuadrants (s : State) : State :=
  s.withPend (quadrants ⟨s.cx, s.cy, s.bs⟩ ++ s.pend)

/-- One block step (R122) of an instruction with opcode `op`, `len` bytes long, encodable at the sizes `sizes`: take the
head block, read the bytes, then the effect. Every operand is read before the first write (R123). -/
def blockInstr (op : Byte) (len : Nat) (sizes : BlockSize → Bool) (effect : State → State) (s : State) :
    Host.Outcome State Fault Refusal :=
  if s.phase = .blocks then
    match s.pend with
    | [] => .refused .noPendingBlock
    | b :: rest =>
      if sizes b.bs then
        if blockInFrame s.aw s.ah b then
          .next (match (s.takeBlock b rest op).skip len with
            | none => (s.takeBlock b rest op).raiseFail .truncated
            | some t => effect t)
        else .fault .blockOutsideFrame
      else .refused .wrongBlockSize
  else .refused .notDecodingBlocks

/-- The block sizes of an opcode that is the same at every size. -/
def anySize (_ : BlockSize) : Bool := true

/-- `BS = 2`. -/
def pixelSize (bs : BlockSize) : Bool := bs == .s2

/-- `BS > 2`. -/
def glyphSize (bs : BlockSize) : Bool := bs != .s2

/- The RLE engine's control (42_rle_engine.md). -/

/-- One run (R90): the run byte, the space check, the operand bytes, the output, `RLE_K <- RLE_K + n`. `operands` is the
number of operand bytes, `bytes` the `n` output bytes. -/
def runInstr (operands : Nat) (bytes : List Byte) (s : State) : Host.Outcome State Fault Refusal :=
  if s.phase = .runs then
    .next (match s.skip 1 with
      | none => s.raiseFail .truncated
      | some s1 =>
        if s.rleN - s.rleK < bytes.length then s1.raiseFail .rleOverrun
        else
          match s1.skip operands with
          | none => s1.raiseFail .truncated
          | some s2 => (s2.emitBytes bytes).countOutput bytes.length)
  else .refused .notDecodingRuns

/-- The end of the RLE loop (R89): subcodec 8 maps the scratch bytes through the codebook (R113). -/
def State.endRuns (s : State) : State :=
  match s.rleSink with
  | .curpix => s.endSubcodec
  | .scr => (s.writeImage fun j => s.codebook (s.scr.getD j 0)).endSubcodec

/- The dispatch (43_frame_sequencer.md R105). -/

/-- A subcodec runs at the dispatch step of a `decode`. -/
def subcodecInstr (effect : State → State) (s : State) : Host.Outcome State Fault Refusal :=
  if s.phase = .dispatch then .next (effect s) else .refused .notDispatching

/-- Subcodecs 1 and 7 under `SUBCODEC_1_7` (R107). -/
def State.reservedSubcodec (s : State) : State :=
  match Config.subcodec17 with
  | .fail => s.raiseFail .badSubcodec
  | .noop => s.endSubcodec

end Sys2Proof.Machine
end

