-- ==== Sys2Proof/Machine/Blocks.lean ====
section
/-! DEFINITION. The block opcodes of subcodec 2 (44_block_decoder.md R124 to R135), each over the shared block step
`blockInstr` (R122), with the length of 30_encoding.md R56. -/

namespace Sys2Proof.Machine

/-- `mv k` (R124). -/
def execMv (k : Byte) (s : State) : Host.Outcome State Fault Refusal :=
  blockInstr k 1 anySize (fun t => t.mcCopy t.cx t.cy t.bs.toNat (mvLookup k)) s

/-- `mvabs v` (R125). -/
def execMvabs (v : BitVec 16) (s : State) : Host.Outcome State Fault Refusal :=
  blockInstr opMvabs 3 anySize (fun t => t.mcCopy t.cx t.cy t.bs.toNat (t.f5Vector v)) s

/-- `prev` (R126). -/
def execPrev (s : State) : Host.Outcome State Fault Refusal :=
  blockInstr opPrev 1 anySize (fun t => t.prevCopy t.cx t.cy t.bs.toNat) s

/-- `pix4c i0, i1, i2, i3` (R127). -/
def execPix4c (i0 i1 i2 i3 : Byte) (s : State) : Host.Outcome State Fault Refusal :=
  blockInstr opCodebook 5 pixelSize
    (fun t => t.put4 t.cx t.cy (t.codebook i0) (t.codebook i1) (t.codebook i2) (t.codebook i3)) s

/-- `glyphc g, bgi, fgi` (R128). -/
def execGlyphc (g bgi fgi : Byte) (s : State) : Host.Outcome State Fault Refusal :=
  blockInstr opCodebook 4 glyphSize (fun t => t.drawGlyph t.cx t.cy t.bs g.toNat (t.codebook fgi) (t.codebook bgi)) s

/-- `pix4 p0, p1, p2, p3` (R129). -/
def execPix4 (p0 p1 p2 p3 : Pixel) (s : State) : Host.Outcome State Fault Refusal :=
  blockInstr opLiteral 9 pixelSize (fun t => t.put4 t.cx t.cy p0 p1 p2 p3) s

/-- `glyph g, bg, fg` (R130). -/
def execGlyph (g : Byte) (bg fg : Pixel) (s : State) : Host.Outcome State Fault Refusal :=
  blockInstr opLiteral 6 glyphSize (fun t => t.drawGlyph t.cx t.cy t.bs g.toNat fg bg) s

/-- `fills s` (R131): the operand is `OP - 0xF9`. -/
def execFills (i : Fin 4) (s : State) : Host.Outcome State Fault Refusal :=
  blockInstr (opFills + BitVec.ofNat 8 i.val) 1 anySize
    (fun t => t.fillBlock t.cx t.cy t.bs.toNat (t.smallCodebook i)) s

/-- `fillc i` (R132). -/
def execFillc (i : Byte) (s : State) : Host.Outcome State Fault Refusal :=
  blockInstr opFillc 2 anySize (fun t => t.fillBlock t.cx t.cy t.bs.toNat (t.codebook i)) s

/-- `fill v` (R133). -/
def execFill (v : Pixel) (s : State) : Host.Outcome State Fault Refusal :=
  blockInstr opFill 3 anySize (fun t => t.fillBlock t.cx t.cy t.bs.toNat v) s

/-- `split` (R134). -/
def execSplit (s : State) : Host.Outcome State Fault Refusal :=
  blockInstr opSplit 1 glyphSize (fun t => t.pushQuadrants) s

/-- `pix4f p0, p1, p2, p3` (R135): as `pix4` under its own opcode. -/
def execPix4f (p0 p1 p2 p3 : Pixel) (s : State) : Host.Outcome State Fault Refusal :=
  blockInstr opSplit 9 pixelSize (fun t => t.put4 t.cx t.cy p0 p1 p2 p3) s

end Sys2Proof.Machine
end

