-- ==== Sys2Proof/Machine/Commands.lean ====
section
/-! DEFINITION. The host commands (43_frame_sequencer.md R96 to R100). A command whose precondition or host duty does not
hold has no step; it is refused under a name of its own (R98, 92_eei_decisions.md D27). -/

namespace Sys2Proof.Machine

/-- A command is taken only when none runs (R98 duty 4). -/
def hostCommand (body : State → Host.Outcome State Fault Refusal) (s : State) : Host.Outcome State Fault Refusal :=
  if s.phase = .idle then body s else .refused .commandRunning

/-- `1 ≤ n ≤ MAX_DIM` (R7, R96). -/
def dimensionOk (n : Nat) : Bool := 1 ≤ n && n ≤ Config.maxDim

/-- `init(width, height)` (R96). -/
def execInit (width height : U32) (s : State) : Host.Outcome State Fault Refusal :=
  hostCommand (fun s =>
    if s.life = .uninit then
      if dimensionOk width.toNat && dimensionOk height.toNat then .next (s.allocate width.toNat height.toNat)
      else .refused .dimensionOutOfRange
    else .refused .alreadyInitialised) s

/-- `deinit()` (R97). -/
def execDeinit (s : State) : Host.Outcome State Fault Refusal :=
  hostCommand (fun s => if s.life = .uninit then .refused .notInitialised else .next s.release) s

/-- `decode(dst, compressed, size)` (R98, R99, R100): the command up to its dispatch step; the subcodec and its
instructions, copy-out and rotation follow as steps of their own. -/
def execDecode (dst compressed : List Byte) (size : Nat) (s : State) : Host.Outcome State Fault Refusal :=
  hostCommand (fun s =>
    if s.life = .uninit then .refused .notInitialised
    else if compressed.length < size then .refused .sizeBeyondInput
    else if dst.length < 2 * (s.w * s.h) then .refused .dstTooSmall
    else .next (s.beginDecode dst compressed size)) s

end Sys2Proof.Machine
end

