-- ==== Sys2Proof/Machine/Runs.lean ====
section
/-! DEFINITION. The run instructions of the RLE engine (42_rle_engine.md R92, R93), over the shared run step (R90). -/

namespace Sys2Proof.Machine

/-- `copy` (R93): as many operand bytes as output bytes. -/
def execCopy (bytes : List Byte) (s : State) : Host.Outcome State Fault Refusal := runInstr bytes.length bytes s

/-- `run n, b` (R92): one operand byte, `n` output bytes. -/
def execRun (n : Nat) (b : Byte) (s : State) : Host.Outcome State Fault Refusal := runInstr 1 (List.replicate n b) s

end Sys2Proof.Machine
end

