-- ==== Sys2Proof/Machine/Subcodecs.lean ====
section
/-! DEFINITION. The subcodecs (43_frame_sequencer.md R106 to R114), each over the shared dispatch `subcodecInstr` (R105).
A subcodec with a stream of its own (2, 5, 8) starts its loop; the loop's instructions are steps of their own. -/

namespace Sys2Proof.Machine

/-- `raw` (R106): `W*H` little-endian pixels of the payload. -/
def execRaw (s : State) : Host.Outcome State Fault Refusal :=
  subcodecInstr (fun s =>
    match s.readBuf (2 * (s.w * s.h)) with
    | none => s.raiseFail .truncated
    | some (bytes, t) => (t.writeImage fun j => u16 (bytes.getD (2 * j) 0) (bytes.getD (2 * j + 1) 0)).endSubcodec) s

/-- `subc1` (R107). -/
def execSubc1 (s : State) : Host.Outcome State Fault Refusal := subcodecInstr (fun s => s.reservedSubcodec) s

/-- `block` (R108, R120, R121): every top-level block is pending and the block loop starts. -/
def execBlock (s : State) : Host.Outcome State Fault Refusal :=
  subcodecInstr (fun s => (s.withPend (topLevelBlocks s.aw s.ah)).enter .blocks) s

/-- `copyref` (R109). -/
def execCopyref (s : State) : Host.Outcome State Fault Refusal :=
  subcodecInstr (fun s => (s.copyFrame s.ref).endSubcodec) s

/-- `copyprev` (R110). -/
def execCopyprev (s : State) : Host.Outcome State Fault Refusal :=
  subcodecInstr (fun s => (s.copyFrame s.prev).endSubcodec) s

/-- `rle16` (R111, R87). -/
def execRle16 (s : State) : Host.Outcome State Fault Refusal :=
  subcodecInstr (fun s => s.startRle (2 * (s.w * s.h)) .curpix) s

/-- `cbmap` (R112): `W*H` codebook indices of the payload. -/
def execCbmap (s : State) : Host.Outcome State Fault Refusal :=
  subcodecInstr (fun s =>
    match s.readBuf (s.w * s.h) with
    | none => s.raiseFail .truncated
    | some (bytes, t) => (t.writeImage fun j => t.codebook (bytes.getD j 0)).endSubcodec) s

/-- `subc7` (R107). -/
def execSubc7 (s : State) : Host.Outcome State Fault Refusal := subcodecInstr (fun s => s.reservedSubcodec) s

/-- `rlecb` (R113, R87): the codebook map follows at the end of the loop. -/
def execRlecb (s : State) : Host.Outcome State Fault Refusal :=
  subcodecInstr (fun s => s.startRle (s.w * s.h) .scr) s

/-- `invalid` (R114): ids 9 to 255 fail whatever the id. -/
def execInvalid (_ : Byte) (s : State) : Host.Outcome State Fault Refusal :=
  subcodecInstr (fun s => s.raiseFail .badSubcodec) s

end Sys2Proof.Machine
end

