-- ==== Sys2Proof/Machine/Dispatch.lean ====
section
/-! DEFINITION. The meaning of every instruction: one arm per constructor of Instr. -/

namespace Sys2Proof.Machine

def exec (i : Instr) (s : State) : Host.Outcome State Fault Refusal :=
  match i with
  | .mv k => Sys2Proof.Machine.execMv k s
  | .mvabs v => Sys2Proof.Machine.execMvabs v s
  | .prev => Sys2Proof.Machine.execPrev s
  | .pix4c i0 i1 i2 i3 => Sys2Proof.Machine.execPix4c i0 i1 i2 i3 s
  | .glyphc g bgi fgi => Sys2Proof.Machine.execGlyphc g bgi fgi s
  | .pix4 p0 p1 p2 p3 => Sys2Proof.Machine.execPix4 p0 p1 p2 p3 s
  | .glyph g bg fg => Sys2Proof.Machine.execGlyph g bg fg s
  | .fills k => Sys2Proof.Machine.execFills k s
  | .fillc k => Sys2Proof.Machine.execFillc k s
  | .fill v => Sys2Proof.Machine.execFill v s
  | .split => Sys2Proof.Machine.execSplit s
  | .pix4f p0 p1 p2 p3 => Sys2Proof.Machine.execPix4f p0 p1 p2 p3 s
  | .copy bytes => Sys2Proof.Machine.execCopy bytes s
  | .run n b => Sys2Proof.Machine.execRun n b s
  | .raw => Sys2Proof.Machine.execRaw s
  | .subc1 => Sys2Proof.Machine.execSubc1 s
  | .block => Sys2Proof.Machine.execBlock s
  | .copyref => Sys2Proof.Machine.execCopyref s
  | .copyprev => Sys2Proof.Machine.execCopyprev s
  | .rle16 => Sys2Proof.Machine.execRle16 s
  | .cbmap => Sys2Proof.Machine.execCbmap s
  | .subc7 => Sys2Proof.Machine.execSubc7 s
  | .rlecb => Sys2Proof.Machine.execRlecb s
  | .invalid n => Sys2Proof.Machine.execInvalid n s
  | .init width height => Sys2Proof.Machine.execInit width height s
  | .deinit => Sys2Proof.Machine.execDeinit s
  | .decode dst compressed size => Sys2Proof.Machine.execDecode dst compressed size s

end Sys2Proof.Machine
end

