-- ==== Sys2Proof/Machine/Fetch.lean ====
section
/-! DEFINITION. Which instruction comes next (43_frame_sequencer.md R99, R105; 44_block_decoder.md R121, R122;
42_rle_engine.md R89, R90), and how a word is placed where the next step fetches it. -/

namespace Sys2Proof.Machine

/-- The command as an instruction of the opcode table. -/
def HostCommand.toInstr : HostCommand → Instr
  | .init width height => .init width height
  | .deinit => .deinit
  | .decode dst compressed size => .decode dst compressed size

/-- What a step finds to do: run an instruction in a state, or a step of the sequencer alone, which gives a state. -/
inductive Fetched where
  | instr (i : Instr) (s : State)
  | sequencer (s : State)
  deriving DecidableEq, Repr

/-- A block step without its opcode or its operands: `Fail(TRUNCATED)` (R122, R146). -/
def State.failBlockFetch (s : State) : State := s.raiseFail .truncated

/-- A run without all its bytes (R90, R146): no run byte is `TRUNCATED`, then too long a run is `RLE_OVERRUN`, then
missing operand bytes are `TRUNCATED`. -/
def State.failRunFetch (s : State) : State :=
  match s.rest with
  | [] => s.raiseFail .truncated
  | r :: _ => if s.rleN - s.rleK < runLength r then s.raiseFail .rleOverrun else s.raiseFail .truncated

/-- The next host command, when no command runs; without one the engine does nothing (R18, R153). -/
def fetchCommand (s : State) : Fetched :=
  match s.inbox with
  | [] => .sequencer s
  | c :: cs => .instr c.toInstr (s.withInbox cs)

/-- The loop of the block decoder (R121): the next instruction at the head block's size, or the end of the subcodec. -/
def fetchBlock (s : State) : Fetched :=
  match s.pend with
  | [] => .sequencer s.endSubcodec
  | b :: _ =>
    match decodeBytes (.block b.bs) s.rest with
    | .ok (i, _) => .instr i s
    | .error _ => .sequencer s.failBlockFetch

/-- The loop of the RLE engine (R89): the next run while `RLE_K < RLE_N`, else the end of the subcodec. -/
def fetchRun (s : State) : Fetched :=
  if s.rleK < s.rleN then
    match decodeBytes .rle s.rest with
    | .ok (i, _) => .instr i s
    | .error _ => .sequencer s.failRunFetch
  else .sequencer s.endRuns

/-- What the next step does. -/
def fetch (s : State) : Fetched :=
  match s.phase with
  | .idle => fetchCommand s
  | .dispatch => .instr (decodeSubcodec s.subc) s
  | .blocks => fetchBlock s
  | .runs => fetchRun s
  | .finish => .sequencer s.completeDecode

/- Placing a word for the host's probe (log 4, 5). -/

/-- An instance with a frame that holds the block at `(0, 0)`: the state as it is, or one with an 8 × 8 frame. -/
def State.withFrame (s : State) : State := if 8 ≤ s.aw ∧ 8 ≤ s.ah then s else s.allocate 8 8

/-- A running command with `size` bytes of input, the cursor at the first. -/
def State.withInput (s : State) (bytes : List Byte) (size : Nat) : State :=
  { s with inp := bytes, size := size, pos := 0, status := .busy, cause := .none }

/-- The word as the next instruction of its language: the block at `(0, 0)` pending, a run engine with room for 128
bytes, or the header's subcodec id with a payload of zeros for subcodecs 0 and 6. -/
def State.placeWord (s : State) (nbits w : Nat) : State :=
  let t := s.withFrame
  match wordLang nbits w with
  | .block bs => { t.withInput (wordBytes nbits w) longestInstr with phase := .blocks, pend := [⟨0, 0, bs⟩] }
  | .rle => (t.withInput (wordBytes nbits w) longestInstr).startRle 128 .curpix
  | .subcodec =>
    { t.withInput (List.replicate (2 * (t.w * t.h)) 0) (2 * (t.w * t.h)) with phase := .dispatch, subc := BitVec.ofNat 8 w, pend := [] }

end Sys2Proof.Machine
end

