-- ==== Sys2Proof/Safety.lean ====
section
/-! DEFINITION. What counts as a safe state and a safe run of the engine, in the terms the statements use: the canonical
form of the memories, the invariant, the outcome of a failure, the work a command has left. -/

namespace Sys2Proof.Machine

/-- The memories have their one form: while an instance exists each frame buffer holds exactly `AW * AH` pixels and `SCR`
exactly `W * H` bytes (R21, R22), without one they hold nothing (R97); `IN` holds exactly `SIZE` bytes (R23). -/
def State.memoryWf (s : State) : Bool :=
  (if s.life = .uninit then s.fb == ⟨[], [], []⟩ && s.scr.isEmpty
   else s.fb.b0.length == s.aw * s.ah && s.fb.b1.length == s.aw * s.ah && s.fb.b2.length == s.aw * s.ah
     && s.scr.length == s.w * s.h)
  && s.inp.length == s.size

/-- The side of a block is a divisor of both coordinates (R42) and the block lies in the frame (R30). -/
def blockOk (aw ah : Nat) (b : Block) : Bool :=
  blockInFrame aw ah b && b.cx % b.bs.toNat == 0 && b.cy % b.bs.toNat == 0

/-- The dimensions are those an `init` can give (R7, R20). -/
def State.dimensionsOk (s : State) : Bool :=
  dimensionOk s.w && dimensionOk s.h && s.aw == align8 s.w && s.ah == align8 s.h

/-- The three roles name three different buffers (R27). -/
def State.rolesOk (s : State) : Bool := s.cur != s.prev && s.cur != s.ref && s.prev != s.ref

/-- What holds while a command runs: the instance is ready, `STATUS` is `BUSY` with no cause (R31), the header carries
the instance's dimensions (R102), `DST` has room for the image (R98). -/
def State.runningOk (s : State) : Bool :=
  s.life == .ready && s.status == .busy && s.cause == .none && s.dimensionsMatch
    && decide (2 * (s.w * s.h) ≤ s.dst.length)

/-- What holds between commands of an instance: `STATUS` is not `BUSY`, and it is `FAIL` exactly when there is a cause
(R31, R141). -/
def State.restingOk (s : State) : Bool := s.status != .busy && ((s.status == .fail) == (s.cause != .none))

/-- The RLE engine counts up to the size of its sink (R29, R87). -/
def State.rleOk (s : State) : Bool :=
  decide (s.rleK ≤ s.rleN) &&
    (s.phase != .runs ||
      match s.rleSink with
      | .curpix => s.rleN == 2 * (s.w * s.h)
      | .scr => s.rleN == s.w * s.h)

/-- `PEND` is empty outside the block decoder's loop, and its blocks are aligned blocks of the frame (R34, R30, R42). -/
def State.pendOk (s : State) : Bool :=
  (s.phase == .blocks || s.pend.isEmpty) && s.pend.all (blockOk s.aw s.ah)

/-- There is no input (R23), held as no bytes (log 22). -/
def State.inputAbsent (s : State) : Bool := s.inp.isEmpty && s.size == 0

/-- The invariant of the engine. The cursor is bounded by `SIZE` while there is one (R23, R24). -/
structure State.Inv (s : State) : Prop where
  memory : s.memoryWf = true
  dimensions : s.life ≠ .uninit → s.dimensionsOk = true
  roles : s.life ≠ .uninit → s.rolesOk = true
  cursor : s.phase ≠ .idle → s.pos ≤ s.size
  input : s.phase = .idle → s.inputAbsent = true
  rle : s.rleOk = true
  pending : s.pendOk = true
  running : s.phase ≠ .idle → s.runningOk = true
  resting : s.phase = .idle → s.life ≠ .uninit → s.restingOk = true

/-- The outcome of a failed command that R143 and R144 fix, from the state `s` in which the failure was raised, with the
command's input gone (R23, log 22) and no block pending (R34, log 19): what is not named is at any value (log 10). -/
structure FailedWith (c : Cause) (s t : State) : Prop where
  status : t.status = .fail
  cause : t.cause = c
  phase : t.phase = .idle
  pend : t.pend = []
  life : t.life = s.life
  diag : t.diag = s.diag
  dimensions : t.w = s.w ∧ t.h = s.h ∧ t.aw = s.aw ∧ t.ah = s.ah
  roles : t.cur = s.cur ∧ t.prev = s.prev ∧ t.ref = s.ref
  otherBuffers : ∀ b, b ≠ s.cur → t.fb.get b = s.fb.get b
  sizes : (t.fb.get s.cur).length = (s.fb.get s.cur).length ∧ t.scr.length = s.scr.length ∧ t.dst.length = s.dst.length
  input : t.inp = [] ∧ t.size = 0
  inbox : t.inbox = s.inbox

/-- How many block steps a pending block can take: 1 at size 2, `1 + 4` at size 4, `1 + 4 + 16` at size 8 (R136). -/
def blockWork : BlockSize → Nat
  | .s8 => 21
  | .s4 => 5
  | .s2 => 1

/-- How many block steps the pending blocks can take. -/
def pendWork (pend : List Block) : Nat := (pend.map fun b => blockWork b.bs).sum

/-- An upper bound on the steps a running command has left (R137, R95, R159). -/
def State.work (s : State) : Nat :=
  match s.phase with
  | .idle => 0
  | .finish => 1
  | .blocks => pendWork s.pend + 2
  | .runs => s.rleN - s.rleK + 2
  | .dispatch => 21 * (s.aw / 8 * (s.ah / 8)) + 2 * (s.w * s.h) + 3

/-- The number of top-level blocks of a frame (R120). -/
def State.ntop (s : State) : Nat := s.aw / 8 * (s.ah / 8)

/-- The pixel `(x, y)` is one of the block's. -/
def blockCovers (b : Block) (x y : Nat) : Bool := inBlock b.cx b.cy b.bs.toNat x y

/-- The head block of the block decoder's loop is `b`, `rest` follows, the block lies in the frame and the buffers are
allocated: what a block instruction needs besides its bytes (R122). -/
structure BlockReady (s : State) (b : Block) (rest : List Block) : Prop where
  phase : s.phase = .blocks
  pend : s.pend = b :: rest
  inFrame : b.cx + b.bs.toNat ≤ s.aw ∧ b.cy + b.bs.toNat ≤ s.ah
  buffers : ∀ i, (s.fb.get i).length = s.aw * s.ah

/-- The image lies in the frame and the buffers are allocated: what the subcodecs and the RLE engine need besides their
bytes (R20, R21). -/
structure ImageReady (s : State) : Prop where
  width : s.w ≤ s.aw
  height : s.h ≤ s.ah
  buffers : ∀ i, (s.fb.get i).length = s.aw * s.ah

/-- The registers after a block step of `len` bytes with opcode `op` (R122): everything but the named registers, the
frame buffers and `DIAG` is as before. -/
def AfterBlockStep (s t : State) (b : Block) (rest : List Block) (op : Byte) (len : Nat) : Prop :=
  t = { s with cx := b.cx, cy := b.cy, bs := b.bs, pend := rest, op := op, pos := s.pos + len, fb := t.fb, diag := t.diag }

/-- What the block instruction `i` with opcode `op`, `len` bytes long, answers on the head block: with its bytes there
the registers of a block step and the given effect, without them `Fail(TRUNCATED)` (R66, R122, R143). -/
def BlockStepIs (i : Instr) (op : Byte) (len : Nat) (s : State) (b : Block) (rest : List Block)
    (effect : State → Prop) : Prop :=
  (len ≤ s.bytesLeft → ∃ t, exec i s = .next t ∧ AfterBlockStep s t b rest op len ∧ effect t) ∧
  (s.bytesLeft < len → ∃ t, exec i s = .next t ∧ FailedWith .truncated s t)

/-- No pixel of any buffer outside the block `b` of `CUR` is written (R86). -/
def OnlyBlockWritten (s t : State) (b : Block) : Prop :=
  ∀ i x y, x < s.aw → y < s.ah → ¬(i = s.cur ∧ blockCovers b x y = true) → t.pixel i x y = s.pixel i x y

/-- Of all pixels of all buffers exactly those of the block `b` of `CUR` are written, with `val` at the offset inside
the block (R86). -/
def PaintsBlock (s t : State) (b : Block) (val : Nat → Nat → Pixel) : Prop :=
  OnlyBlockWritten s t b ∧
  ∀ x y, x < b.bs.toNat → y < b.bs.toNat → t.pixel s.cur (b.cx + x) (b.cy + y) = val x y

/-- The outcome of `mcCopy` with the displacement `(dx, dy)` (R78, R79): the copy of the rectangle of `REF` when it lies
in the buffer, else nothing but one record of `DIAG`. -/
def CopiesFromReference (s t : State) (b : Block) (dx dy : Int) : Prop :=
  if 0 ≤ b.cx + dx ∧ b.cx + dx + b.bs.toNat ≤ s.aw ∧ 0 ≤ b.cy + dy ∧ b.cy + dy + b.bs.toNat ≤ s.ah then
    t.diag = s.diag ∧
      PaintsBlock s t b fun x y => s.pixel s.ref (b.cx + dx + x : Int).toNat (b.cy + dy + y : Int).toNat
  else t.fb = s.fb ∧ t.diag = s.diag ++ [⟨.mvSkip, b.cx, b.cy, b.bs.toNat, .vector dx dy⟩]

/-- Element `(x, y)` of glyph `g` at a size, in row-major order (R75). -/
def MaskElement (bs : BlockSize) (g : Fin 256) (x y : Nat) (m : Bool) : Prop :=
  (bs = .s4 ∧ ∃ e : Fin 16, e.val = y * 4 + x ∧ m = Config.glyph4 g e) ∨
  (bs = .s8 ∧ ∃ e : Fin 64, e.val = y * 8 + x ∧ m = Config.glyph8 g e)

/-- The block shows glyph `g` in the two colours (R76). -/
def DrawsGlyph (s t : State) (b : Block) (g : Fin 256) (fg bg : Pixel) : Prop :=
  OnlyBlockWritten s t b ∧
  ∀ x y m, x < b.bs.toNat → y < b.bs.toNat → MaskElement b.bs g x y m →
    t.pixel s.cur (b.cx + x) (b.cy + y) = if m then fg else bg

/-- The four pixels of a 2×2 block in raster order (R82, R83). -/
def WritesRaster (s t : State) (b : Block) (v0 v1 v2 v3 : Pixel) : Prop :=
  OnlyBlockWritten s t b ∧
  t.pixel s.cur b.cx b.cy = v0 ∧ t.pixel s.cur (b.cx + 1) b.cy = v1 ∧
  t.pixel s.cur b.cx (b.cy + 1) = v2 ∧ t.pixel s.cur (b.cx + 1) (b.cy + 1) = v3

/-- `(x, y)` is none of the image's pixels under the pixel map (R104). -/
def OutsideImage (s : State) (x y : Nat) : Prop :=
  ∀ j, j < s.w * s.h → pixmap Config.pixelMap s.w s.aw j ≠ (x, y)

/-- No pixel but the image's in `CUR` is written. -/
def OnlyImageWritten (s t : State) : Prop :=
  ∀ i x y, x < s.aw → y < s.ah → (i ≠ s.cur ∨ OutsideImage s x y) → t.pixel i x y = s.pixel i x y

/-- Every pixel `j` of the image in `CUR` is `val j`, and no other pixel is written (R106, R112, R113). -/
def PaintsImage (s t : State) (val : Nat → Pixel) : Prop :=
  OnlyImageWritten s t ∧ ∀ j, j < s.w * s.h → t.imagePixel s.cur j = val j

/-- What a run that produces `bytes` writes to its sink (R88): to `SCR` or to the bytes of the current image, the bytes
numbered from `RLE_K` on and no others. -/
def EmitsBytes (s t : State) (bytes : List Byte) : Prop :=
  match s.rleSink with
  | .scr =>
    t.fb = s.fb ∧ t.scr.length = s.scr.length ∧
      ∀ k, k < s.scr.length →
        t.scr[k]? = if s.rleK ≤ k ∧ k < s.rleK + bytes.length then bytes[k - s.rleK]? else s.scr[k]?
  | .curpix =>
    t.scr = s.scr ∧ OnlyImageWritten s t ∧
      ∀ j, j < s.w * s.h →
        some (loByte (t.imagePixel s.cur j)) =
            (if s.rleK ≤ 2 * j ∧ 2 * j < s.rleK + bytes.length then bytes[2 * j - s.rleK]?
             else some (loByte (s.imagePixel s.cur j))) ∧
        some (hiByte (t.imagePixel s.cur j)) =
            (if s.rleK ≤ 2 * j + 1 ∧ 2 * j + 1 < s.rleK + bytes.length then bytes[2 * j + 1 - s.rleK]?
             else some (hiByte (s.imagePixel s.cur j)))

/-- What a run instruction `i` with `operands` operand bytes that produces `bytes` answers in the RLE engine's loop
(R90, R91, R146): the checks in their order, then the output and the new `RLE_K`. -/
def RunStepIs (i : Instr) (operands : Nat) (bytes : List Byte) (s : State) : Prop :=
  (s.bytesLeft = 0 → ∃ t, exec i s = .next t ∧ FailedWith .truncated s t) ∧
  (0 < s.bytesLeft → s.rleN - s.rleK < bytes.length → ∃ t, exec i s = .next t ∧ FailedWith .rleOverrun s t) ∧
  (0 < s.bytesLeft → bytes.length ≤ s.rleN - s.rleK → s.bytesLeft < 1 + operands →
    ∃ t, exec i s = .next t ∧ FailedWith .truncated s t) ∧
  (1 + operands ≤ s.bytesLeft → bytes.length ≤ s.rleN - s.rleK →
    ∃ t, exec i s = .next t ∧
      t = { s with pos := s.pos + 1 + operands, rleK := s.rleK + bytes.length, fb := t.fb, scr := t.scr } ∧
      EmitsBytes s t bytes)

/-- How a frame's pending blocks can stand (R136): blocks of size 2, then of size 4, then of size 8, few enough that the
list never exceeds the top-level blocks by more than 6. -/
def State.PendShape (s : State) : Prop :=
  ∃ twos fours tops : List Block,
    s.pend = twos ++ fours ++ tops ∧
    (∀ b ∈ twos, b.bs = .s2) ∧ (∀ b ∈ fours, b.bs = .s4) ∧ (∀ b ∈ tops, b.bs = .s8) ∧
    twos.length ≤ 4 ∧ fours.length ≤ 4 ∧ tops.length ≤ s.ntop ∧
    (twos ≠ [] → fours.length ≤ 3) ∧ (twos ≠ [] ∨ fours ≠ [] → tops.length + 1 ≤ s.ntop)

/-- Two blocks share no pixel. -/
def BlocksDisjoint (a b : Block) : Prop := ∀ x y, ¬(blockCovers a x y = true ∧ blockCovers b x y = true)

/-- The pending blocks share no pixel, so no pixel is decoded twice (R138). -/
def State.PendDisjoint (s : State) : Prop := s.pend.Pairwise BlocksDisjoint

/-- Exactly one block of a list has the pixel `(x, y)`. -/
def ExactlyOneCovers (blocks : List Block) (x y : Nat) : Prop :=
  (blocks.filter fun b => blockCovers b x y).length = 1

end Sys2Proof.Machine
end

