-- ==== Sys2Proof/Certificates/Slice0/Obligations.lean ====
section
/-! DEFINITION. The statements for the provers, from the numbered rules of spec/. -/

open Sys2Proof Sys2Proof.Machine

/- Encoding (30_encoding.md). -/

/-- Every operation of the Bitstream Reader (R67 to R72): with the bytes left it returns them little-endian and moves the
cursor over them and changes nothing else; without them it returns nothing (`none` is `Fail(TRUNCATED)`).
Rests on the spec's decision D23 (a failing operation moves nothing; `skip` checks first). -/
def Obligations.ReaderOperations : Prop :=
  ∀ s : State,
    s.bytesLeft = s.size - s.pos ∧
    (s.readU8 = if 1 ≤ s.bytesLeft then some (s.inByte s.pos, { s with pos := s.pos + 1 }) else none) ∧
    (2 ≤ s.bytesLeft → ∃ v, s.readU16LE = some (v, { s with pos := s.pos + 2 }) ∧
      v.toNat = (s.inByte s.pos).toNat + 256 * (s.inByte (s.pos + 1)).toNat) ∧
    (s.bytesLeft < 2 → s.readU16LE = none) ∧
    (4 ≤ s.bytesLeft → ∃ v, s.readU32LE = some (v, { s with pos := s.pos + 4 }) ∧
      v.toNat = (s.inByte s.pos).toNat + 256 * (s.inByte (s.pos + 1)).toNat
        + 65536 * (s.inByte (s.pos + 2)).toNat + 16777216 * (s.inByte (s.pos + 3)).toNat) ∧
    (s.bytesLeft < 4 → s.readU32LE = none) ∧
    (∀ n, n ≤ s.bytesLeft → ∃ out, s.readBuf n = some (out, { s with pos := s.pos + n }) ∧ out.length = n ∧
      ∀ k, k < n → out[k]? = some (s.inByte (s.pos + k))) ∧
    (∀ n, s.bytesLeft < n → s.readBuf n = none) ∧
    (∀ n, s.skip n = if n ≤ s.bytesLeft then some { s with pos := s.pos + n } else none)

/-- Decoding an encoded instruction gives it back, whatever bytes follow: every well-formed instruction with an
encoding, in every language and at every block size it is written in (R55, R57, R59, R54).
The operand orders of 0xF7 and 0xF8 are the spec's decisions D11 and D12. -/
def Obligations.DecodeOfEncode : Prop :=
  ∀ (i : Instr) (l : Lang) (bytes rest : List Byte),
    i.wellFormed = true → i.validIn l = true → encode i = some bytes → decodeBytes l (bytes ++ rest) = .ok (i, rest)

/-- The other direction: what the decoder reads is a well-formed instruction of the language, and its encoding is
exactly the bytes it was read from, so each word has one meaning (R55 to R60).
The operand orders of 0xF7 and 0xF8 are the spec's decisions D11 and D12. -/
def Obligations.EncodeOfDecode : Prop :=
  ∀ (l : Lang) (bytes rest : List Byte) (i : Instr),
    decodeBytes l bytes = .ok (i, rest) →
      i.wellFormed = true ∧ i.validIn l = true ∧ ∃ own, encode i = some own ∧ own ++ rest = bytes

/-- Every block opcode byte is defined at every block size, and every run byte is a valid run: with enough bytes behind
it the decoder reads an instruction (R60, R61).
R60 and R61 are the spec's own inferences from R55 and R59. -/
def Obligations.EveryOpcodeByteDecodes : Prop :=
  (∀ (bs : BlockSize) (op : Byte) (t : List Byte), 8 ≤ t.length → ∃ r, decodeBytes (.block bs) (op :: t) = .ok r) ∧
  (∀ (r : Byte) (t : List Byte), 128 ≤ t.length → ∃ d, decodeBytes .rle (r :: t) = .ok d)

/-- The length table of R56: the length of a block instruction is a function of the opcode and the block size.
R56 is the spec's own inference from R55. -/
def Obligations.BlockInstructionLengths : Prop :=
  ∀ (bs : BlockSize) (op : Byte) (t rest : List Byte) (i : Instr),
    decodeBytes (.block bs) (op :: t) = .ok (i, rest) →
      (op :: t).length - rest.length =
        (if op.toNat ≤ 0xF4 ∨ op = 0xF6 ∨ (0xF9 ≤ op.toNat ∧ op.toNat ≤ 0xFC) ∨ (op = 0xFF ∧ bs ≠ .s2) then 1
         else if op = 0xFD then 2
         else if op = 0xF5 ∨ op = 0xFE then 3
         else if op = 0xF7 then (if bs = .s2 then 5 else 4)
         else if bs = .s2 then 9 else 6) ∧
      i.length = (op :: t).length - rest.length

/-- Words written out from the encoding tables decode to their instructions (R55, R59, R64).
The operand orders of 0xF7 and 0xF8 are the spec's decisions D11 and D12. -/
def Obligations.SpecWordsDecode : Prop :=
  decodeBytes (.block .s8) [0x10] = .ok (.mv 0x10, []) ∧
  decodeBytes (.block .s4) [0xF5, 0x08, 0x01] = .ok (.mvabs 0x0108, []) ∧
  decodeBytes (.block .s2) [0xF7, 0x00, 0x01, 0xFE, 0xFF] = .ok (.pix4c 0x00 0x01 0xFE 0xFF, []) ∧
  decodeBytes (.block .s8) [0xF8, 0x00, 0x34, 0x12, 0x78, 0x56] = .ok (.glyph 0x00 0x1234 0x5678, []) ∧
  decodeBytes (.block .s8) [0xFB] = .ok (.fills 2, []) ∧
  decodeBytes (.block .s8) [0xFF] = .ok (.split, []) ∧
  decodeBytes .rle [0x04, 0x0A, 0x0B, 0x0C] = .ok (.copy [0x0A, 0x0B, 0x0C], []) ∧
  decodeBytes .rle [0x79, 0x01] = .ok (.run 61 0x01, []) ∧
  decodeBytes .subcodec [0x08] = .ok (.rlecb, [])

/- The step (43_frame_sequencer.md R99, R105; 44_block_decoder.md R121, R122; 42_rle_engine.md R89). -/

/-- A step runs the decoded instruction: the block opcode at the cursor at the head block's size, the run at the cursor
while the target is not reached, the host's next command (taken off the inbox) when no command runs.
What one step is, and the inbox, are the model's choice (log 1, log 2). -/
def Obligations.StepRunsDecodedInstruction : Prop :=
  (∀ (s : State) (b : Block) (rest : List Block) (i : Instr) (tail : List Byte),
    s.phase = .blocks → s.pend = b :: rest → decodeBytes (.block b.bs) s.rest = .ok (i, tail) → step s = exec i s) ∧
  (∀ (s : State) (i : Instr) (tail : List Byte),
    s.phase = .runs → s.rleK < s.rleN → decodeBytes .rle s.rest = .ok (i, tail) → step s = exec i s) ∧
  (∀ (s : State) (cs : List HostCommand) (w h : U32),
    s.phase = .idle → s.inbox = .init w h :: cs → step s = exec (.init w h) { s with inbox := cs }) ∧
  (∀ (s : State) (cs : List HostCommand),
    s.phase = .idle → s.inbox = .deinit :: cs → step s = exec .deinit { s with inbox := cs }) ∧
  (∀ (s : State) (cs : List HostCommand) (dst compressed : List Byte) (size : Nat),
    s.phase = .idle → s.inbox = .decode dst compressed size :: cs →
      step s = exec (.decode dst compressed size) { s with inbox := cs })

/-- The subcodec id selects exactly one routine (R105, R54).
That the dispatch is a step of its own is the model's choice (log 1). -/
def Obligations.DispatchBySubcodecId : Prop :=
  ∀ s : State, s.phase = .dispatch →
    (s.subc = 0 → step s = exec .raw s) ∧ (s.subc = 1 → step s = exec .subc1 s) ∧
    (s.subc = 2 → step s = exec .block s) ∧ (s.subc = 3 → step s = exec .copyref s) ∧
    (s.subc = 4 → step s = exec .copyprev s) ∧ (s.subc = 5 → step s = exec .rle16 s) ∧
    (s.subc = 6 → step s = exec .cbmap s) ∧ (s.subc = 7 → step s = exec .subc7 s) ∧
    (s.subc = 8 → step s = exec .rlecb s) ∧ (9 ≤ s.subc.toNat → step s = exec (.invalid s.subc) s)

/-- The engine does nothing until a command arrives (R153).
That a step without a command leaves the state as it is, is the model's choice (log 2). -/
def Obligations.IdleEngineWaits : Prop :=
  ∀ s : State, s.phase = .idle → s.inbox = [] → step s = .next s

/-- A step in a loop whose instruction's bytes are not all there fails: in the block loop with `TRUNCATED`, in the RLE
loop with `TRUNCATED` without a run byte, else with `RLE_OVERRUN` for a run longer than the space left, else with
`TRUNCATED` (R90, R122, R146).
The order of the RLE checks is the spec's decision D24.
What a failure leaves is the spec's decision D21; what R144 leaves unsaid of it is the model's choice (log 10, log 19),
and that the absent input is empty (log 22). -/
def Obligations.MissingBytesFailInOrder : Prop :=
  (∀ (s : State) (b : Block) (rest : List Block) (e : DecodeError),
    s.phase = .blocks → s.pend = b :: rest → decodeBytes (.block b.bs) s.rest = .error e →
      ∃ t, step s = .next t ∧ FailedWith .truncated s t) ∧
  (∀ s : State, s.phase = .runs → s.rleK < s.rleN → s.rest = [] →
    ∃ t, step s = .next t ∧ FailedWith .truncated s t) ∧
  (∀ (s : State) (r : Byte) (tail : List Byte) (e : DecodeError),
    s.phase = .runs → s.rleK < s.rleN → s.rest = r :: tail → decodeBytes .rle s.rest = .error e →
      ∃ t, step s = .next t ∧
        (s.rleN - s.rleK < r.toNat / 2 + 1 → FailedWith .rleOverrun s t) ∧
        (r.toNat / 2 + 1 ≤ s.rleN - s.rleK → FailedWith .truncated s t))

/-- The loops end: no pending block ends the block decoder (R121); the target reached ends the RLE engine (R89), and for
the scratch sink every image pixel becomes the codebook's colour of its scratch byte (R113).
That the end of a loop is a step of its own is the model's choice (log 1), the pixel map the spec's D14. -/
def Obligations.LoopsEnd : Prop :=
  (∀ s : State, s.phase = .blocks → s.pend = [] → step s = .next { s with phase := .finish }) ∧
  (∀ s : State, s.phase = .runs → s.rleN ≤ s.rleK → s.rleSink = .curpix → step s = .next { s with phase := .finish }) ∧
  (∀ s : State, s.phase = .runs → s.rleN ≤ s.rleK → s.rleSink = .scr → ImageReady s → s.scr.length = s.w * s.h →
    ∃ t, step s = .next t ∧ t = { s with fb := t.fb, phase := .finish } ∧ OnlyImageWritten s t ∧
      ∀ j i, j < s.w * s.h → s.scr[j]? = some i → t.imagePixel s.cur j = s.cb.get i.toFin)

/-- Copy-out and rotation end a successful command (R115 to R118): the image of the buffer that was current goes to
`DST` in the order of `DST_BYTE_ORDER`, the bytes beyond it stay, then the roles change as `ROT` says, `STATUS` is `OK`
and the command's input is gone (R23); no pixel moves.
That rotation looks at `ROT` alone is the spec's decision D33, the table of R118 its own inference; that the other
registers keep their values is the model's choice (log 13), and that the absent input is empty (log 22). -/
def Obligations.CopyOutThenRotation : Prop :=
  ∀ s : State, s.phase = .finish →
    ∃ t, step s = .next t ∧
      t = { s with
        dst := t.dst, cur := t.cur, prev := t.prev, ref := t.ref, status := .ok, inp := [], size := 0, phase := .idle } ∧
      t.dst.length = s.dst.length ∧
      (∀ k, 2 * (s.w * s.h) ≤ k → t.dst[k]? = s.dst[k]?) ∧
      (∀ j, j < s.w * s.h → 2 * (s.w * s.h) ≤ s.dst.length →
        (Config.dstByteOrder = .little → t.dst[2 * j]? = some (loByte (s.imagePixel s.cur j)) ∧
          t.dst[2 * j + 1]? = some (hiByte (s.imagePixel s.cur j))) ∧
        (Config.dstByteOrder = .big → t.dst[2 * j]? = some (hiByte (s.imagePixel s.cur j)) ∧
          t.dst[2 * j + 1]? = some (loByte (s.imagePixel s.cur j)))) ∧
      (s.rot = 0 → t.cur = s.cur ∧ t.prev = s.prev ∧ t.ref = s.ref) ∧
      (s.rot = 2 → t.cur = s.prev ∧ t.prev = s.ref ∧ t.ref = s.cur) ∧
      (s.rot ≠ 0 → s.rot ≠ 2 → t.cur = s.ref ∧ t.prev = s.prev ∧ t.ref = s.cur)

/- The host commands (43_frame_sequencer.md R96 to R103). -/

/-- `init` (R96): the dimensions, the aligned dimensions as the least multiples of 8 not below them, buffers and scratch
of their sizes, the roles 0, 1, 2, `STATUS` IDLE, no cause, no diagnostics, no pending block, `LIFE` READY.
The roles are the spec's decision D28; that the absent `IN`, `SIZE`, `POS` are empty and 0 (log 22) and `DST` stays (log 11)
is the model's choice. -/
def Obligations.InitAllocates : Prop :=
  ∀ (s : State) (w h : U32), s.phase = .idle → s.life = .uninit →
    1 ≤ w.toNat → w.toNat ≤ Config.maxDim → 1 ≤ h.toNat → h.toNat ≤ Config.maxDim →
    ∃ t, exec (.init w h) s = .next t ∧
      t.life = .ready ∧ t.w = w.toNat ∧ t.h = h.toNat ∧
      (t.aw % 8 = 0 ∧ w.toNat ≤ t.aw ∧ t.aw < w.toNat + 8) ∧ (t.ah % 8 = 0 ∧ h.toNat ≤ t.ah ∧ t.ah < h.toNat + 8) ∧
      (∀ b, (t.fb.get b).length = t.aw * t.ah) ∧ t.scr.length = w.toNat * h.toNat ∧
      (t.cur = .b0 ∧ t.prev = .b1 ∧ t.ref = .b2) ∧
      t.status = .idle ∧ t.cause = .none ∧ t.diag = [] ∧ t.pend = [] ∧ t.inp = [] ∧ t.size = 0 ∧ t.pos = 0 ∧
      t.phase = .idle ∧ t.inbox = s.inbox ∧ t.dst = s.dst

/-- `deinit` (R97): the buffers are released and `LIFE` is UNINIT; a later `init` starts afresh.
That `PEND`, the absent buffers and the inbox have these values is the model's choice (log 12). -/
def Obligations.DeinitReleases : Prop :=
  ∀ s : State, s.phase = .idle → s.life ≠ .uninit →
    ∃ t, exec .deinit s = .next t ∧ t.life = .uninit ∧ (∀ b, t.fb.get b = []) ∧ t.scr = [] ∧ t.pend = [] ∧
      t.phase = .idle ∧ t.inbox = s.inbox ∧ t.dst = s.dst

/-- Commands out of order and commands that break a host duty have no step (R96, R97, R98, R99).
The refusals are the spec's decision D27; their names and their order are the model's choice (log 17). -/
def Obligations.HostCommandsRefused : Prop :=
  (∀ (s : State) (w h : U32), s.phase = .idle → s.life ≠ .uninit → exec (.init w h) s = .refused .alreadyInitialised) ∧
  (∀ (s : State) (w h : U32), s.phase = .idle → s.life = .uninit →
    (w.toNat = 0 ∨ Config.maxDim < w.toNat ∨ h.toNat = 0 ∨ Config.maxDim < h.toNat) →
    exec (.init w h) s = .refused .dimensionOutOfRange) ∧
  (∀ s : State, s.phase = .idle → s.life = .uninit → exec .deinit s = .refused .notInitialised) ∧
  (∀ (s : State) (dst compressed : List Byte) (size : Nat), s.phase = .idle → s.life = .uninit →
    exec (.decode dst compressed size) s = .refused .notInitialised) ∧
  (∀ (s : State) (dst compressed : List Byte) (size : Nat), s.phase = .idle → s.life ≠ .uninit →
    compressed.length < size → exec (.decode dst compressed size) s = .refused .sizeBeyondInput) ∧
  (∀ (s : State) (dst compressed : List Byte) (size : Nat), s.phase = .idle → s.life ≠ .uninit →
    size ≤ compressed.length → dst.length < 2 * (s.w * s.h) →
    exec (.decode dst compressed size) s = .refused .dstTooSmall) ∧
  (∀ (s : State) (c : HostCommand), s.phase ≠ .idle → exec c.toInstr s = .refused .commandRunning)

/-- `decode` on a whole header of the right dimensions (R99, R101 to R103): the reader wraps the input, the header
registers are loaded, the cursor stands behind the header, a keyframe clears `PREV` and `REF`, and `CUR` under
`KEYFRAME_CLEARS_CURRENT`, and the dispatch comes next; nothing else changes.
The order of the steps is the spec's decision D18, the buffers cleared D17, the header's layout the open D4. -/
def Obligations.DecodeStartsFrame : Prop :=
  ∀ (s : State) (dst compressed : List Byte) (size : Nat) (f : Header),
    s.phase = .idle → s.life = .ready → size ≤ compressed.length → 2 * (s.w * s.h) ≤ dst.length →
    (∀ b, (s.fb.get b).length = s.aw * s.ah) →
    Config.headerSize ≤ size → f = readHeader (compressed.take Config.headerSize) →
    f.hw.toNat = s.w → f.hh.toNat = s.h →
    ∃ t, exec (.decode dst compressed size) s = .next t ∧
      t = { s with
        status := .busy, cause := .none, diag := [], dst := dst, inp := compressed.take size, size := size,
        pos := Config.headerSize, hw := f.hw, hh := f.hh, seq := f.seq, subc := f.subc, rot := f.rot, scb := f.scb,
        bg := f.bg, cb := f.cb, fb := t.fb, phase := .dispatch } ∧
      ∀ i x y, x < s.aw → y < s.ah →
        t.pixel i x y =
          if f.seq = 0 ∧ (i = s.prev ∨ i = s.ref ∨ (i = s.cur ∧ Config.keyframeClearsCurrent = true)) then f.bg
          else s.pixel i x y

/-- What `decode` fails with before its dispatch, in order (R100 to R102, R146): `INSTANCE_FATAL` on a fatal instance
whatever the input, `TRUNCATED` for an input shorter than the header, `DIM_MISMATCH` for other dimensions, which makes
the instance fatal under `DIM_MISMATCH_STICKY`.
The order of the steps is the spec's decision D18, the sticky mismatch D20, the state after a failure D21. What R144
leaves unsaid of it is the model's choice (log 10, log 19), and that the absent input is empty (log 22). -/
def Obligations.DecodeFailsInOrder : Prop :=
  ∀ (s : State) (dst compressed : List Byte) (size : Nat) (f : Header),
    s.phase = .idle → s.life ≠ .uninit → size ≤ compressed.length → 2 * (s.w * s.h) ≤ dst.length →
    f = readHeader (compressed.take Config.headerSize) →
    (s.life = .fatal → ∃ t, exec (.decode dst compressed size) s = .next t ∧
      FailedWith .instanceFatal { s with diag := [], dst := dst } t) ∧
    (s.life = .ready → size < Config.headerSize → ∃ t, exec (.decode dst compressed size) s = .next t ∧
      FailedWith .truncated { s with diag := [], dst := dst } t) ∧
    (s.life = .ready → Config.headerSize ≤ size → (f.hw.toNat ≠ s.w ∨ f.hh.toNat ≠ s.h) →
      ∃ t, exec (.decode dst compressed size) s = .next t ∧
        FailedWith .dimMismatch { s with
          diag := [], dst := dst,
          life := if Config.dimMismatchSticky = true then .fatal else .ready } t)

/- The subcodecs (43_frame_sequencer.md R106 to R114). -/

/-- `raw` (R106): pixel `j` of the image is the `j`-th `u16` of the payload; fails with `TRUNCATED` on fewer than
`2*W*H` bytes.
The place of pixel `j` is the spec's decision D14.
What a failure leaves is the spec's decision D21; what R144 leaves unsaid of it is the model's choice (log 10, log 19),
and that the absent input is empty (log 22). -/
def Obligations.RawFillsImage : Prop :=
  ∀ s : State, s.phase = .dispatch → ImageReady s →
    (2 * (s.w * s.h) ≤ s.bytesLeft →
      ∃ t, exec .raw s = .next t ∧ t = { s with pos := s.pos + 2 * (s.w * s.h), fb := t.fb, phase := .finish } ∧
        OnlyImageWritten s t ∧
        ∀ j, j < s.w * s.h → (t.imagePixel s.cur j).toNat =
          (s.inByte (s.pos + 2 * j)).toNat + 256 * (s.inByte (s.pos + 2 * j + 1)).toNat) ∧
    (s.bytesLeft < 2 * (s.w * s.h) → ∃ t, exec .raw s = .next t ∧ FailedWith .truncated s t)

/-- `cbmap` (R112): pixel `j` of the image is the codebook's colour of the `j`-th payload byte.
The place of pixel `j` is the spec's decision D14.
What a failure leaves is the spec's decision D21; what R144 leaves unsaid of it is the model's choice (log 10, log 19),
and that the absent input is empty (log 22). -/
def Obligations.CbmapFillsImage : Prop :=
  ∀ s : State, s.phase = .dispatch → ImageReady s →
    (s.w * s.h ≤ s.bytesLeft →
      ∃ t, exec .cbmap s = .next t ∧ t = { s with pos := s.pos + s.w * s.h, fb := t.fb, phase := .finish } ∧
        PaintsImage s t fun j => s.cb.get (s.inByte (s.pos + j)).toFin) ∧
    (s.bytesLeft < s.w * s.h → ∃ t, exec .cbmap s = .next t ∧ FailedWith .truncated s t)

/-- `copyref` and `copyprev` (R109, R110, R84): every pixel of the whole aligned buffer of `CUR` becomes that of `REF`
or `PREV`; no other buffer and no other register changes. -/
def Obligations.WholeFrameCopies : Prop :=
  ∀ s : State, s.phase = .dispatch → (∀ b, (s.fb.get b).length = s.aw * s.ah) →
    (∃ t, exec .copyref s = .next t ∧ t = { s with fb := t.fb, phase := .finish } ∧
      ∀ i x y, x < s.aw → y < s.ah → t.pixel i x y = if i = s.cur then s.pixel s.ref x y else s.pixel i x y) ∧
    (∃ t, exec .copyprev s = .next t ∧ t = { s with fb := t.fb, phase := .finish } ∧
      ∀ i x y, x < s.aw → y < s.ah → t.pixel i x y = if i = s.cur then s.pixel s.prev x y else s.pixel i x y)

/-- Subcodecs 1 and 7 (R107): `Fail(BAD_SUBCODEC)` under `fail`; under `noop` nothing is read or written and the command
goes on to copy-out.
The parameter is the spec's decision D19.
What a failure leaves is the spec's decision D21; what R144 leaves unsaid of it is the model's choice (log 10, log 19),
and that the absent input is empty (log 22). -/
def Obligations.ReservedSubcodecsFollowParameter : Prop :=
  ∀ s : State, s.phase = .dispatch →
    (∃ t, exec .subc1 s = .next t ∧
      (Config.subcodec17 = .fail → FailedWith .badSubcodec s t) ∧
      (Config.subcodec17 = .noop → t = { s with phase := .finish })) ∧
    (∃ t, exec .subc7 s = .next t ∧
      (Config.subcodec17 = .fail → FailedWith .badSubcodec s t) ∧
      (Config.subcodec17 = .noop → t = { s with phase := .finish }))

/-- Subcodec ids 9 to 255 fail with `BAD_SUBCODEC` (R114).
What a failure leaves is the spec's decision D21; what R144 leaves unsaid of it is the model's choice (log 10, log 19),
and that the absent input is empty (log 22). -/
def Obligations.InvalidSubcodecsFail : Prop :=
  ∀ (s : State) (id : Byte), s.phase = .dispatch → 9 ≤ id.toNat →
    ∃ t, exec (.invalid id) s = .next t ∧ FailedWith .badSubcodec s t

/-- `block` (R120, R121): the pending blocks are the 8×8 blocks of the aligned frame in raster order and the block loop
starts; nothing else changes. -/
def Obligations.BlockSubcodecLoadsTopLevelBlocks : Prop :=
  ∀ s : State, s.phase = .dispatch →
    ∃ t, exec .block s = .next t ∧ t = { s with pend := t.pend, phase := .blocks } ∧
      t.pend.length = s.aw / 8 * (s.ah / 8) ∧
      ∀ bx r, bx < s.aw / 8 → r < s.ah / 8 → t.pend[r * (s.aw / 8) + bx]? = some ⟨8 * bx, 8 * r, .s8⟩

/-- `rle16` and `rlecb` start the RLE engine with their size and sink (R87). -/
def Obligations.RleSubcodecsStartEngine : Prop :=
  ∀ s : State, s.phase = .dispatch →
    exec .rle16 s = .next { s with rleN := 2 * (s.w * s.h), rleK := 0, rleSink := .curpix, phase := .runs } ∧
    exec .rlecb s = .next { s with rleN := s.w * s.h, rleK := 0, rleSink := .scr, phase := .runs }

/- The RLE engine (42_rle_engine.md). -/

/-- COPY (R93, R90, R91): its `n` literal bytes go to the sink and `n + 1` bytes are consumed; the failures in order.
The order of the checks is the spec's decision D24, the byte order of pixels D15, their place D14.
What a failure leaves is the spec's decision D21; what R144 leaves unsaid of it is the model's choice (log 10, log 19),
and that the absent input is empty (log 22). -/
def Obligations.CopyEmitsLiteralBytes : Prop :=
  ∀ (s : State) (bytes : List Byte), s.phase = .runs → ImageReady s →
    RunStepIs (.copy bytes) bytes.length bytes s

/-- RUN (R92, R90, R91): its byte goes to the sink `n` times and 2 bytes are consumed; the failures in order.
The order of the checks is the spec's decision D24, the byte order of pixels D15, their place D14.
What a failure leaves is the spec's decision D21; what R144 leaves unsaid of it is the model's choice (log 10, log 19),
and that the absent input is empty (log 22). -/
def Obligations.RunEmitsFillByte : Prop :=
  ∀ (s : State) (n : Nat) (b : Byte), s.phase = .runs → ImageReady s →
    RunStepIs (.run n b) 1 (List.replicate n b) s

/- The block decoder (44_block_decoder.md). -/

/-- `mv k` (R124, R77, R79): the displacement is the table's entry, sign-extended.
The bounds are the spec's decision D10, the form of the `DIAG` record D26.
What a failure leaves is the spec's decision D21; what R144 leaves unsaid of it is the model's choice (log 10, log 19),
and that the absent input is empty (log 22). -/
def Obligations.MvCopiesFromReference : Prop :=
  ∀ (s : State) (b : Block) (rest : List Block) (k : Byte), k.toNat ≤ 0xF4 → BlockReady s b rest →
    BlockStepIs (.mv k) k 1 s b rest fun t =>
      CopiesFromReference s t b (Config.mvTable k.toFin).1.toInt (Config.mvTable k.toFin).2.toInt

/-- `mvabs v` (R125): the offset, signed under `F5_SIGNED`, is split by floor division by `W` or `AW`.
The signedness, the divisor, the relative displacement and the bounds are the spec's decisions D7 to D10, the form
of the `DIAG` record D26.
What a failure leaves is the spec's decision D21; what R144 leaves unsaid of it is the model's choice (log 10, log 19),
and that the absent input is empty (log 22). -/
def Obligations.MvabsCopiesFromReference : Prop :=
  ∀ (s : State) (b : Block) (rest : List Block) (v : BitVec 16) (dx dy d : Int), BlockReady s b rest → 0 < s.w →
    d = (if Config.f5Divisor = .w then s.w else s.aw) → 0 ≤ dx → dx < d →
    dy * d + dx = (if Config.f5Signed = true ∧ 0x8000 ≤ v.toNat then (v.toNat : Int) - 0x10000 else v.toNat) →
    BlockStepIs (.mvabs v) 0xF5 3 s b rest fun t => CopiesFromReference s t b dx dy

/-- `prev` (R126, R80): the co-located block of `PREV`, no diagnostic.
What a failure leaves is the spec's decision D21; what R144 leaves unsaid of it is the model's choice (log 10, log 19),
and that the absent input is empty (log 22). -/
def Obligations.PrevCopiesFromPrevious : Prop :=
  ∀ (s : State) (b : Block) (rest : List Block), BlockReady s b rest →
    BlockStepIs .prev 0xF6 1 s b rest fun t =>
      t.diag = s.diag ∧ PaintsBlock s t b fun x y => s.pixel s.prev (b.cx + x) (b.cy + y)

/-- `pix4c`, `pix4` and `pix4f` at size 2 (R127, R129, R135, R82): four codebook or literal pixels in raster order.
The raster order is the spec's decision D11.
What a failure leaves is the spec's decision D21; what R144 leaves unsaid of it is the model's choice (log 10, log 19),
and that the absent input is empty (log 22). -/
def Obligations.PixelFormsWriteRaster : Prop :=
  ∀ (s : State) (b : Block) (rest : List Block), BlockReady s b rest → b.bs = .s2 →
    (∀ i0 i1 i2 i3 : Byte, BlockStepIs (.pix4c i0 i1 i2 i3) 0xF7 5 s b rest fun t =>
      t.diag = s.diag ∧
        WritesRaster s t b (s.cb.get i0.toFin) (s.cb.get i1.toFin) (s.cb.get i2.toFin) (s.cb.get i3.toFin)) ∧
    (∀ p0 p1 p2 p3 : Pixel, BlockStepIs (.pix4 p0 p1 p2 p3) 0xF8 9 s b rest fun t =>
      t.diag = s.diag ∧ WritesRaster s t b p0 p1 p2 p3) ∧
    (∀ p0 p1 p2 p3 : Pixel, BlockStepIs (.pix4f p0 p1 p2 p3) 0xFF 9 s b rest fun t =>
      t.diag = s.diag ∧ WritesRaster s t b p0 p1 p2 p3)

/-- `glyphc` and `glyph` at sizes 4 and 8 (R128, R130, R75, R76): the glyph's mask in the two colours.
The order of the mask's elements is the spec's decision D6, the operand order of `glyph` D12.
What a failure leaves is the spec's decision D21; what R144 leaves unsaid of it is the model's choice (log 10, log 19),
and that the absent input is empty (log 22). -/
def Obligations.GlyphFormsDrawMask : Prop :=
  ∀ (s : State) (b : Block) (rest : List Block), BlockReady s b rest → b.bs ≠ .s2 →
    (∀ g bgi fgi : Byte, BlockStepIs (.glyphc g bgi fgi) 0xF7 4 s b rest fun t =>
      t.diag = s.diag ∧ DrawsGlyph s t b g.toFin (s.cb.get fgi.toFin) (s.cb.get bgi.toFin)) ∧
    (∀ (g : Byte) (bg fg : Pixel), BlockStepIs (.glyph g bg fg) 0xF8 6 s b rest fun t =>
      t.diag = s.diag ∧ DrawsGlyph s t b g.toFin fg bg)

/-- `fills`, `fillc` and `fill` (R131 to R133, R81): the whole block in one colour.
What a failure leaves is the spec's decision D21; what R144 leaves unsaid of it is the model's choice (log 10, log 19),
and that the absent input is empty (log 22). -/
def Obligations.FillFormsPaintBlock : Prop :=
  ∀ (s : State) (b : Block) (rest : List Block), BlockReady s b rest →
    (∀ i : Fin 4, BlockStepIs (.fills i) (BitVec.ofNat 8 (0xF9 + i.val)) 1 s b rest fun t =>
      t.diag = s.diag ∧ PaintsBlock s t b fun _ _ => s.scb.get i) ∧
    (∀ i : Byte, BlockStepIs (.fillc i) 0xFD 2 s b rest fun t =>
      t.diag = s.diag ∧ PaintsBlock s t b fun _ _ => s.cb.get i.toFin) ∧
    (∀ v : Pixel, BlockStepIs (.fill v) 0xFE 3 s b rest fun t =>
      t.diag = s.diag ∧ PaintsBlock s t b fun _ _ => v)

/-- `split` at sizes 8 and 4 (R134): the four quadrants in order in front of the other pending blocks, no pixel written.
What a failure leaves is the spec's decision D21; what R144 leaves unsaid of it is the model's choice (log 10, log 19),
and that the absent input is empty (log 22). -/
def Obligations.SplitPushesQuadrants : Prop :=
  ∀ (s : State) (b : Block) (rest : List Block), BlockReady s b rest →
    (b.bs = .s8 → 1 ≤ s.bytesLeft →
      exec .split s = .next { s with
        cx := b.cx, cy := b.cy, bs := b.bs, op := 0xFF, pos := s.pos + 1,
        pend := ⟨b.cx, b.cy, .s4⟩ :: ⟨b.cx + 4, b.cy, .s4⟩ :: ⟨b.cx, b.cy + 4, .s4⟩ ::
          ⟨b.cx + 4, b.cy + 4, .s4⟩ :: rest }) ∧
    (b.bs = .s4 → 1 ≤ s.bytesLeft →
      exec .split s = .next { s with
        cx := b.cx, cy := b.cy, bs := b.bs, op := 0xFF, pos := s.pos + 1,
        pend := ⟨b.cx, b.cy, .s2⟩ :: ⟨b.cx + 2, b.cy, .s2⟩ :: ⟨b.cx, b.cy + 2, .s2⟩ ::
          ⟨b.cx + 2, b.cy + 2, .s2⟩ :: rest }) ∧
    (b.bs ≠ .s2 → s.bytesLeft = 0 → ∃ t, exec .split s = .next t ∧ FailedWith .truncated s t)

/-- Where the engine's own instructions stop (the model's choice, log 15 and 16): outside their place in the sequence of
R99, at a block size the encoding does not have, or on a block outside the frame. -/
def Obligations.EngineInstructionsStopOutOfPlace : Prop :=
  (∀ (s : State) (i : Instr) (bs : BlockSize), i.validIn (.block bs) = true → s.phase ≠ .blocks →
    exec i s = .refused .notDecodingBlocks) ∧
  (∀ (s : State) (i : Instr) (bs : BlockSize), i.validIn (.block bs) = true → s.phase = .blocks → s.pend = [] →
    exec i s = .refused .noPendingBlock) ∧
  (∀ (s : State) (i : Instr) (bs : BlockSize) (b : Block) (rest : List Block),
    i.validIn (.block bs) = true → s.phase = .blocks → s.pend = b :: rest → i.validIn (.block b.bs) = false →
    exec i s = .refused .wrongBlockSize) ∧
  (∀ (s : State) (i : Instr) (b : Block) (rest : List Block),
    i.validIn (.block b.bs) = true → s.phase = .blocks → s.pend = b :: rest →
    (s.aw < b.cx + b.bs.toNat ∨ s.ah < b.cy + b.bs.toNat) → exec i s = .fault .blockOutsideFrame) ∧
  (∀ (s : State) (i : Instr), i.validIn .rle = true → s.phase ≠ .runs → exec i s = .refused .notDecodingRuns) ∧
  (∀ (s : State) (i : Instr), i.validIn .subcodec = true → s.phase ≠ .dispatch → exec i s = .refused .notDispatching)

/-- A glyph index of 256 or more draws nothing and is logged (R76).
The form of the record is the spec's decision D26. -/
def Obligations.GlyphIndexOutsideTableSkips : Prop :=
  ∀ (s : State) (cx cy : Nat) (bs : BlockSize) (g : Nat) (fg bg : Pixel), 256 ≤ g →
    s.drawGlyph cx cy bs g fg bg =
      { s with diag := s.diag ++ [⟨.glyphSkip, cx, cy, bs.toNat, .glyphIndex g⟩] }

/-- The top-level blocks share out the aligned frame and the quadrants of a split share out its block: every pixel is in
exactly one of them (R120, R134, R138).
R138 is the spec's own inference. -/
def Obligations.BlocksShareOutTheFrame : Prop :=
  (∀ (aw ah x y : Nat), aw % 8 = 0 → ah % 8 = 0 → x < aw → y < ah → ExactlyOneCovers (topLevelBlocks aw ah) x y) ∧
  (∀ (b : Block) (x y : Nat), b.bs ≠ .s2 →
    (blockCovers b x y = true → ExactlyOneCovers (quadrants b) x y) ∧
    (blockCovers b x y = false → ∀ q ∈ quadrants b, blockCovers q x y = false))

/-- The pixel map places the `W*H` pixels of the image at different places of the frame, and its slots are exactly its
inverse (R104).
The pixel map is the spec's decision D14. -/
def Obligations.PixelMapIsInjective : Prop :=
  ∀ (m : PixelMap) (w h aw ah : Nat), w ≤ aw → h ≤ ah →
    (∀ j, j < w * h → (pixmap m w aw j).1 < aw ∧ (pixmap m w aw j).2 < ah) ∧
    (∀ j k, j < w * h → k < w * h → pixmap m w aw j = pixmap m w aw k → j = k) ∧
    (∀ x y j, x < aw → (pixelSlot m w h aw x y = some j ↔ j < w * h ∧ pixmap m w aw j = (x, y)))

/- Reset, invariants and whole-machine rules. -/

/-- The machine before the first `init` (R19, R153): `LIFE` is UNINIT and no command runs.
That `PEND` is empty and no command waits are the model's reset values (log 3, log 2). -/
def Obligations.ResetIsUninitialised : Prop :=
  State.reset.life = .uninit ∧ State.reset.phase = .idle ∧ State.reset.pend = [] ∧ step State.reset = .next State.reset

/-- The invariant holds after reset.
The reset values behind it are the model's choice (log 3). -/
def Obligations.InvariantAtReset : Prop := State.reset.Inv

/-- Every step keeps the invariant: the memories keep their form, the dimensions stay legal and aligned (R20), the three
roles name different buffers (R27), the input exists only during a command and the cursor never passes its end (R23,
R24), the RLE count stays in its bound (R29), the
pending blocks are aligned blocks of the frame (R30, R34, R42), `STATUS` and `CAUSE` agree (R31).
What a failure and `deinit` leave inside these bounds is the model's choice (log 10, log 12), and that the absent input is
empty (log 22). -/
def Obligations.StepKeepsInvariant : Prop :=
  ∀ s t : State, s.Inv → step s = .next t → t.Inv

/-- While a command runs every step answers a next state, and the work left decreases (R95, R137).
R95 and R137 are the spec's own inferences; the steps are the model's (log 1). -/
def Obligations.RunningCommandAlwaysProgresses : Prop :=
  ∀ s : State, s.Inv → s.phase ≠ .idle → ∃ t, step s = .next t ∧ t.work < s.work

/-- Every command terminates (R159): within the work left the command ends, with `STATUS` OK or FAIL.
R159 is the spec's own inference; the steps are the model's (log 1). -/
def Obligations.EveryCommandTerminates : Prop :=
  ∀ s : State, s.Inv → s.phase ≠ .idle →
    ∃ (n : Nat) (t : State), n ≤ s.work ∧ Sys2Proof.core.run n s = .next t ∧ t.phase = .idle ∧
      (t.status = .ok ∧ t.cause = .none ∨ t.status = .fail ∧ t.cause ≠ .none)

/-- The shape of the pending list and its bound `NTOP + 6` are kept by every step (R136).
R136 is the spec's own inference; that `PEND` is empty after a failure is the model's choice (log 19). -/
def Obligations.PendingListStaysShort : Prop :=
  ∀ s t : State, s.PendShape → step s = .next t → t.PendShape ∧ t.pend.length ≤ t.ntop + 6

/-- No two pending blocks ever share a pixel, so within a frame no pixel is decoded twice (R138).
R138 is the spec's own inference; that `PEND` is empty after a failure is the model's choice (log 19, and log 12 for `deinit`). -/
def Obligations.PendingBlocksStayDisjoint : Prop :=
  ∀ s t : State, s.PendDisjoint → step s = .next t → t.PendDisjoint

/-- Subcodec 0 is an identity: the bytes of the payload are the bytes of `DST`, in pairs swapped when `DST_BYTE_ORDER`
is big, whatever the pixel map (R106, R115).
The identity is the spec's own inference in R106, the byte order of `DST` its open decision D16; that the subcodec and the
copy-out take two steps is the model's choice (log 1). -/
def Obligations.RawFrameRoundTrip : Prop :=
  ∀ s : State, s.Inv → s.phase = .dispatch → s.subc = 0 → 2 * (s.w * s.h) ≤ s.bytesLeft →
    ∃ t, Sys2Proof.core.run 2 s = .next t ∧ t.phase = .idle ∧ t.status = .ok ∧ t.cause = .none ∧
      ∀ k, k < 2 * (s.w * s.h) →
        (Config.dstByteOrder = .little → t.dst[k]? = some (s.inByte (s.pos + k))) ∧
        (Config.dstByteOrder = .big → t.dst[k]? = some (s.inByte (s.pos + (if k % 2 = 0 then k + 1 else k - 1))))

/-- While a command runs only the current buffer is written (R21, R140): every other buffer keeps every pixel, so no
block reads a pixel written in the same frame.
R140 is the spec's own inference. -/
def Obligations.RunningCommandWritesOnlyCurrentBuffer : Prop :=
  ∀ s t : State, s.phase ≠ .idle → step s = .next t → ∀ b, b ≠ s.cur → t.fb.get b = s.fb.get b

/-- While a command runs the dimensions, `LIFE` and the host's commands stay (R20), and the input too as long as the
command goes on (R23, R50); a step that ends the command ends the input (R23). Unless the command fails the header
registers and the codebooks stay (R25, R26, R28).
R50 is the spec's own inference; that the absent input is empty, and that the registers stay at the end of a successful
command, is the model's choice (log 22, log 13). -/
def Obligations.RunningCommandKeepsItsInput : Prop :=
  ∀ s t : State, s.phase ≠ .idle → step s = .next t →
    (t.phase ≠ .idle → t.inp = s.inp ∧ t.size = s.size) ∧ (t.phase = .idle → t.inp = [] ∧ t.size = 0) ∧
    t.w = s.w ∧ t.h = s.h ∧ t.aw = s.aw ∧ t.ah = s.ah ∧ t.life = s.life ∧ t.inbox = s.inbox ∧
    (t.status ≠ .fail → t.hw = s.hw ∧ t.hh = s.hh ∧ t.seq = s.seq ∧ t.subc = s.subc ∧ t.rot = s.rot ∧
      t.scb = s.scb ∧ t.bg = s.bg ∧ t.cb = s.cb)

/-- The lifecycle (R19): a step leaves UNINIT only for READY, READY only for UNINIT or, with a sticky dimension mismatch,
for FATAL, FATAL only for UNINIT.
The sticky mismatch is the spec's decision D20, the order of commands D27. -/
def Obligations.LifecycleTransitions : Prop :=
  ∀ s t : State, step s = .next t →
    (s.life = .uninit → t.life = .uninit ∨ t.life = .ready) ∧
    (s.life = .ready → t.life = .ready ∨ t.life = .uninit ∨
      (t.life = .fatal ∧ Config.dimMismatchSticky = true ∧ t.status = .fail ∧ t.cause = .dimMismatch)) ∧
    (s.life = .fatal → t.life = .fatal ∨ t.life = .uninit)

/-- The cursor never moves back during a command and never passes the end of its input (R73); every
instruction of a loop that does not fail consumes at least one byte (R137).
R73 and R137 hold the spec's own inferences; that the cursor stays at the end of a successful command is the model's
choice (log 13). -/
def Obligations.CursorOnlyAdvances : Prop :=
  ∀ s t : State, s.phase ≠ .idle → step s = .next t → t.status ≠ .fail →
    s.pos ≤ t.pos ∧ (s.pos ≤ s.size → t.pos ≤ s.size) ∧
    (s.phase = .blocks → s.pend ≠ [] → s.pos < t.pos) ∧ (s.phase = .runs → s.rleK < s.rleN → s.pos < t.pos)

/-- While a command runs the diagnostic log changes only by a block step appending one `MV_SKIP` record: no glyph is ever
skipped (R142, R147).
That no glyph is skipped is the spec's own inference in R76, the form of the log its decision D26. -/
def Obligations.DiagnosticsOnlyFromSkippedVectors : Prop :=
  ∀ s t : State, s.phase ≠ .idle → step s = .next t →
    t.diag = s.diag ∨ (s.phase = .blocks ∧ ∃ r, r.kind = .mvSkip ∧ t.diag = s.diag ++ [r])

/-- A running command that fails in a step leaves what R144 says: no rotation, the other buffers as they were, `LIFE` and
`DIAG` unchanged, `STATUS` FAIL with the cause (R143, R144, R119).
The state after a failure is the spec's decision D21; what R144 leaves unsaid of it is the model's choice (log 10,
log 19), and that the absent input is empty (log 22). -/
def Obligations.FailedStepLeavesReferences : Prop :=
  ∀ s t : State, s.phase ≠ .idle → s.status = .busy → step s = .next t → t.status = .fail → FailedWith t.cause s t

/- The frame header (30_encoding.md R53). -/

/-- The header's fields (R53): each multi-byte field is little-endian (R39), the elements of the codebooks stand one
behind the other, and the fields stand in the order of R53, apart from each other and inside the `HEADER_SIZE` bytes.
The offsets are the spec's open decision D4; that the fields stand in the listed order with the reserved bytes between
them is the model's reading of R53 (log 7). -/
def Obligations.HeaderFieldsLittleEndianInOrder : Prop :=
  (∀ bytes : List Byte,
    let at16 := fun p => (bytes.getD p 0).toNat + 256 * (bytes.getD (p + 1) 0).toNat
    let at32 := fun p => at16 p + 65536 * (bytes.getD (p + 2) 0).toNat + 16777216 * (bytes.getD (p + 3) 0).toNat
    let f := readHeader bytes
    f.hw.toNat = at32 (Config.headerOffset .hw) ∧ f.hh.toNat = at32 (Config.headerOffset .hh) ∧
    f.seq.toNat = at16 (Config.headerOffset .seq) ∧
    f.subc = bytes.getD (Config.headerOffset .subc) 0 ∧ f.rot = bytes.getD (Config.headerOffset .rot) 0 ∧
    (∀ i : Fin 4, (f.scb.get i).toNat = at16 (Config.headerOffset .scb + 2 * i.val)) ∧
    f.bg.toNat = at16 (Config.headerOffset .bg) ∧
    (∀ i : Fin 256, (f.cb.get i).toNat = at16 (Config.headerOffset .cb + 2 * i.val))) ∧
  Config.headerOffset .hw + 4 ≤ Config.headerOffset .hh ∧ Config.headerOffset .hh + 4 ≤ Config.headerOffset .seq ∧
  Config.headerOffset .seq + 2 ≤ Config.headerOffset .subc ∧ Config.headerOffset .subc + 1 ≤ Config.headerOffset .rot ∧
  Config.headerOffset .rot + 1 ≤ Config.headerOffset .scb ∧ Config.headerOffset .scb + 8 ≤ Config.headerOffset .bg ∧
  Config.headerOffset .bg + 2 ≤ Config.headerOffset .cb ∧ Config.headerOffset .cb + 512 ≤ Config.headerSize ∧
  534 ≤ Config.headerSize
end

