-- ==== Sys2Proof/Laws/State.lean ====
section
/-! SUPPORT. One lemma per field for each named update of State, true by definition; what a draw gives has none. -/

namespace Sys2Proof.Machine

@[simp] theorem State.advance_life (s : State) (n : Nat) :
    (s.advance n).life = s.life := rfl
@[simp] theorem State.advance_w (s : State) (n : Nat) :
    (s.advance n).w = s.w := rfl
@[simp] theorem State.advance_h (s : State) (n : Nat) :
    (s.advance n).h = s.h := rfl
@[simp] theorem State.advance_aw (s : State) (n : Nat) :
    (s.advance n).aw = s.aw := rfl
@[simp] theorem State.advance_ah (s : State) (n : Nat) :
    (s.advance n).ah = s.ah := rfl
@[simp] theorem State.advance_fb (s : State) (n : Nat) :
    (s.advance n).fb = s.fb := rfl
@[simp] theorem State.advance_scr (s : State) (n : Nat) :
    (s.advance n).scr = s.scr := rfl
@[simp] theorem State.advance_inp (s : State) (n : Nat) :
    (s.advance n).inp = s.inp := rfl
@[simp] theorem State.advance_size (s : State) (n : Nat) :
    (s.advance n).size = s.size := rfl
@[simp] theorem State.advance_pos (s : State) (n : Nat) :
    (s.advance n).pos = s.pos + n := rfl
@[simp] theorem State.advance_hw (s : State) (n : Nat) :
    (s.advance n).hw = s.hw := rfl
@[simp] theorem State.advance_hh (s : State) (n : Nat) :
    (s.advance n).hh = s.hh := rfl
@[simp] theorem State.advance_seq (s : State) (n : Nat) :
    (s.advance n).seq = s.seq := rfl
@[simp] theorem State.advance_subc (s : State) (n : Nat) :
    (s.advance n).subc = s.subc := rfl
@[simp] theorem State.advance_rot (s : State) (n : Nat) :
    (s.advance n).rot = s.rot := rfl
@[simp] theorem State.advance_scb (s : State) (n : Nat) :
    (s.advance n).scb = s.scb := rfl
@[simp] theorem State.advance_bg (s : State) (n : Nat) :
    (s.advance n).bg = s.bg := rfl
@[simp] theorem State.advance_cb (s : State) (n : Nat) :
    (s.advance n).cb = s.cb := rfl
@[simp] theorem State.advance_cur (s : State) (n : Nat) :
    (s.advance n).cur = s.cur := rfl
@[simp] theorem State.advance_prev (s : State) (n : Nat) :
    (s.advance n).prev = s.prev := rfl
@[simp] theorem State.advance_ref (s : State) (n : Nat) :
    (s.advance n).ref = s.ref := rfl
@[simp] theorem State.advance_rleN (s : State) (n : Nat) :
    (s.advance n).rleN = s.rleN := rfl
@[simp] theorem State.advance_rleK (s : State) (n : Nat) :
    (s.advance n).rleK = s.rleK := rfl
@[simp] theorem State.advance_rleSink (s : State) (n : Nat) :
    (s.advance n).rleSink = s.rleSink := rfl
@[simp] theorem State.advance_op (s : State) (n : Nat) :
    (s.advance n).op = s.op := rfl
@[simp] theorem State.advance_cx (s : State) (n : Nat) :
    (s.advance n).cx = s.cx := rfl
@[simp] theorem State.advance_cy (s : State) (n : Nat) :
    (s.advance n).cy = s.cy := rfl
@[simp] theorem State.advance_bs (s : State) (n : Nat) :
    (s.advance n).bs = s.bs := rfl
@[simp] theorem State.advance_pend (s : State) (n : Nat) :
    (s.advance n).pend = s.pend := rfl
@[simp] theorem State.advance_status (s : State) (n : Nat) :
    (s.advance n).status = s.status := rfl
@[simp] theorem State.advance_cause (s : State) (n : Nat) :
    (s.advance n).cause = s.cause := rfl
@[simp] theorem State.advance_diag (s : State) (n : Nat) :
    (s.advance n).diag = s.diag := rfl
@[simp] theorem State.advance_dst (s : State) (n : Nat) :
    (s.advance n).dst = s.dst := rfl
@[simp] theorem State.advance_phase (s : State) (n : Nat) :
    (s.advance n).phase = s.phase := rfl
@[simp] theorem State.advance_inbox (s : State) (n : Nat) :
    (s.advance n).inbox = s.inbox := rfl
@[simp] theorem State.advance_draws (s : State) (n : Nat) :
    (s.advance n).draws = s.draws := rfl

@[simp] theorem State.enter_life (s : State) (p : Phase) :
    (s.enter p).life = s.life := rfl
@[simp] theorem State.enter_w (s : State) (p : Phase) :
    (s.enter p).w = s.w := rfl
@[simp] theorem State.enter_h (s : State) (p : Phase) :
    (s.enter p).h = s.h := rfl
@[simp] theorem State.enter_aw (s : State) (p : Phase) :
    (s.enter p).aw = s.aw := rfl
@[simp] theorem State.enter_ah (s : State) (p : Phase) :
    (s.enter p).ah = s.ah := rfl
@[simp] theorem State.enter_fb (s : State) (p : Phase) :
    (s.enter p).fb = s.fb := rfl
@[simp] theorem State.enter_scr (s : State) (p : Phase) :
    (s.enter p).scr = s.scr := rfl
@[simp] theorem State.enter_inp (s : State) (p : Phase) :
    (s.enter p).inp = s.inp := rfl
@[simp] theorem State.enter_size (s : State) (p : Phase) :
    (s.enter p).size = s.size := rfl
@[simp] theorem State.enter_pos (s : State) (p : Phase) :
    (s.enter p).pos = s.pos := rfl
@[simp] theorem State.enter_hw (s : State) (p : Phase) :
    (s.enter p).hw = s.hw := rfl
@[simp] theorem State.enter_hh (s : State) (p : Phase) :
    (s.enter p).hh = s.hh := rfl
@[simp] theorem State.enter_seq (s : State) (p : Phase) :
    (s.enter p).seq = s.seq := rfl
@[simp] theorem State.enter_subc (s : State) (p : Phase) :
    (s.enter p).subc = s.subc := rfl
@[simp] theorem State.enter_rot (s : State) (p : Phase) :
    (s.enter p).rot = s.rot := rfl
@[simp] theorem State.enter_scb (s : State) (p : Phase) :
    (s.enter p).scb = s.scb := rfl
@[simp] theorem State.enter_bg (s : State) (p : Phase) :
    (s.enter p).bg = s.bg := rfl
@[simp] theorem State.enter_cb (s : State) (p : Phase) :
    (s.enter p).cb = s.cb := rfl
@[simp] theorem State.enter_cur (s : State) (p : Phase) :
    (s.enter p).cur = s.cur := rfl
@[simp] theorem State.enter_prev (s : State) (p : Phase) :
    (s.enter p).prev = s.prev := rfl
@[simp] theorem State.enter_ref (s : State) (p : Phase) :
    (s.enter p).ref = s.ref := rfl
@[simp] theorem State.enter_rleN (s : State) (p : Phase) :
    (s.enter p).rleN = s.rleN := rfl
@[simp] theorem State.enter_rleK (s : State) (p : Phase) :
    (s.enter p).rleK = s.rleK := rfl
@[simp] theorem State.enter_rleSink (s : State) (p : Phase) :
    (s.enter p).rleSink = s.rleSink := rfl
@[simp] theorem State.enter_op (s : State) (p : Phase) :
    (s.enter p).op = s.op := rfl
@[simp] theorem State.enter_cx (s : State) (p : Phase) :
    (s.enter p).cx = s.cx := rfl
@[simp] theorem State.enter_cy (s : State) (p : Phase) :
    (s.enter p).cy = s.cy := rfl
@[simp] theorem State.enter_bs (s : State) (p : Phase) :
    (s.enter p).bs = s.bs := rfl
@[simp] theorem State.enter_pend (s : State) (p : Phase) :
    (s.enter p).pend = s.pend := rfl
@[simp] theorem State.enter_status (s : State) (p : Phase) :
    (s.enter p).status = s.status := rfl
@[simp] theorem State.enter_cause (s : State) (p : Phase) :
    (s.enter p).cause = s.cause := rfl
@[simp] theorem State.enter_diag (s : State) (p : Phase) :
    (s.enter p).diag = s.diag := rfl
@[simp] theorem State.enter_dst (s : State) (p : Phase) :
    (s.enter p).dst = s.dst := rfl
@[simp] theorem State.enter_phase (s : State) (p : Phase) :
    (s.enter p).phase = p := rfl
@[simp] theorem State.enter_inbox (s : State) (p : Phase) :
    (s.enter p).inbox = s.inbox := rfl
@[simp] theorem State.enter_draws (s : State) (p : Phase) :
    (s.enter p).draws = s.draws := rfl

@[simp] theorem State.withPend_life (s : State) (q : List Block) :
    (s.withPend q).life = s.life := rfl
@[simp] theorem State.withPend_w (s : State) (q : List Block) :
    (s.withPend q).w = s.w := rfl
@[simp] theorem State.withPend_h (s : State) (q : List Block) :
    (s.withPend q).h = s.h := rfl
@[simp] theorem State.withPend_aw (s : State) (q : List Block) :
    (s.withPend q).aw = s.aw := rfl
@[simp] theorem State.withPend_ah (s : State) (q : List Block) :
    (s.withPend q).ah = s.ah := rfl
@[simp] theorem State.withPend_fb (s : State) (q : List Block) :
    (s.withPend q).fb = s.fb := rfl
@[simp] theorem State.withPend_scr (s : State) (q : List Block) :
    (s.withPend q).scr = s.scr := rfl
@[simp] theorem State.withPend_inp (s : State) (q : List Block) :
    (s.withPend q).inp = s.inp := rfl
@[simp] theorem State.withPend_size (s : State) (q : List Block) :
    (s.withPend q).size = s.size := rfl
@[simp] theorem State.withPend_pos (s : State) (q : List Block) :
    (s.withPend q).pos = s.pos := rfl
@[simp] theorem State.withPend_hw (s : State) (q : List Block) :
    (s.withPend q).hw = s.hw := rfl
@[simp] theorem State.withPend_hh (s : State) (q : List Block) :
    (s.withPend q).hh = s.hh := rfl
@[simp] theorem State.withPend_seq (s : State) (q : List Block) :
    (s.withPend q).seq = s.seq := rfl
@[simp] theorem State.withPend_subc (s : State) (q : List Block) :
    (s.withPend q).subc = s.subc := rfl
@[simp] theorem State.withPend_rot (s : State) (q : List Block) :
    (s.withPend q).rot = s.rot := rfl
@[simp] theorem State.withPend_scb (s : State) (q : List Block) :
    (s.withPend q).scb = s.scb := rfl
@[simp] theorem State.withPend_bg (s : State) (q : List Block) :
    (s.withPend q).bg = s.bg := rfl
@[simp] theorem State.withPend_cb (s : State) (q : List Block) :
    (s.withPend q).cb = s.cb := rfl
@[simp] theorem State.withPend_cur (s : State) (q : List Block) :
    (s.withPend q).cur = s.cur := rfl
@[simp] theorem State.withPend_prev (s : State) (q : List Block) :
    (s.withPend q).prev = s.prev := rfl
@[simp] theorem State.withPend_ref (s : State) (q : List Block) :
    (s.withPend q).ref = s.ref := rfl
@[simp] theorem State.withPend_rleN (s : State) (q : List Block) :
    (s.withPend q).rleN = s.rleN := rfl
@[simp] theorem State.withPend_rleK (s : State) (q : List Block) :
    (s.withPend q).rleK = s.rleK := rfl
@[simp] theorem State.withPend_rleSink (s : State) (q : List Block) :
    (s.withPend q).rleSink = s.rleSink := rfl
@[simp] theorem State.withPend_op (s : State) (q : List Block) :
    (s.withPend q).op = s.op := rfl
@[simp] theorem State.withPend_cx (s : State) (q : List Block) :
    (s.withPend q).cx = s.cx := rfl
@[simp] theorem State.withPend_cy (s : State) (q : List Block) :
    (s.withPend q).cy = s.cy := rfl
@[simp] theorem State.withPend_bs (s : State) (q : List Block) :
    (s.withPend q).bs = s.bs := rfl
@[simp] theorem State.withPend_pend (s : State) (q : List Block) :
    (s.withPend q).pend = q := rfl
@[simp] theorem State.withPend_status (s : State) (q : List Block) :
    (s.withPend q).status = s.status := rfl
@[simp] theorem State.withPend_cause (s : State) (q : List Block) :
    (s.withPend q).cause = s.cause := rfl
@[simp] theorem State.withPend_diag (s : State) (q : List Block) :
    (s.withPend q).diag = s.diag := rfl
@[simp] theorem State.withPend_dst (s : State) (q : List Block) :
    (s.withPend q).dst = s.dst := rfl
@[simp] theorem State.withPend_phase (s : State) (q : List Block) :
    (s.withPend q).phase = s.phase := rfl
@[simp] theorem State.withPend_inbox (s : State) (q : List Block) :
    (s.withPend q).inbox = s.inbox := rfl
@[simp] theorem State.withPend_draws (s : State) (q : List Block) :
    (s.withPend q).draws = s.draws := rfl

@[simp] theorem State.countOutput_life (s : State) (n : Nat) :
    (s.countOutput n).life = s.life := rfl
@[simp] theorem State.countOutput_w (s : State) (n : Nat) :
    (s.countOutput n).w = s.w := rfl
@[simp] theorem State.countOutput_h (s : State) (n : Nat) :
    (s.countOutput n).h = s.h := rfl
@[simp] theorem State.countOutput_aw (s : State) (n : Nat) :
    (s.countOutput n).aw = s.aw := rfl
@[simp] theorem State.countOutput_ah (s : State) (n : Nat) :
    (s.countOutput n).ah = s.ah := rfl
@[simp] theorem State.countOutput_fb (s : State) (n : Nat) :
    (s.countOutput n).fb = s.fb := rfl
@[simp] theorem State.countOutput_scr (s : State) (n : Nat) :
    (s.countOutput n).scr = s.scr := rfl
@[simp] theorem State.countOutput_inp (s : State) (n : Nat) :
    (s.countOutput n).inp = s.inp := rfl
@[simp] theorem State.countOutput_size (s : State) (n : Nat) :
    (s.countOutput n).size = s.size := rfl
@[simp] theorem State.countOutput_pos (s : State) (n : Nat) :
    (s.countOutput n).pos = s.pos := rfl
@[simp] theorem State.countOutput_hw (s : State) (n : Nat) :
    (s.countOutput n).hw = s.hw := rfl
@[simp] theorem State.countOutput_hh (s : State) (n : Nat) :
    (s.countOutput n).hh = s.hh := rfl
@[simp] theorem State.countOutput_seq (s : State) (n : Nat) :
    (s.countOutput n).seq = s.seq := rfl
@[simp] theorem State.countOutput_subc (s : State) (n : Nat) :
    (s.countOutput n).subc = s.subc := rfl
@[simp] theorem State.countOutput_rot (s : State) (n : Nat) :
    (s.countOutput n).rot = s.rot := rfl
@[simp] theorem State.countOutput_scb (s : State) (n : Nat) :
    (s.countOutput n).scb = s.scb := rfl
@[simp] theorem State.countOutput_bg (s : State) (n : Nat) :
    (s.countOutput n).bg = s.bg := rfl
@[simp] theorem State.countOutput_cb (s : State) (n : Nat) :
    (s.countOutput n).cb = s.cb := rfl
@[simp] theorem State.countOutput_cur (s : State) (n : Nat) :
    (s.countOutput n).cur = s.cur := rfl
@[simp] theorem State.countOutput_prev (s : State) (n : Nat) :
    (s.countOutput n).prev = s.prev := rfl
@[simp] theorem State.countOutput_ref (s : State) (n : Nat) :
    (s.countOutput n).ref = s.ref := rfl
@[simp] theorem State.countOutput_rleN (s : State) (n : Nat) :
    (s.countOutput n).rleN = s.rleN := rfl
@[simp] theorem State.countOutput_rleK (s : State) (n : Nat) :
    (s.countOutput n).rleK = s.rleK + n := rfl
@[simp] theorem State.countOutput_rleSink (s : State) (n : Nat) :
    (s.countOutput n).rleSink = s.rleSink := rfl
@[simp] theorem State.countOutput_op (s : State) (n : Nat) :
    (s.countOutput n).op = s.op := rfl
@[simp] theorem State.countOutput_cx (s : State) (n : Nat) :
    (s.countOutput n).cx = s.cx := rfl
@[simp] theorem State.countOutput_cy (s : State) (n : Nat) :
    (s.countOutput n).cy = s.cy := rfl
@[simp] theorem State.countOutput_bs (s : State) (n : Nat) :
    (s.countOutput n).bs = s.bs := rfl
@[simp] theorem State.countOutput_pend (s : State) (n : Nat) :
    (s.countOutput n).pend = s.pend := rfl
@[simp] theorem State.countOutput_status (s : State) (n : Nat) :
    (s.countOutput n).status = s.status := rfl
@[simp] theorem State.countOutput_cause (s : State) (n : Nat) :
    (s.countOutput n).cause = s.cause := rfl
@[simp] theorem State.countOutput_diag (s : State) (n : Nat) :
    (s.countOutput n).diag = s.diag := rfl
@[simp] theorem State.countOutput_dst (s : State) (n : Nat) :
    (s.countOutput n).dst = s.dst := rfl
@[simp] theorem State.countOutput_phase (s : State) (n : Nat) :
    (s.countOutput n).phase = s.phase := rfl
@[simp] theorem State.countOutput_inbox (s : State) (n : Nat) :
    (s.countOutput n).inbox = s.inbox := rfl
@[simp] theorem State.countOutput_draws (s : State) (n : Nat) :
    (s.countOutput n).draws = s.draws := rfl

@[simp] theorem State.withLife_life (s : State) (l : Life) :
    (s.withLife l).life = l := rfl
@[simp] theorem State.withLife_w (s : State) (l : Life) :
    (s.withLife l).w = s.w := rfl
@[simp] theorem State.withLife_h (s : State) (l : Life) :
    (s.withLife l).h = s.h := rfl
@[simp] theorem State.withLife_aw (s : State) (l : Life) :
    (s.withLife l).aw = s.aw := rfl
@[simp] theorem State.withLife_ah (s : State) (l : Life) :
    (s.withLife l).ah = s.ah := rfl
@[simp] theorem State.withLife_fb (s : State) (l : Life) :
    (s.withLife l).fb = s.fb := rfl
@[simp] theorem State.withLife_scr (s : State) (l : Life) :
    (s.withLife l).scr = s.scr := rfl
@[simp] theorem State.withLife_inp (s : State) (l : Life) :
    (s.withLife l).inp = s.inp := rfl
@[simp] theorem State.withLife_size (s : State) (l : Life) :
    (s.withLife l).size = s.size := rfl
@[simp] theorem State.withLife_pos (s : State) (l : Life) :
    (s.withLife l).pos = s.pos := rfl
@[simp] theorem State.withLife_hw (s : State) (l : Life) :
    (s.withLife l).hw = s.hw := rfl
@[simp] theorem State.withLife_hh (s : State) (l : Life) :
    (s.withLife l).hh = s.hh := rfl
@[simp] theorem State.withLife_seq (s : State) (l : Life) :
    (s.withLife l).seq = s.seq := rfl
@[simp] theorem State.withLife_subc (s : State) (l : Life) :
    (s.withLife l).subc = s.subc := rfl
@[simp] theorem State.withLife_rot (s : State) (l : Life) :
    (s.withLife l).rot = s.rot := rfl
@[simp] theorem State.withLife_scb (s : State) (l : Life) :
    (s.withLife l).scb = s.scb := rfl
@[simp] theorem State.withLife_bg (s : State) (l : Life) :
    (s.withLife l).bg = s.bg := rfl
@[simp] theorem State.withLife_cb (s : State) (l : Life) :
    (s.withLife l).cb = s.cb := rfl
@[simp] theorem State.withLife_cur (s : State) (l : Life) :
    (s.withLife l).cur = s.cur := rfl
@[simp] theorem State.withLife_prev (s : State) (l : Life) :
    (s.withLife l).prev = s.prev := rfl
@[simp] theorem State.withLife_ref (s : State) (l : Life) :
    (s.withLife l).ref = s.ref := rfl
@[simp] theorem State.withLife_rleN (s : State) (l : Life) :
    (s.withLife l).rleN = s.rleN := rfl
@[simp] theorem State.withLife_rleK (s : State) (l : Life) :
    (s.withLife l).rleK = s.rleK := rfl
@[simp] theorem State.withLife_rleSink (s : State) (l : Life) :
    (s.withLife l).rleSink = s.rleSink := rfl
@[simp] theorem State.withLife_op (s : State) (l : Life) :
    (s.withLife l).op = s.op := rfl
@[simp] theorem State.withLife_cx (s : State) (l : Life) :
    (s.withLife l).cx = s.cx := rfl
@[simp] theorem State.withLife_cy (s : State) (l : Life) :
    (s.withLife l).cy = s.cy := rfl
@[simp] theorem State.withLife_bs (s : State) (l : Life) :
    (s.withLife l).bs = s.bs := rfl
@[simp] theorem State.withLife_pend (s : State) (l : Life) :
    (s.withLife l).pend = s.pend := rfl
@[simp] theorem State.withLife_status (s : State) (l : Life) :
    (s.withLife l).status = s.status := rfl
@[simp] theorem State.withLife_cause (s : State) (l : Life) :
    (s.withLife l).cause = s.cause := rfl
@[simp] theorem State.withLife_diag (s : State) (l : Life) :
    (s.withLife l).diag = s.diag := rfl
@[simp] theorem State.withLife_dst (s : State) (l : Life) :
    (s.withLife l).dst = s.dst := rfl
@[simp] theorem State.withLife_phase (s : State) (l : Life) :
    (s.withLife l).phase = s.phase := rfl
@[simp] theorem State.withLife_inbox (s : State) (l : Life) :
    (s.withLife l).inbox = s.inbox := rfl
@[simp] theorem State.withLife_draws (s : State) (l : Life) :
    (s.withLife l).draws = s.draws := rfl

@[simp] theorem State.withDst_life (s : State) (d : List Byte) :
    (s.withDst d).life = s.life := rfl
@[simp] theorem State.withDst_w (s : State) (d : List Byte) :
    (s.withDst d).w = s.w := rfl
@[simp] theorem State.withDst_h (s : State) (d : List Byte) :
    (s.withDst d).h = s.h := rfl
@[simp] theorem State.withDst_aw (s : State) (d : List Byte) :
    (s.withDst d).aw = s.aw := rfl
@[simp] theorem State.withDst_ah (s : State) (d : List Byte) :
    (s.withDst d).ah = s.ah := rfl
@[simp] theorem State.withDst_fb (s : State) (d : List Byte) :
    (s.withDst d).fb = s.fb := rfl
@[simp] theorem State.withDst_scr (s : State) (d : List Byte) :
    (s.withDst d).scr = s.scr := rfl
@[simp] theorem State.withDst_inp (s : State) (d : List Byte) :
    (s.withDst d).inp = s.inp := rfl
@[simp] theorem State.withDst_size (s : State) (d : List Byte) :
    (s.withDst d).size = s.size := rfl
@[simp] theorem State.withDst_pos (s : State) (d : List Byte) :
    (s.withDst d).pos = s.pos := rfl
@[simp] theorem State.withDst_hw (s : State) (d : List Byte) :
    (s.withDst d).hw = s.hw := rfl
@[simp] theorem State.withDst_hh (s : State) (d : List Byte) :
    (s.withDst d).hh = s.hh := rfl
@[simp] theorem State.withDst_seq (s : State) (d : List Byte) :
    (s.withDst d).seq = s.seq := rfl
@[simp] theorem State.withDst_subc (s : State) (d : List Byte) :
    (s.withDst d).subc = s.subc := rfl
@[simp] theorem State.withDst_rot (s : State) (d : List Byte) :
    (s.withDst d).rot = s.rot := rfl
@[simp] theorem State.withDst_scb (s : State) (d : List Byte) :
    (s.withDst d).scb = s.scb := rfl
@[simp] theorem State.withDst_bg (s : State) (d : List Byte) :
    (s.withDst d).bg = s.bg := rfl
@[simp] theorem State.withDst_cb (s : State) (d : List Byte) :
    (s.withDst d).cb = s.cb := rfl
@[simp] theorem State.withDst_cur (s : State) (d : List Byte) :
    (s.withDst d).cur = s.cur := rfl
@[simp] theorem State.withDst_prev (s : State) (d : List Byte) :
    (s.withDst d).prev = s.prev := rfl
@[simp] theorem State.withDst_ref (s : State) (d : List Byte) :
    (s.withDst d).ref = s.ref := rfl
@[simp] theorem State.withDst_rleN (s : State) (d : List Byte) :
    (s.withDst d).rleN = s.rleN := rfl
@[simp] theorem State.withDst_rleK (s : State) (d : List Byte) :
    (s.withDst d).rleK = s.rleK := rfl
@[simp] theorem State.withDst_rleSink (s : State) (d : List Byte) :
    (s.withDst d).rleSink = s.rleSink := rfl
@[simp] theorem State.withDst_op (s : State) (d : List Byte) :
    (s.withDst d).op = s.op := rfl
@[simp] theorem State.withDst_cx (s : State) (d : List Byte) :
    (s.withDst d).cx = s.cx := rfl
@[simp] theorem State.withDst_cy (s : State) (d : List Byte) :
    (s.withDst d).cy = s.cy := rfl
@[simp] theorem State.withDst_bs (s : State) (d : List Byte) :
    (s.withDst d).bs = s.bs := rfl
@[simp] theorem State.withDst_pend (s : State) (d : List Byte) :
    (s.withDst d).pend = s.pend := rfl
@[simp] theorem State.withDst_status (s : State) (d : List Byte) :
    (s.withDst d).status = s.status := rfl
@[simp] theorem State.withDst_cause (s : State) (d : List Byte) :
    (s.withDst d).cause = s.cause := rfl
@[simp] theorem State.withDst_diag (s : State) (d : List Byte) :
    (s.withDst d).diag = s.diag := rfl
@[simp] theorem State.withDst_dst (s : State) (d : List Byte) :
    (s.withDst d).dst = d := rfl
@[simp] theorem State.withDst_phase (s : State) (d : List Byte) :
    (s.withDst d).phase = s.phase := rfl
@[simp] theorem State.withDst_inbox (s : State) (d : List Byte) :
    (s.withDst d).inbox = s.inbox := rfl
@[simp] theorem State.withDst_draws (s : State) (d : List Byte) :
    (s.withDst d).draws = s.draws := rfl

@[simp] theorem State.withInbox_life (s : State) (cs : List HostCommand) :
    (s.withInbox cs).life = s.life := rfl
@[simp] theorem State.withInbox_w (s : State) (cs : List HostCommand) :
    (s.withInbox cs).w = s.w := rfl
@[simp] theorem State.withInbox_h (s : State) (cs : List HostCommand) :
    (s.withInbox cs).h = s.h := rfl
@[simp] theorem State.withInbox_aw (s : State) (cs : List HostCommand) :
    (s.withInbox cs).aw = s.aw := rfl
@[simp] theorem State.withInbox_ah (s : State) (cs : List HostCommand) :
    (s.withInbox cs).ah = s.ah := rfl
@[simp] theorem State.withInbox_fb (s : State) (cs : List HostCommand) :
    (s.withInbox cs).fb = s.fb := rfl
@[simp] theorem State.withInbox_scr (s : State) (cs : List HostCommand) :
    (s.withInbox cs).scr = s.scr := rfl
@[simp] theorem State.withInbox_inp (s : State) (cs : List HostCommand) :
    (s.withInbox cs).inp = s.inp := rfl
@[simp] theorem State.withInbox_size (s : State) (cs : List HostCommand) :
    (s.withInbox cs).size = s.size := rfl
@[simp] theorem State.withInbox_pos (s : State) (cs : List HostCommand) :
    (s.withInbox cs).pos = s.pos := rfl
@[simp] theorem State.withInbox_hw (s : State) (cs : List HostCommand) :
    (s.withInbox cs).hw = s.hw := rfl
@[simp] theorem State.withInbox_hh (s : State) (cs : List HostCommand) :
    (s.withInbox cs).hh = s.hh := rfl
@[simp] theorem State.withInbox_seq (s : State) (cs : List HostCommand) :
    (s.withInbox cs).seq = s.seq := rfl
@[simp] theorem State.withInbox_subc (s : State) (cs : List HostCommand) :
    (s.withInbox cs).subc = s.subc := rfl
@[simp] theorem State.withInbox_rot (s : State) (cs : List HostCommand) :
    (s.withInbox cs).rot = s.rot := rfl
@[simp] theorem State.withInbox_scb (s : State) (cs : List HostCommand) :
    (s.withInbox cs).scb = s.scb := rfl
@[simp] theorem State.withInbox_bg (s : State) (cs : List HostCommand) :
    (s.withInbox cs).bg = s.bg := rfl
@[simp] theorem State.withInbox_cb (s : State) (cs : List HostCommand) :
    (s.withInbox cs).cb = s.cb := rfl
@[simp] theorem State.withInbox_cur (s : State) (cs : List HostCommand) :
    (s.withInbox cs).cur = s.cur := rfl
@[simp] theorem State.withInbox_prev (s : State) (cs : List HostCommand) :
    (s.withInbox cs).prev = s.prev := rfl
@[simp] theorem State.withInbox_ref (s : State) (cs : List HostCommand) :
    (s.withInbox cs).ref = s.ref := rfl
@[simp] theorem State.withInbox_rleN (s : State) (cs : List HostCommand) :
    (s.withInbox cs).rleN = s.rleN := rfl
@[simp] theorem State.withInbox_rleK (s : State) (cs : List HostCommand) :
    (s.withInbox cs).rleK = s.rleK := rfl
@[simp] theorem State.withInbox_rleSink (s : State) (cs : List HostCommand) :
    (s.withInbox cs).rleSink = s.rleSink := rfl
@[simp] theorem State.withInbox_op (s : State) (cs : List HostCommand) :
    (s.withInbox cs).op = s.op := rfl
@[simp] theorem State.withInbox_cx (s : State) (cs : List HostCommand) :
    (s.withInbox cs).cx = s.cx := rfl
@[simp] theorem State.withInbox_cy (s : State) (cs : List HostCommand) :
    (s.withInbox cs).cy = s.cy := rfl
@[simp] theorem State.withInbox_bs (s : State) (cs : List HostCommand) :
    (s.withInbox cs).bs = s.bs := rfl
@[simp] theorem State.withInbox_pend (s : State) (cs : List HostCommand) :
    (s.withInbox cs).pend = s.pend := rfl
@[simp] theorem State.withInbox_status (s : State) (cs : List HostCommand) :
    (s.withInbox cs).status = s.status := rfl
@[simp] theorem State.withInbox_cause (s : State) (cs : List HostCommand) :
    (s.withInbox cs).cause = s.cause := rfl
@[simp] theorem State.withInbox_diag (s : State) (cs : List HostCommand) :
    (s.withInbox cs).diag = s.diag := rfl
@[simp] theorem State.withInbox_dst (s : State) (cs : List HostCommand) :
    (s.withInbox cs).dst = s.dst := rfl
@[simp] theorem State.withInbox_phase (s : State) (cs : List HostCommand) :
    (s.withInbox cs).phase = s.phase := rfl
@[simp] theorem State.withInbox_inbox (s : State) (cs : List HostCommand) :
    (s.withInbox cs).inbox = cs := rfl
@[simp] theorem State.withInbox_draws (s : State) (cs : List HostCommand) :
    (s.withInbox cs).draws = s.draws := rfl

@[simp] theorem State.withoutInput_life (s : State) :
    (s.withoutInput).life = s.life := rfl
@[simp] theorem State.withoutInput_w (s : State) :
    (s.withoutInput).w = s.w := rfl
@[simp] theorem State.withoutInput_h (s : State) :
    (s.withoutInput).h = s.h := rfl
@[simp] theorem State.withoutInput_aw (s : State) :
    (s.withoutInput).aw = s.aw := rfl
@[simp] theorem State.withoutInput_ah (s : State) :
    (s.withoutInput).ah = s.ah := rfl
@[simp] theorem State.withoutInput_fb (s : State) :
    (s.withoutInput).fb = s.fb := rfl
@[simp] theorem State.withoutInput_scr (s : State) :
    (s.withoutInput).scr = s.scr := rfl
@[simp] theorem State.withoutInput_inp (s : State) :
    (s.withoutInput).inp = [] := rfl
@[simp] theorem State.withoutInput_size (s : State) :
    (s.withoutInput).size = 0 := rfl
@[simp] theorem State.withoutInput_pos (s : State) :
    (s.withoutInput).pos = s.pos := rfl
@[simp] theorem State.withoutInput_hw (s : State) :
    (s.withoutInput).hw = s.hw := rfl
@[simp] theorem State.withoutInput_hh (s : State) :
    (s.withoutInput).hh = s.hh := rfl
@[simp] theorem State.withoutInput_seq (s : State) :
    (s.withoutInput).seq = s.seq := rfl
@[simp] theorem State.withoutInput_subc (s : State) :
    (s.withoutInput).subc = s.subc := rfl
@[simp] theorem State.withoutInput_rot (s : State) :
    (s.withoutInput).rot = s.rot := rfl
@[simp] theorem State.withoutInput_scb (s : State) :
    (s.withoutInput).scb = s.scb := rfl
@[simp] theorem State.withoutInput_bg (s : State) :
    (s.withoutInput).bg = s.bg := rfl
@[simp] theorem State.withoutInput_cb (s : State) :
    (s.withoutInput).cb = s.cb := rfl
@[simp] theorem State.withoutInput_cur (s : State) :
    (s.withoutInput).cur = s.cur := rfl
@[simp] theorem State.withoutInput_prev (s : State) :
    (s.withoutInput).prev = s.prev := rfl
@[simp] theorem State.withoutInput_ref (s : State) :
    (s.withoutInput).ref = s.ref := rfl
@[simp] theorem State.withoutInput_rleN (s : State) :
    (s.withoutInput).rleN = s.rleN := rfl
@[simp] theorem State.withoutInput_rleK (s : State) :
    (s.withoutInput).rleK = s.rleK := rfl
@[simp] theorem State.withoutInput_rleSink (s : State) :
    (s.withoutInput).rleSink = s.rleSink := rfl
@[simp] theorem State.withoutInput_op (s : State) :
    (s.withoutInput).op = s.op := rfl
@[simp] theorem State.withoutInput_cx (s : State) :
    (s.withoutInput).cx = s.cx := rfl
@[simp] theorem State.withoutInput_cy (s : State) :
    (s.withoutInput).cy = s.cy := rfl
@[simp] theorem State.withoutInput_bs (s : State) :
    (s.withoutInput).bs = s.bs := rfl
@[simp] theorem State.withoutInput_pend (s : State) :
    (s.withoutInput).pend = s.pend := rfl
@[simp] theorem State.withoutInput_status (s : State) :
    (s.withoutInput).status = s.status := rfl
@[simp] theorem State.withoutInput_cause (s : State) :
    (s.withoutInput).cause = s.cause := rfl
@[simp] theorem State.withoutInput_diag (s : State) :
    (s.withoutInput).diag = s.diag := rfl
@[simp] theorem State.withoutInput_dst (s : State) :
    (s.withoutInput).dst = s.dst := rfl
@[simp] theorem State.withoutInput_phase (s : State) :
    (s.withoutInput).phase = s.phase := rfl
@[simp] theorem State.withoutInput_inbox (s : State) :
    (s.withoutInput).inbox = s.inbox := rfl
@[simp] theorem State.withoutInput_draws (s : State) :
    (s.withoutInput).draws = s.draws := rfl

@[simp] theorem State.rewrite_life (s : State) (b : BufId) (f : Nat → Nat → Pixel → Pixel) :
    (s.rewrite b f).life = s.life := rfl
@[simp] theorem State.rewrite_w (s : State) (b : BufId) (f : Nat → Nat → Pixel → Pixel) :
    (s.rewrite b f).w = s.w := rfl
@[simp] theorem State.rewrite_h (s : State) (b : BufId) (f : Nat → Nat → Pixel → Pixel) :
    (s.rewrite b f).h = s.h := rfl
@[simp] theorem State.rewrite_aw (s : State) (b : BufId) (f : Nat → Nat → Pixel → Pixel) :
    (s.rewrite b f).aw = s.aw := rfl
@[simp] theorem State.rewrite_ah (s : State) (b : BufId) (f : Nat → Nat → Pixel → Pixel) :
    (s.rewrite b f).ah = s.ah := rfl
@[simp] theorem State.rewrite_fb (s : State) (b : BufId) (f : Nat → Nat → Pixel → Pixel) :
    (s.rewrite b f).fb = s.fb.set b (rewriteBuffer s.aw f (s.fb.get b)) := rfl
@[simp] theorem State.rewrite_scr (s : State) (b : BufId) (f : Nat → Nat → Pixel → Pixel) :
    (s.rewrite b f).scr = s.scr := rfl
@[simp] theorem State.rewrite_inp (s : State) (b : BufId) (f : Nat → Nat → Pixel → Pixel) :
    (s.rewrite b f).inp = s.inp := rfl
@[simp] theorem State.rewrite_size (s : State) (b : BufId) (f : Nat → Nat → Pixel → Pixel) :
    (s.rewrite b f).size = s.size := rfl
@[simp] theorem State.rewrite_pos (s : State) (b : BufId) (f : Nat → Nat → Pixel → Pixel) :
    (s.rewrite b f).pos = s.pos := rfl
@[simp] theorem State.rewrite_hw (s : State) (b : BufId) (f : Nat → Nat → Pixel → Pixel) :
    (s.rewrite b f).hw = s.hw := rfl
@[simp] theorem State.rewrite_hh (s : State) (b : BufId) (f : Nat → Nat → Pixel → Pixel) :
    (s.rewrite b f).hh = s.hh := rfl
@[simp] theorem State.rewrite_seq (s : State) (b : BufId) (f : Nat → Nat → Pixel → Pixel) :
    (s.rewrite b f).seq = s.seq := rfl
@[simp] theorem State.rewrite_subc (s : State) (b : BufId) (f : Nat → Nat → Pixel → Pixel) :
    (s.rewrite b f).subc = s.subc := rfl
@[simp] theorem State.rewrite_rot (s : State) (b : BufId) (f : Nat → Nat → Pixel → Pixel) :
    (s.rewrite b f).rot = s.rot := rfl
@[simp] theorem State.rewrite_scb (s : State) (b : BufId) (f : Nat → Nat → Pixel → Pixel) :
    (s.rewrite b f).scb = s.scb := rfl
@[simp] theorem State.rewrite_bg (s : State) (b : BufId) (f : Nat → Nat → Pixel → Pixel) :
    (s.rewrite b f).bg = s.bg := rfl
@[simp] theorem State.rewrite_cb (s : State) (b : BufId) (f : Nat → Nat → Pixel → Pixel) :
    (s.rewrite b f).cb = s.cb := rfl
@[simp] theorem State.rewrite_cur (s : State) (b : BufId) (f : Nat → Nat → Pixel → Pixel) :
    (s.rewrite b f).cur = s.cur := rfl
@[simp] theorem State.rewrite_prev (s : State) (b : BufId) (f : Nat → Nat → Pixel → Pixel) :
    (s.rewrite b f).prev = s.prev := rfl
@[simp] theorem State.rewrite_ref (s : State) (b : BufId) (f : Nat → Nat → Pixel → Pixel) :
    (s.rewrite b f).ref = s.ref := rfl
@[simp] theorem State.rewrite_rleN (s : State) (b : BufId) (f : Nat → Nat → Pixel → Pixel) :
    (s.rewrite b f).rleN = s.rleN := rfl
@[simp] theorem State.rewrite_rleK (s : State) (b : BufId) (f : Nat → Nat → Pixel → Pixel) :
    (s.rewrite b f).rleK = s.rleK := rfl
@[simp] theorem State.rewrite_rleSink (s : State) (b : BufId) (f : Nat → Nat → Pixel → Pixel) :
    (s.rewrite b f).rleSink = s.rleSink := rfl
@[simp] theorem State.rewrite_op (s : State) (b : BufId) (f : Nat → Nat → Pixel → Pixel) :
    (s.rewrite b f).op = s.op := rfl
@[simp] theorem State.rewrite_cx (s : State) (b : BufId) (f : Nat → Nat → Pixel → Pixel) :
    (s.rewrite b f).cx = s.cx := rfl
@[simp] theorem State.rewrite_cy (s : State) (b : BufId) (f : Nat → Nat → Pixel → Pixel) :
    (s.rewrite b f).cy = s.cy := rfl
@[simp] theorem State.rewrite_bs (s : State) (b : BufId) (f : Nat → Nat → Pixel → Pixel) :
    (s.rewrite b f).bs = s.bs := rfl
@[simp] theorem State.rewrite_pend (s : State) (b : BufId) (f : Nat → Nat → Pixel → Pixel) :
    (s.rewrite b f).pend = s.pend := rfl
@[simp] theorem State.rewrite_status (s : State) (b : BufId) (f : Nat → Nat → Pixel → Pixel) :
    (s.rewrite b f).status = s.status := rfl
@[simp] theorem State.rewrite_cause (s : State) (b : BufId) (f : Nat → Nat → Pixel → Pixel) :
    (s.rewrite b f).cause = s.cause := rfl
@[simp] theorem State.rewrite_diag (s : State) (b : BufId) (f : Nat → Nat → Pixel → Pixel) :
    (s.rewrite b f).diag = s.diag := rfl
@[simp] theorem State.rewrite_dst (s : State) (b : BufId) (f : Nat → Nat → Pixel → Pixel) :
    (s.rewrite b f).dst = s.dst := rfl
@[simp] theorem State.rewrite_phase (s : State) (b : BufId) (f : Nat → Nat → Pixel → Pixel) :
    (s.rewrite b f).phase = s.phase := rfl
@[simp] theorem State.rewrite_inbox (s : State) (b : BufId) (f : Nat → Nat → Pixel → Pixel) :
    (s.rewrite b f).inbox = s.inbox := rfl
@[simp] theorem State.rewrite_draws (s : State) (b : BufId) (f : Nat → Nat → Pixel → Pixel) :
    (s.rewrite b f).draws = s.draws := rfl

@[simp] theorem State.writeBlock_life (s : State) (cx cy n : Nat) (val : Nat → Nat → Pixel) :
    (s.writeBlock cx cy n val).life = s.life := rfl
@[simp] theorem State.writeBlock_w (s : State) (cx cy n : Nat) (val : Nat → Nat → Pixel) :
    (s.writeBlock cx cy n val).w = s.w := rfl
@[simp] theorem State.writeBlock_h (s : State) (cx cy n : Nat) (val : Nat → Nat → Pixel) :
    (s.writeBlock cx cy n val).h = s.h := rfl
@[simp] theorem State.writeBlock_aw (s : State) (cx cy n : Nat) (val : Nat → Nat → Pixel) :
    (s.writeBlock cx cy n val).aw = s.aw := rfl
@[simp] theorem State.writeBlock_ah (s : State) (cx cy n : Nat) (val : Nat → Nat → Pixel) :
    (s.writeBlock cx cy n val).ah = s.ah := rfl
@[simp] theorem State.writeBlock_scr (s : State) (cx cy n : Nat) (val : Nat → Nat → Pixel) :
    (s.writeBlock cx cy n val).scr = s.scr := rfl
@[simp] theorem State.writeBlock_inp (s : State) (cx cy n : Nat) (val : Nat → Nat → Pixel) :
    (s.writeBlock cx cy n val).inp = s.inp := rfl
@[simp] theorem State.writeBlock_size (s : State) (cx cy n : Nat) (val : Nat → Nat → Pixel) :
    (s.writeBlock cx cy n val).size = s.size := rfl
@[simp] theorem State.writeBlock_pos (s : State) (cx cy n : Nat) (val : Nat → Nat → Pixel) :
    (s.writeBlock cx cy n val).pos = s.pos := rfl
@[simp] theorem State.writeBlock_hw (s : State) (cx cy n : Nat) (val : Nat → Nat → Pixel) :
    (s.writeBlock cx cy n val).hw = s.hw := rfl
@[simp] theorem State.writeBlock_hh (s : State) (cx cy n : Nat) (val : Nat → Nat → Pixel) :
    (s.writeBlock cx cy n val).hh = s.hh := rfl
@[simp] theorem State.writeBlock_seq (s : State) (cx cy n : Nat) (val : Nat → Nat → Pixel) :
    (s.writeBlock cx cy n val).seq = s.seq := rfl
@[simp] theorem State.writeBlock_subc (s : State) (cx cy n : Nat) (val : Nat → Nat → Pixel) :
    (s.writeBlock cx cy n val).subc = s.subc := rfl
@[simp] theorem State.writeBlock_rot (s : State) (cx cy n : Nat) (val : Nat → Nat → Pixel) :
    (s.writeBlock cx cy n val).rot = s.rot := rfl
@[simp] theorem State.writeBlock_scb (s : State) (cx cy n : Nat) (val : Nat → Nat → Pixel) :
    (s.writeBlock cx cy n val).scb = s.scb := rfl
@[simp] theorem State.writeBlock_bg (s : State) (cx cy n : Nat) (val : Nat → Nat → Pixel) :
    (s.writeBlock cx cy n val).bg = s.bg := rfl
@[simp] theorem State.writeBlock_cb (s : State) (cx cy n : Nat) (val : Nat → Nat → Pixel) :
    (s.writeBlock cx cy n val).cb = s.cb := rfl
@[simp] theorem State.writeBlock_cur (s : State) (cx cy n : Nat) (val : Nat → Nat → Pixel) :
    (s.writeBlock cx cy n val).cur = s.cur := rfl
@[simp] theorem State.writeBlock_prev (s : State) (cx cy n : Nat) (val : Nat → Nat → Pixel) :
    (s.writeBlock cx cy n val).prev = s.prev := rfl
@[simp] theorem State.writeBlock_ref (s : State) (cx cy n : Nat) (val : Nat → Nat → Pixel) :
    (s.writeBlock cx cy n val).ref = s.ref := rfl
@[simp] theorem State.writeBlock_rleN (s : State) (cx cy n : Nat) (val : Nat → Nat → Pixel) :
    (s.writeBlock cx cy n val).rleN = s.rleN := rfl
@[simp] theorem State.writeBlock_rleK (s : State) (cx cy n : Nat) (val : Nat → Nat → Pixel) :
    (s.writeBlock cx cy n val).rleK = s.rleK := rfl
@[simp] theorem State.writeBlock_rleSink (s : State) (cx cy n : Nat) (val : Nat → Nat → Pixel) :
    (s.writeBlock cx cy n val).rleSink = s.rleSink := rfl
@[simp] theorem State.writeBlock_op (s : State) (cx cy n : Nat) (val : Nat → Nat → Pixel) :
    (s.writeBlock cx cy n val).op = s.op := rfl
@[simp] theorem State.writeBlock_cx (s : State) (cx cy n : Nat) (val : Nat → Nat → Pixel) :
    (s.writeBlock cx cy n val).cx = s.cx := rfl
@[simp] theorem State.writeBlock_cy (s : State) (cx cy n : Nat) (val : Nat → Nat → Pixel) :
    (s.writeBlock cx cy n val).cy = s.cy := rfl
@[simp] theorem State.writeBlock_bs (s : State) (cx cy n : Nat) (val : Nat → Nat → Pixel) :
    (s.writeBlock cx cy n val).bs = s.bs := rfl
@[simp] theorem State.writeBlock_pend (s : State) (cx cy n : Nat) (val : Nat → Nat → Pixel) :
    (s.writeBlock cx cy n val).pend = s.pend := rfl
@[simp] theorem State.writeBlock_status (s : State) (cx cy n : Nat) (val : Nat → Nat → Pixel) :
    (s.writeBlock cx cy n val).status = s.status := rfl
@[simp] theorem State.writeBlock_cause (s : State) (cx cy n : Nat) (val : Nat → Nat → Pixel) :
    (s.writeBlock cx cy n val).cause = s.cause := rfl
@[simp] theorem State.writeBlock_diag (s : State) (cx cy n : Nat) (val : Nat → Nat → Pixel) :
    (s.writeBlock cx cy n val).diag = s.diag := rfl
@[simp] theorem State.writeBlock_dst (s : State) (cx cy n : Nat) (val : Nat → Nat → Pixel) :
    (s.writeBlock cx cy n val).dst = s.dst := rfl
@[simp] theorem State.writeBlock_phase (s : State) (cx cy n : Nat) (val : Nat → Nat → Pixel) :
    (s.writeBlock cx cy n val).phase = s.phase := rfl
@[simp] theorem State.writeBlock_inbox (s : State) (cx cy n : Nat) (val : Nat → Nat → Pixel) :
    (s.writeBlock cx cy n val).inbox = s.inbox := rfl
@[simp] theorem State.writeBlock_draws (s : State) (cx cy n : Nat) (val : Nat → Nat → Pixel) :
    (s.writeBlock cx cy n val).draws = s.draws := rfl

@[simp] theorem State.writeImage_life (s : State) (val : Nat → Pixel) :
    (s.writeImage val).life = s.life := rfl
@[simp] theorem State.writeImage_w (s : State) (val : Nat → Pixel) :
    (s.writeImage val).w = s.w := rfl
@[simp] theorem State.writeImage_h (s : State) (val : Nat → Pixel) :
    (s.writeImage val).h = s.h := rfl
@[simp] theorem State.writeImage_aw (s : State) (val : Nat → Pixel) :
    (s.writeImage val).aw = s.aw := rfl
@[simp] theorem State.writeImage_ah (s : State) (val : Nat → Pixel) :
    (s.writeImage val).ah = s.ah := rfl
@[simp] theorem State.writeImage_scr (s : State) (val : Nat → Pixel) :
    (s.writeImage val).scr = s.scr := rfl
@[simp] theorem State.writeImage_inp (s : State) (val : Nat → Pixel) :
    (s.writeImage val).inp = s.inp := rfl
@[simp] theorem State.writeImage_size (s : State) (val : Nat → Pixel) :
    (s.writeImage val).size = s.size := rfl
@[simp] theorem State.writeImage_pos (s : State) (val : Nat → Pixel) :
    (s.writeImage val).pos = s.pos := rfl
@[simp] theorem State.writeImage_hw (s : State) (val : Nat → Pixel) :
    (s.writeImage val).hw = s.hw := rfl
@[simp] theorem State.writeImage_hh (s : State) (val : Nat → Pixel) :
    (s.writeImage val).hh = s.hh := rfl
@[simp] theorem State.writeImage_seq (s : State) (val : Nat → Pixel) :
    (s.writeImage val).seq = s.seq := rfl
@[simp] theorem State.writeImage_subc (s : State) (val : Nat → Pixel) :
    (s.writeImage val).subc = s.subc := rfl
@[simp] theorem State.writeImage_rot (s : State) (val : Nat → Pixel) :
    (s.writeImage val).rot = s.rot := rfl
@[simp] theorem State.writeImage_scb (s : State) (val : Nat → Pixel) :
    (s.writeImage val).scb = s.scb := rfl
@[simp] theorem State.writeImage_bg (s : State) (val : Nat → Pixel) :
    (s.writeImage val).bg = s.bg := rfl
@[simp] theorem State.writeImage_cb (s : State) (val : Nat → Pixel) :
    (s.writeImage val).cb = s.cb := rfl
@[simp] theorem State.writeImage_cur (s : State) (val : Nat → Pixel) :
    (s.writeImage val).cur = s.cur := rfl
@[simp] theorem State.writeImage_prev (s : State) (val : Nat → Pixel) :
    (s.writeImage val).prev = s.prev := rfl
@[simp] theorem State.writeImage_ref (s : State) (val : Nat → Pixel) :
    (s.writeImage val).ref = s.ref := rfl
@[simp] theorem State.writeImage_rleN (s : State) (val : Nat → Pixel) :
    (s.writeImage val).rleN = s.rleN := rfl
@[simp] theorem State.writeImage_rleK (s : State) (val : Nat → Pixel) :
    (s.writeImage val).rleK = s.rleK := rfl
@[simp] theorem State.writeImage_rleSink (s : State) (val : Nat → Pixel) :
    (s.writeImage val).rleSink = s.rleSink := rfl
@[simp] theorem State.writeImage_op (s : State) (val : Nat → Pixel) :
    (s.writeImage val).op = s.op := rfl
@[simp] theorem State.writeImage_cx (s : State) (val : Nat → Pixel) :
    (s.writeImage val).cx = s.cx := rfl
@[simp] theorem State.writeImage_cy (s : State) (val : Nat → Pixel) :
    (s.writeImage val).cy = s.cy := rfl
@[simp] theorem State.writeImage_bs (s : State) (val : Nat → Pixel) :
    (s.writeImage val).bs = s.bs := rfl
@[simp] theorem State.writeImage_pend (s : State) (val : Nat → Pixel) :
    (s.writeImage val).pend = s.pend := rfl
@[simp] theorem State.writeImage_status (s : State) (val : Nat → Pixel) :
    (s.writeImage val).status = s.status := rfl
@[simp] theorem State.writeImage_cause (s : State) (val : Nat → Pixel) :
    (s.writeImage val).cause = s.cause := rfl
@[simp] theorem State.writeImage_diag (s : State) (val : Nat → Pixel) :
    (s.writeImage val).diag = s.diag := rfl
@[simp] theorem State.writeImage_dst (s : State) (val : Nat → Pixel) :
    (s.writeImage val).dst = s.dst := rfl
@[simp] theorem State.writeImage_phase (s : State) (val : Nat → Pixel) :
    (s.writeImage val).phase = s.phase := rfl
@[simp] theorem State.writeImage_inbox (s : State) (val : Nat → Pixel) :
    (s.writeImage val).inbox = s.inbox := rfl
@[simp] theorem State.writeImage_draws (s : State) (val : Nat → Pixel) :
    (s.writeImage val).draws = s.draws := rfl

@[simp] theorem State.clearFrame_life (s : State) (b : BufId) (v : Pixel) :
    (s.clearFrame b v).life = s.life := rfl
@[simp] theorem State.clearFrame_w (s : State) (b : BufId) (v : Pixel) :
    (s.clearFrame b v).w = s.w := rfl
@[simp] theorem State.clearFrame_h (s : State) (b : BufId) (v : Pixel) :
    (s.clearFrame b v).h = s.h := rfl
@[simp] theorem State.clearFrame_aw (s : State) (b : BufId) (v : Pixel) :
    (s.clearFrame b v).aw = s.aw := rfl
@[simp] theorem State.clearFrame_ah (s : State) (b : BufId) (v : Pixel) :
    (s.clearFrame b v).ah = s.ah := rfl
@[simp] theorem State.clearFrame_scr (s : State) (b : BufId) (v : Pixel) :
    (s.clearFrame b v).scr = s.scr := rfl
@[simp] theorem State.clearFrame_inp (s : State) (b : BufId) (v : Pixel) :
    (s.clearFrame b v).inp = s.inp := rfl
@[simp] theorem State.clearFrame_size (s : State) (b : BufId) (v : Pixel) :
    (s.clearFrame b v).size = s.size := rfl
@[simp] theorem State.clearFrame_pos (s : State) (b : BufId) (v : Pixel) :
    (s.clearFrame b v).pos = s.pos := rfl
@[simp] theorem State.clearFrame_hw (s : State) (b : BufId) (v : Pixel) :
    (s.clearFrame b v).hw = s.hw := rfl
@[simp] theorem State.clearFrame_hh (s : State) (b : BufId) (v : Pixel) :
    (s.clearFrame b v).hh = s.hh := rfl
@[simp] theorem State.clearFrame_seq (s : State) (b : BufId) (v : Pixel) :
    (s.clearFrame b v).seq = s.seq := rfl
@[simp] theorem State.clearFrame_subc (s : State) (b : BufId) (v : Pixel) :
    (s.clearFrame b v).subc = s.subc := rfl
@[simp] theorem State.clearFrame_rot (s : State) (b : BufId) (v : Pixel) :
    (s.clearFrame b v).rot = s.rot := rfl
@[simp] theorem State.clearFrame_scb (s : State) (b : BufId) (v : Pixel) :
    (s.clearFrame b v).scb = s.scb := rfl
@[simp] theorem State.clearFrame_bg (s : State) (b : BufId) (v : Pixel) :
    (s.clearFrame b v).bg = s.bg := rfl
@[simp] theorem State.clearFrame_cb (s : State) (b : BufId) (v : Pixel) :
    (s.clearFrame b v).cb = s.cb := rfl
@[simp] theorem State.clearFrame_cur (s : State) (b : BufId) (v : Pixel) :
    (s.clearFrame b v).cur = s.cur := rfl
@[simp] theorem State.clearFrame_prev (s : State) (b : BufId) (v : Pixel) :
    (s.clearFrame b v).prev = s.prev := rfl
@[simp] theorem State.clearFrame_ref (s : State) (b : BufId) (v : Pixel) :
    (s.clearFrame b v).ref = s.ref := rfl
@[simp] theorem State.clearFrame_rleN (s : State) (b : BufId) (v : Pixel) :
    (s.clearFrame b v).rleN = s.rleN := rfl
@[simp] theorem State.clearFrame_rleK (s : State) (b : BufId) (v : Pixel) :
    (s.clearFrame b v).rleK = s.rleK := rfl
@[simp] theorem State.clearFrame_rleSink (s : State) (b : BufId) (v : Pixel) :
    (s.clearFrame b v).rleSink = s.rleSink := rfl
@[simp] theorem State.clearFrame_op (s : State) (b : BufId) (v : Pixel) :
    (s.clearFrame b v).op = s.op := rfl
@[simp] theorem State.clearFrame_cx (s : State) (b : BufId) (v : Pixel) :
    (s.clearFrame b v).cx = s.cx := rfl
@[simp] theorem State.clearFrame_cy (s : State) (b : BufId) (v : Pixel) :
    (s.clearFrame b v).cy = s.cy := rfl
@[simp] theorem State.clearFrame_bs (s : State) (b : BufId) (v : Pixel) :
    (s.clearFrame b v).bs = s.bs := rfl
@[simp] theorem State.clearFrame_pend (s : State) (b : BufId) (v : Pixel) :
    (s.clearFrame b v).pend = s.pend := rfl
@[simp] theorem State.clearFrame_status (s : State) (b : BufId) (v : Pixel) :
    (s.clearFrame b v).status = s.status := rfl
@[simp] theorem State.clearFrame_cause (s : State) (b : BufId) (v : Pixel) :
    (s.clearFrame b v).cause = s.cause := rfl
@[simp] theorem State.clearFrame_diag (s : State) (b : BufId) (v : Pixel) :
    (s.clearFrame b v).diag = s.diag := rfl
@[simp] theorem State.clearFrame_dst (s : State) (b : BufId) (v : Pixel) :
    (s.clearFrame b v).dst = s.dst := rfl
@[simp] theorem State.clearFrame_phase (s : State) (b : BufId) (v : Pixel) :
    (s.clearFrame b v).phase = s.phase := rfl
@[simp] theorem State.clearFrame_inbox (s : State) (b : BufId) (v : Pixel) :
    (s.clearFrame b v).inbox = s.inbox := rfl
@[simp] theorem State.clearFrame_draws (s : State) (b : BufId) (v : Pixel) :
    (s.clearFrame b v).draws = s.draws := rfl

@[simp] theorem State.copyFrame_life (s : State) (src : BufId) :
    (s.copyFrame src).life = s.life := rfl
@[simp] theorem State.copyFrame_w (s : State) (src : BufId) :
    (s.copyFrame src).w = s.w := rfl
@[simp] theorem State.copyFrame_h (s : State) (src : BufId) :
    (s.copyFrame src).h = s.h := rfl
@[simp] theorem State.copyFrame_aw (s : State) (src : BufId) :
    (s.copyFrame src).aw = s.aw := rfl
@[simp] theorem State.copyFrame_ah (s : State) (src : BufId) :
    (s.copyFrame src).ah = s.ah := rfl
@[simp] theorem State.copyFrame_scr (s : State) (src : BufId) :
    (s.copyFrame src).scr = s.scr := rfl
@[simp] theorem State.copyFrame_inp (s : State) (src : BufId) :
    (s.copyFrame src).inp = s.inp := rfl
@[simp] theorem State.copyFrame_size (s : State) (src : BufId) :
    (s.copyFrame src).size = s.size := rfl
@[simp] theorem State.copyFrame_pos (s : State) (src : BufId) :
    (s.copyFrame src).pos = s.pos := rfl
@[simp] theorem State.copyFrame_hw (s : State) (src : BufId) :
    (s.copyFrame src).hw = s.hw := rfl
@[simp] theorem State.copyFrame_hh (s : State) (src : BufId) :
    (s.copyFrame src).hh = s.hh := rfl
@[simp] theorem State.copyFrame_seq (s : State) (src : BufId) :
    (s.copyFrame src).seq = s.seq := rfl
@[simp] theorem State.copyFrame_subc (s : State) (src : BufId) :
    (s.copyFrame src).subc = s.subc := rfl
@[simp] theorem State.copyFrame_rot (s : State) (src : BufId) :
    (s.copyFrame src).rot = s.rot := rfl
@[simp] theorem State.copyFrame_scb (s : State) (src : BufId) :
    (s.copyFrame src).scb = s.scb := rfl
@[simp] theorem State.copyFrame_bg (s : State) (src : BufId) :
    (s.copyFrame src).bg = s.bg := rfl
@[simp] theorem State.copyFrame_cb (s : State) (src : BufId) :
    (s.copyFrame src).cb = s.cb := rfl
@[simp] theorem State.copyFrame_cur (s : State) (src : BufId) :
    (s.copyFrame src).cur = s.cur := rfl
@[simp] theorem State.copyFrame_prev (s : State) (src : BufId) :
    (s.copyFrame src).prev = s.prev := rfl
@[simp] theorem State.copyFrame_ref (s : State) (src : BufId) :
    (s.copyFrame src).ref = s.ref := rfl
@[simp] theorem State.copyFrame_rleN (s : State) (src : BufId) :
    (s.copyFrame src).rleN = s.rleN := rfl
@[simp] theorem State.copyFrame_rleK (s : State) (src : BufId) :
    (s.copyFrame src).rleK = s.rleK := rfl
@[simp] theorem State.copyFrame_rleSink (s : State) (src : BufId) :
    (s.copyFrame src).rleSink = s.rleSink := rfl
@[simp] theorem State.copyFrame_op (s : State) (src : BufId) :
    (s.copyFrame src).op = s.op := rfl
@[simp] theorem State.copyFrame_cx (s : State) (src : BufId) :
    (s.copyFrame src).cx = s.cx := rfl
@[simp] theorem State.copyFrame_cy (s : State) (src : BufId) :
    (s.copyFrame src).cy = s.cy := rfl
@[simp] theorem State.copyFrame_bs (s : State) (src : BufId) :
    (s.copyFrame src).bs = s.bs := rfl
@[simp] theorem State.copyFrame_pend (s : State) (src : BufId) :
    (s.copyFrame src).pend = s.pend := rfl
@[simp] theorem State.copyFrame_status (s : State) (src : BufId) :
    (s.copyFrame src).status = s.status := rfl
@[simp] theorem State.copyFrame_cause (s : State) (src : BufId) :
    (s.copyFrame src).cause = s.cause := rfl
@[simp] theorem State.copyFrame_diag (s : State) (src : BufId) :
    (s.copyFrame src).diag = s.diag := rfl
@[simp] theorem State.copyFrame_dst (s : State) (src : BufId) :
    (s.copyFrame src).dst = s.dst := rfl
@[simp] theorem State.copyFrame_phase (s : State) (src : BufId) :
    (s.copyFrame src).phase = s.phase := rfl
@[simp] theorem State.copyFrame_inbox (s : State) (src : BufId) :
    (s.copyFrame src).inbox = s.inbox := rfl
@[simp] theorem State.copyFrame_draws (s : State) (src : BufId) :
    (s.copyFrame src).draws = s.draws := rfl

@[simp] theorem State.emitDiag_life (s : State) (r : DiagRecord) :
    (s.emitDiag r).life = s.life := rfl
@[simp] theorem State.emitDiag_w (s : State) (r : DiagRecord) :
    (s.emitDiag r).w = s.w := rfl
@[simp] theorem State.emitDiag_h (s : State) (r : DiagRecord) :
    (s.emitDiag r).h = s.h := rfl
@[simp] theorem State.emitDiag_aw (s : State) (r : DiagRecord) :
    (s.emitDiag r).aw = s.aw := rfl
@[simp] theorem State.emitDiag_ah (s : State) (r : DiagRecord) :
    (s.emitDiag r).ah = s.ah := rfl
@[simp] theorem State.emitDiag_fb (s : State) (r : DiagRecord) :
    (s.emitDiag r).fb = s.fb := rfl
@[simp] theorem State.emitDiag_scr (s : State) (r : DiagRecord) :
    (s.emitDiag r).scr = s.scr := rfl
@[simp] theorem State.emitDiag_inp (s : State) (r : DiagRecord) :
    (s.emitDiag r).inp = s.inp := rfl
@[simp] theorem State.emitDiag_size (s : State) (r : DiagRecord) :
    (s.emitDiag r).size = s.size := rfl
@[simp] theorem State.emitDiag_pos (s : State) (r : DiagRecord) :
    (s.emitDiag r).pos = s.pos := rfl
@[simp] theorem State.emitDiag_hw (s : State) (r : DiagRecord) :
    (s.emitDiag r).hw = s.hw := rfl
@[simp] theorem State.emitDiag_hh (s : State) (r : DiagRecord) :
    (s.emitDiag r).hh = s.hh := rfl
@[simp] theorem State.emitDiag_seq (s : State) (r : DiagRecord) :
    (s.emitDiag r).seq = s.seq := rfl
@[simp] theorem State.emitDiag_subc (s : State) (r : DiagRecord) :
    (s.emitDiag r).subc = s.subc := rfl
@[simp] theorem State.emitDiag_rot (s : State) (r : DiagRecord) :
    (s.emitDiag r).rot = s.rot := rfl
@[simp] theorem State.emitDiag_scb (s : State) (r : DiagRecord) :
    (s.emitDiag r).scb = s.scb := rfl
@[simp] theorem State.emitDiag_bg (s : State) (r : DiagRecord) :
    (s.emitDiag r).bg = s.bg := rfl
@[simp] theorem State.emitDiag_cb (s : State) (r : DiagRecord) :
    (s.emitDiag r).cb = s.cb := rfl
@[simp] theorem State.emitDiag_cur (s : State) (r : DiagRecord) :
    (s.emitDiag r).cur = s.cur := rfl
@[simp] theorem State.emitDiag_prev (s : State) (r : DiagRecord) :
    (s.emitDiag r).prev = s.prev := rfl
@[simp] theorem State.emitDiag_ref (s : State) (r : DiagRecord) :
    (s.emitDiag r).ref = s.ref := rfl
@[simp] theorem State.emitDiag_rleN (s : State) (r : DiagRecord) :
    (s.emitDiag r).rleN = s.rleN := rfl
@[simp] theorem State.emitDiag_rleK (s : State) (r : DiagRecord) :
    (s.emitDiag r).rleK = s.rleK := rfl
@[simp] theorem State.emitDiag_rleSink (s : State) (r : DiagRecord) :
    (s.emitDiag r).rleSink = s.rleSink := rfl
@[simp] theorem State.emitDiag_op (s : State) (r : DiagRecord) :
    (s.emitDiag r).op = s.op := rfl
@[simp] theorem State.emitDiag_cx (s : State) (r : DiagRecord) :
    (s.emitDiag r).cx = s.cx := rfl
@[simp] theorem State.emitDiag_cy (s : State) (r : DiagRecord) :
    (s.emitDiag r).cy = s.cy := rfl
@[simp] theorem State.emitDiag_bs (s : State) (r : DiagRecord) :
    (s.emitDiag r).bs = s.bs := rfl
@[simp] theorem State.emitDiag_pend (s : State) (r : DiagRecord) :
    (s.emitDiag r).pend = s.pend := rfl
@[simp] theorem State.emitDiag_status (s : State) (r : DiagRecord) :
    (s.emitDiag r).status = s.status := rfl
@[simp] theorem State.emitDiag_cause (s : State) (r : DiagRecord) :
    (s.emitDiag r).cause = s.cause := rfl
@[simp] theorem State.emitDiag_diag (s : State) (r : DiagRecord) :
    (s.emitDiag r).diag = s.diag ++ [r] := rfl
@[simp] theorem State.emitDiag_dst (s : State) (r : DiagRecord) :
    (s.emitDiag r).dst = s.dst := rfl
@[simp] theorem State.emitDiag_phase (s : State) (r : DiagRecord) :
    (s.emitDiag r).phase = s.phase := rfl
@[simp] theorem State.emitDiag_inbox (s : State) (r : DiagRecord) :
    (s.emitDiag r).inbox = s.inbox := rfl
@[simp] theorem State.emitDiag_draws (s : State) (r : DiagRecord) :
    (s.emitDiag r).draws = s.draws := rfl

@[simp] theorem State.takeBlock_life (s : State) (b : Block) (rest : List Block) (op : Byte) :
    (s.takeBlock b rest op).life = s.life := rfl
@[simp] theorem State.takeBlock_w (s : State) (b : Block) (rest : List Block) (op : Byte) :
    (s.takeBlock b rest op).w = s.w := rfl
@[simp] theorem State.takeBlock_h (s : State) (b : Block) (rest : List Block) (op : Byte) :
    (s.takeBlock b rest op).h = s.h := rfl
@[simp] theorem State.takeBlock_aw (s : State) (b : Block) (rest : List Block) (op : Byte) :
    (s.takeBlock b rest op).aw = s.aw := rfl
@[simp] theorem State.takeBlock_ah (s : State) (b : Block) (rest : List Block) (op : Byte) :
    (s.takeBlock b rest op).ah = s.ah := rfl
@[simp] theorem State.takeBlock_fb (s : State) (b : Block) (rest : List Block) (op : Byte) :
    (s.takeBlock b rest op).fb = s.fb := rfl
@[simp] theorem State.takeBlock_scr (s : State) (b : Block) (rest : List Block) (op : Byte) :
    (s.takeBlock b rest op).scr = s.scr := rfl
@[simp] theorem State.takeBlock_inp (s : State) (b : Block) (rest : List Block) (op : Byte) :
    (s.takeBlock b rest op).inp = s.inp := rfl
@[simp] theorem State.takeBlock_size (s : State) (b : Block) (rest : List Block) (op : Byte) :
    (s.takeBlock b rest op).size = s.size := rfl
@[simp] theorem State.takeBlock_pos (s : State) (b : Block) (rest : List Block) (op : Byte) :
    (s.takeBlock b rest op).pos = s.pos := rfl
@[simp] theorem State.takeBlock_hw (s : State) (b : Block) (rest : List Block) (op : Byte) :
    (s.takeBlock b rest op).hw = s.hw := rfl
@[simp] theorem State.takeBlock_hh (s : State) (b : Block) (rest : List Block) (op : Byte) :
    (s.takeBlock b rest op).hh = s.hh := rfl
@[simp] theorem State.takeBlock_seq (s : State) (b : Block) (rest : List Block) (op : Byte) :
    (s.takeBlock b rest op).seq = s.seq := rfl
@[simp] theorem State.takeBlock_subc (s : State) (b : Block) (rest : List Block) (op : Byte) :
    (s.takeBlock b rest op).subc = s.subc := rfl
@[simp] theorem State.takeBlock_rot (s : State) (b : Block) (rest : List Block) (op : Byte) :
    (s.takeBlock b rest op).rot = s.rot := rfl
@[simp] theorem State.takeBlock_scb (s : State) (b : Block) (rest : List Block) (op : Byte) :
    (s.takeBlock b rest op).scb = s.scb := rfl
@[simp] theorem State.takeBlock_bg (s : State) (b : Block) (rest : List Block) (op : Byte) :
    (s.takeBlock b rest op).bg = s.bg := rfl
@[simp] theorem State.takeBlock_cb (s : State) (b : Block) (rest : List Block) (op : Byte) :
    (s.takeBlock b rest op).cb = s.cb := rfl
@[simp] theorem State.takeBlock_cur (s : State) (b : Block) (rest : List Block) (op : Byte) :
    (s.takeBlock b rest op).cur = s.cur := rfl
@[simp] theorem State.takeBlock_prev (s : State) (b : Block) (rest : List Block) (op : Byte) :
    (s.takeBlock b rest op).prev = s.prev := rfl
@[simp] theorem State.takeBlock_ref (s : State) (b : Block) (rest : List Block) (op : Byte) :
    (s.takeBlock b rest op).ref = s.ref := rfl
@[simp] theorem State.takeBlock_rleN (s : State) (b : Block) (rest : List Block) (op : Byte) :
    (s.takeBlock b rest op).rleN = s.rleN := rfl
@[simp] theorem State.takeBlock_rleK (s : State) (b : Block) (rest : List Block) (op : Byte) :
    (s.takeBlock b rest op).rleK = s.rleK := rfl
@[simp] theorem State.takeBlock_rleSink (s : State) (b : Block) (rest : List Block) (op : Byte) :
    (s.takeBlock b rest op).rleSink = s.rleSink := rfl
@[simp] theorem State.takeBlock_op (s : State) (b : Block) (rest : List Block) (op : Byte) :
    (s.takeBlock b rest op).op = op := rfl
@[simp] theorem State.takeBlock_cx (s : State) (b : Block) (rest : List Block) (op : Byte) :
    (s.takeBlock b rest op).cx = b.cx := rfl
@[simp] theorem State.takeBlock_cy (s : State) (b : Block) (rest : List Block) (op : Byte) :
    (s.takeBlock b rest op).cy = b.cy := rfl
@[simp] theorem State.takeBlock_bs (s : State) (b : Block) (rest : List Block) (op : Byte) :
    (s.takeBlock b rest op).bs = b.bs := rfl
@[simp] theorem State.takeBlock_pend (s : State) (b : Block) (rest : List Block) (op : Byte) :
    (s.takeBlock b rest op).pend = rest := rfl
@[simp] theorem State.takeBlock_status (s : State) (b : Block) (rest : List Block) (op : Byte) :
    (s.takeBlock b rest op).status = s.status := rfl
@[simp] theorem State.takeBlock_cause (s : State) (b : Block) (rest : List Block) (op : Byte) :
    (s.takeBlock b rest op).cause = s.cause := rfl
@[simp] theorem State.takeBlock_diag (s : State) (b : Block) (rest : List Block) (op : Byte) :
    (s.takeBlock b rest op).diag = s.diag := rfl
@[simp] theorem State.takeBlock_dst (s : State) (b : Block) (rest : List Block) (op : Byte) :
    (s.takeBlock b rest op).dst = s.dst := rfl
@[simp] theorem State.takeBlock_phase (s : State) (b : Block) (rest : List Block) (op : Byte) :
    (s.takeBlock b rest op).phase = s.phase := rfl
@[simp] theorem State.takeBlock_inbox (s : State) (b : Block) (rest : List Block) (op : Byte) :
    (s.takeBlock b rest op).inbox = s.inbox := rfl
@[simp] theorem State.takeBlock_draws (s : State) (b : Block) (rest : List Block) (op : Byte) :
    (s.takeBlock b rest op).draws = s.draws := rfl

@[simp] theorem State.pushQuadrants_life (s : State) :
    (s.pushQuadrants).life = s.life := rfl
@[simp] theorem State.pushQuadrants_w (s : State) :
    (s.pushQuadrants).w = s.w := rfl
@[simp] theorem State.pushQuadrants_h (s : State) :
    (s.pushQuadrants).h = s.h := rfl
@[simp] theorem State.pushQuadrants_aw (s : State) :
    (s.pushQuadrants).aw = s.aw := rfl
@[simp] theorem State.pushQuadrants_ah (s : State) :
    (s.pushQuadrants).ah = s.ah := rfl
@[simp] theorem State.pushQuadrants_fb (s : State) :
    (s.pushQuadrants).fb = s.fb := rfl
@[simp] theorem State.pushQuadrants_scr (s : State) :
    (s.pushQuadrants).scr = s.scr := rfl
@[simp] theorem State.pushQuadrants_inp (s : State) :
    (s.pushQuadrants).inp = s.inp := rfl
@[simp] theorem State.pushQuadrants_size (s : State) :
    (s.pushQuadrants).size = s.size := rfl
@[simp] theorem State.pushQuadrants_pos (s : State) :
    (s.pushQuadrants).pos = s.pos := rfl
@[simp] theorem State.pushQuadrants_hw (s : State) :
    (s.pushQuadrants).hw = s.hw := rfl
@[simp] theorem State.pushQuadrants_hh (s : State) :
    (s.pushQuadrants).hh = s.hh := rfl
@[simp] theorem State.pushQuadrants_seq (s : State) :
    (s.pushQuadrants).seq = s.seq := rfl
@[simp] theorem State.pushQuadrants_subc (s : State) :
    (s.pushQuadrants).subc = s.subc := rfl
@[simp] theorem State.pushQuadrants_rot (s : State) :
    (s.pushQuadrants).rot = s.rot := rfl
@[simp] theorem State.pushQuadrants_scb (s : State) :
    (s.pushQuadrants).scb = s.scb := rfl
@[simp] theorem State.pushQuadrants_bg (s : State) :
    (s.pushQuadrants).bg = s.bg := rfl
@[simp] theorem State.pushQuadrants_cb (s : State) :
    (s.pushQuadrants).cb = s.cb := rfl
@[simp] theorem State.pushQuadrants_cur (s : State) :
    (s.pushQuadrants).cur = s.cur := rfl
@[simp] theorem State.pushQuadrants_prev (s : State) :
    (s.pushQuadrants).prev = s.prev := rfl
@[simp] theorem State.pushQuadrants_ref (s : State) :
    (s.pushQuadrants).ref = s.ref := rfl
@[simp] theorem State.pushQuadrants_rleN (s : State) :
    (s.pushQuadrants).rleN = s.rleN := rfl
@[simp] theorem State.pushQuadrants_rleK (s : State) :
    (s.pushQuadrants).rleK = s.rleK := rfl
@[simp] theorem State.pushQuadrants_rleSink (s : State) :
    (s.pushQuadrants).rleSink = s.rleSink := rfl
@[simp] theorem State.pushQuadrants_op (s : State) :
    (s.pushQuadrants).op = s.op := rfl
@[simp] theorem State.pushQuadrants_cx (s : State) :
    (s.pushQuadrants).cx = s.cx := rfl
@[simp] theorem State.pushQuadrants_cy (s : State) :
    (s.pushQuadrants).cy = s.cy := rfl
@[simp] theorem State.pushQuadrants_bs (s : State) :
    (s.pushQuadrants).bs = s.bs := rfl
@[simp] theorem State.pushQuadrants_pend (s : State) :
    (s.pushQuadrants).pend = quadrants ⟨s.cx, s.cy, s.bs⟩ ++ s.pend := rfl
@[simp] theorem State.pushQuadrants_status (s : State) :
    (s.pushQuadrants).status = s.status := rfl
@[simp] theorem State.pushQuadrants_cause (s : State) :
    (s.pushQuadrants).cause = s.cause := rfl
@[simp] theorem State.pushQuadrants_diag (s : State) :
    (s.pushQuadrants).diag = s.diag := rfl
@[simp] theorem State.pushQuadrants_dst (s : State) :
    (s.pushQuadrants).dst = s.dst := rfl
@[simp] theorem State.pushQuadrants_phase (s : State) :
    (s.pushQuadrants).phase = s.phase := rfl
@[simp] theorem State.pushQuadrants_inbox (s : State) :
    (s.pushQuadrants).inbox = s.inbox := rfl
@[simp] theorem State.pushQuadrants_draws (s : State) :
    (s.pushQuadrants).draws = s.draws := rfl

@[simp] theorem State.beginStatus_life (s : State) :
    (s.beginStatus).life = s.life := rfl
@[simp] theorem State.beginStatus_w (s : State) :
    (s.beginStatus).w = s.w := rfl
@[simp] theorem State.beginStatus_h (s : State) :
    (s.beginStatus).h = s.h := rfl
@[simp] theorem State.beginStatus_aw (s : State) :
    (s.beginStatus).aw = s.aw := rfl
@[simp] theorem State.beginStatus_ah (s : State) :
    (s.beginStatus).ah = s.ah := rfl
@[simp] theorem State.beginStatus_fb (s : State) :
    (s.beginStatus).fb = s.fb := rfl
@[simp] theorem State.beginStatus_scr (s : State) :
    (s.beginStatus).scr = s.scr := rfl
@[simp] theorem State.beginStatus_inp (s : State) :
    (s.beginStatus).inp = s.inp := rfl
@[simp] theorem State.beginStatus_size (s : State) :
    (s.beginStatus).size = s.size := rfl
@[simp] theorem State.beginStatus_pos (s : State) :
    (s.beginStatus).pos = s.pos := rfl
@[simp] theorem State.beginStatus_hw (s : State) :
    (s.beginStatus).hw = s.hw := rfl
@[simp] theorem State.beginStatus_hh (s : State) :
    (s.beginStatus).hh = s.hh := rfl
@[simp] theorem State.beginStatus_seq (s : State) :
    (s.beginStatus).seq = s.seq := rfl
@[simp] theorem State.beginStatus_subc (s : State) :
    (s.beginStatus).subc = s.subc := rfl
@[simp] theorem State.beginStatus_rot (s : State) :
    (s.beginStatus).rot = s.rot := rfl
@[simp] theorem State.beginStatus_scb (s : State) :
    (s.beginStatus).scb = s.scb := rfl
@[simp] theorem State.beginStatus_bg (s : State) :
    (s.beginStatus).bg = s.bg := rfl
@[simp] theorem State.beginStatus_cb (s : State) :
    (s.beginStatus).cb = s.cb := rfl
@[simp] theorem State.beginStatus_cur (s : State) :
    (s.beginStatus).cur = s.cur := rfl
@[simp] theorem State.beginStatus_prev (s : State) :
    (s.beginStatus).prev = s.prev := rfl
@[simp] theorem State.beginStatus_ref (s : State) :
    (s.beginStatus).ref = s.ref := rfl
@[simp] theorem State.beginStatus_rleN (s : State) :
    (s.beginStatus).rleN = s.rleN := rfl
@[simp] theorem State.beginStatus_rleK (s : State) :
    (s.beginStatus).rleK = s.rleK := rfl
@[simp] theorem State.beginStatus_rleSink (s : State) :
    (s.beginStatus).rleSink = s.rleSink := rfl
@[simp] theorem State.beginStatus_op (s : State) :
    (s.beginStatus).op = s.op := rfl
@[simp] theorem State.beginStatus_cx (s : State) :
    (s.beginStatus).cx = s.cx := rfl
@[simp] theorem State.beginStatus_cy (s : State) :
    (s.beginStatus).cy = s.cy := rfl
@[simp] theorem State.beginStatus_bs (s : State) :
    (s.beginStatus).bs = s.bs := rfl
@[simp] theorem State.beginStatus_pend (s : State) :
    (s.beginStatus).pend = s.pend := rfl
@[simp] theorem State.beginStatus_status (s : State) :
    (s.beginStatus).status = .busy := rfl
@[simp] theorem State.beginStatus_cause (s : State) :
    (s.beginStatus).cause = .none := rfl
@[simp] theorem State.beginStatus_diag (s : State) :
    (s.beginStatus).diag = [] := rfl
@[simp] theorem State.beginStatus_dst (s : State) :
    (s.beginStatus).dst = s.dst := rfl
@[simp] theorem State.beginStatus_phase (s : State) :
    (s.beginStatus).phase = s.phase := rfl
@[simp] theorem State.beginStatus_inbox (s : State) :
    (s.beginStatus).inbox = s.inbox := rfl
@[simp] theorem State.beginStatus_draws (s : State) :
    (s.beginStatus).draws = s.draws := rfl

@[simp] theorem State.okStatus_life (s : State) :
    (s.okStatus).life = s.life := rfl
@[simp] theorem State.okStatus_w (s : State) :
    (s.okStatus).w = s.w := rfl
@[simp] theorem State.okStatus_h (s : State) :
    (s.okStatus).h = s.h := rfl
@[simp] theorem State.okStatus_aw (s : State) :
    (s.okStatus).aw = s.aw := rfl
@[simp] theorem State.okStatus_ah (s : State) :
    (s.okStatus).ah = s.ah := rfl
@[simp] theorem State.okStatus_fb (s : State) :
    (s.okStatus).fb = s.fb := rfl
@[simp] theorem State.okStatus_scr (s : State) :
    (s.okStatus).scr = s.scr := rfl
@[simp] theorem State.okStatus_inp (s : State) :
    (s.okStatus).inp = s.inp := rfl
@[simp] theorem State.okStatus_size (s : State) :
    (s.okStatus).size = s.size := rfl
@[simp] theorem State.okStatus_pos (s : State) :
    (s.okStatus).pos = s.pos := rfl
@[simp] theorem State.okStatus_hw (s : State) :
    (s.okStatus).hw = s.hw := rfl
@[simp] theorem State.okStatus_hh (s : State) :
    (s.okStatus).hh = s.hh := rfl
@[simp] theorem State.okStatus_seq (s : State) :
    (s.okStatus).seq = s.seq := rfl
@[simp] theorem State.okStatus_subc (s : State) :
    (s.okStatus).subc = s.subc := rfl
@[simp] theorem State.okStatus_rot (s : State) :
    (s.okStatus).rot = s.rot := rfl
@[simp] theorem State.okStatus_scb (s : State) :
    (s.okStatus).scb = s.scb := rfl
@[simp] theorem State.okStatus_bg (s : State) :
    (s.okStatus).bg = s.bg := rfl
@[simp] theorem State.okStatus_cb (s : State) :
    (s.okStatus).cb = s.cb := rfl
@[simp] theorem State.okStatus_cur (s : State) :
    (s.okStatus).cur = s.cur := rfl
@[simp] theorem State.okStatus_prev (s : State) :
    (s.okStatus).prev = s.prev := rfl
@[simp] theorem State.okStatus_ref (s : State) :
    (s.okStatus).ref = s.ref := rfl
@[simp] theorem State.okStatus_rleN (s : State) :
    (s.okStatus).rleN = s.rleN := rfl
@[simp] theorem State.okStatus_rleK (s : State) :
    (s.okStatus).rleK = s.rleK := rfl
@[simp] theorem State.okStatus_rleSink (s : State) :
    (s.okStatus).rleSink = s.rleSink := rfl
@[simp] theorem State.okStatus_op (s : State) :
    (s.okStatus).op = s.op := rfl
@[simp] theorem State.okStatus_cx (s : State) :
    (s.okStatus).cx = s.cx := rfl
@[simp] theorem State.okStatus_cy (s : State) :
    (s.okStatus).cy = s.cy := rfl
@[simp] theorem State.okStatus_bs (s : State) :
    (s.okStatus).bs = s.bs := rfl
@[simp] theorem State.okStatus_pend (s : State) :
    (s.okStatus).pend = s.pend := rfl
@[simp] theorem State.okStatus_status (s : State) :
    (s.okStatus).status = .ok := rfl
@[simp] theorem State.okStatus_cause (s : State) :
    (s.okStatus).cause = s.cause := rfl
@[simp] theorem State.okStatus_diag (s : State) :
    (s.okStatus).diag = s.diag := rfl
@[simp] theorem State.okStatus_dst (s : State) :
    (s.okStatus).dst = s.dst := rfl
@[simp] theorem State.okStatus_phase (s : State) :
    (s.okStatus).phase = s.phase := rfl
@[simp] theorem State.okStatus_inbox (s : State) :
    (s.okStatus).inbox = s.inbox := rfl
@[simp] theorem State.okStatus_draws (s : State) :
    (s.okStatus).draws = s.draws := rfl

@[simp] theorem State.endSubcodec_life (s : State) :
    (s.endSubcodec).life = s.life := rfl
@[simp] theorem State.endSubcodec_w (s : State) :
    (s.endSubcodec).w = s.w := rfl
@[simp] theorem State.endSubcodec_h (s : State) :
    (s.endSubcodec).h = s.h := rfl
@[simp] theorem State.endSubcodec_aw (s : State) :
    (s.endSubcodec).aw = s.aw := rfl
@[simp] theorem State.endSubcodec_ah (s : State) :
    (s.endSubcodec).ah = s.ah := rfl
@[simp] theorem State.endSubcodec_fb (s : State) :
    (s.endSubcodec).fb = s.fb := rfl
@[simp] theorem State.endSubcodec_scr (s : State) :
    (s.endSubcodec).scr = s.scr := rfl
@[simp] theorem State.endSubcodec_inp (s : State) :
    (s.endSubcodec).inp = s.inp := rfl
@[simp] theorem State.endSubcodec_size (s : State) :
    (s.endSubcodec).size = s.size := rfl
@[simp] theorem State.endSubcodec_pos (s : State) :
    (s.endSubcodec).pos = s.pos := rfl
@[simp] theorem State.endSubcodec_hw (s : State) :
    (s.endSubcodec).hw = s.hw := rfl
@[simp] theorem State.endSubcodec_hh (s : State) :
    (s.endSubcodec).hh = s.hh := rfl
@[simp] theorem State.endSubcodec_seq (s : State) :
    (s.endSubcodec).seq = s.seq := rfl
@[simp] theorem State.endSubcodec_subc (s : State) :
    (s.endSubcodec).subc = s.subc := rfl
@[simp] theorem State.endSubcodec_rot (s : State) :
    (s.endSubcodec).rot = s.rot := rfl
@[simp] theorem State.endSubcodec_scb (s : State) :
    (s.endSubcodec).scb = s.scb := rfl
@[simp] theorem State.endSubcodec_bg (s : State) :
    (s.endSubcodec).bg = s.bg := rfl
@[simp] theorem State.endSubcodec_cb (s : State) :
    (s.endSubcodec).cb = s.cb := rfl
@[simp] theorem State.endSubcodec_cur (s : State) :
    (s.endSubcodec).cur = s.cur := rfl
@[simp] theorem State.endSubcodec_prev (s : State) :
    (s.endSubcodec).prev = s.prev := rfl
@[simp] theorem State.endSubcodec_ref (s : State) :
    (s.endSubcodec).ref = s.ref := rfl
@[simp] theorem State.endSubcodec_rleN (s : State) :
    (s.endSubcodec).rleN = s.rleN := rfl
@[simp] theorem State.endSubcodec_rleK (s : State) :
    (s.endSubcodec).rleK = s.rleK := rfl
@[simp] theorem State.endSubcodec_rleSink (s : State) :
    (s.endSubcodec).rleSink = s.rleSink := rfl
@[simp] theorem State.endSubcodec_op (s : State) :
    (s.endSubcodec).op = s.op := rfl
@[simp] theorem State.endSubcodec_cx (s : State) :
    (s.endSubcodec).cx = s.cx := rfl
@[simp] theorem State.endSubcodec_cy (s : State) :
    (s.endSubcodec).cy = s.cy := rfl
@[simp] theorem State.endSubcodec_bs (s : State) :
    (s.endSubcodec).bs = s.bs := rfl
@[simp] theorem State.endSubcodec_pend (s : State) :
    (s.endSubcodec).pend = s.pend := rfl
@[simp] theorem State.endSubcodec_status (s : State) :
    (s.endSubcodec).status = s.status := rfl
@[simp] theorem State.endSubcodec_cause (s : State) :
    (s.endSubcodec).cause = s.cause := rfl
@[simp] theorem State.endSubcodec_diag (s : State) :
    (s.endSubcodec).diag = s.diag := rfl
@[simp] theorem State.endSubcodec_dst (s : State) :
    (s.endSubcodec).dst = s.dst := rfl
@[simp] theorem State.endSubcodec_phase (s : State) :
    (s.endSubcodec).phase = .finish := rfl
@[simp] theorem State.endSubcodec_inbox (s : State) :
    (s.endSubcodec).inbox = s.inbox := rfl
@[simp] theorem State.endSubcodec_draws (s : State) :
    (s.endSubcodec).draws = s.draws := rfl

@[simp] theorem State.startRle_life (s : State) (n : Nat) (k : Sink) :
    (s.startRle n k).life = s.life := rfl
@[simp] theorem State.startRle_w (s : State) (n : Nat) (k : Sink) :
    (s.startRle n k).w = s.w := rfl
@[simp] theorem State.startRle_h (s : State) (n : Nat) (k : Sink) :
    (s.startRle n k).h = s.h := rfl
@[simp] theorem State.startRle_aw (s : State) (n : Nat) (k : Sink) :
    (s.startRle n k).aw = s.aw := rfl
@[simp] theorem State.startRle_ah (s : State) (n : Nat) (k : Sink) :
    (s.startRle n k).ah = s.ah := rfl
@[simp] theorem State.startRle_fb (s : State) (n : Nat) (k : Sink) :
    (s.startRle n k).fb = s.fb := rfl
@[simp] theorem State.startRle_scr (s : State) (n : Nat) (k : Sink) :
    (s.startRle n k).scr = s.scr := rfl
@[simp] theorem State.startRle_inp (s : State) (n : Nat) (k : Sink) :
    (s.startRle n k).inp = s.inp := rfl
@[simp] theorem State.startRle_size (s : State) (n : Nat) (k : Sink) :
    (s.startRle n k).size = s.size := rfl
@[simp] theorem State.startRle_pos (s : State) (n : Nat) (k : Sink) :
    (s.startRle n k).pos = s.pos := rfl
@[simp] theorem State.startRle_hw (s : State) (n : Nat) (k : Sink) :
    (s.startRle n k).hw = s.hw := rfl
@[simp] theorem State.startRle_hh (s : State) (n : Nat) (k : Sink) :
    (s.startRle n k).hh = s.hh := rfl
@[simp] theorem State.startRle_seq (s : State) (n : Nat) (k : Sink) :
    (s.startRle n k).seq = s.seq := rfl
@[simp] theorem State.startRle_subc (s : State) (n : Nat) (k : Sink) :
    (s.startRle n k).subc = s.subc := rfl
@[simp] theorem State.startRle_rot (s : State) (n : Nat) (k : Sink) :
    (s.startRle n k).rot = s.rot := rfl
@[simp] theorem State.startRle_scb (s : State) (n : Nat) (k : Sink) :
    (s.startRle n k).scb = s.scb := rfl
@[simp] theorem State.startRle_bg (s : State) (n : Nat) (k : Sink) :
    (s.startRle n k).bg = s.bg := rfl
@[simp] theorem State.startRle_cb (s : State) (n : Nat) (k : Sink) :
    (s.startRle n k).cb = s.cb := rfl
@[simp] theorem State.startRle_cur (s : State) (n : Nat) (k : Sink) :
    (s.startRle n k).cur = s.cur := rfl
@[simp] theorem State.startRle_prev (s : State) (n : Nat) (k : Sink) :
    (s.startRle n k).prev = s.prev := rfl
@[simp] theorem State.startRle_ref (s : State) (n : Nat) (k : Sink) :
    (s.startRle n k).ref = s.ref := rfl
@[simp] theorem State.startRle_rleN (s : State) (n : Nat) (k : Sink) :
    (s.startRle n k).rleN = n := rfl
@[simp] theorem State.startRle_rleK (s : State) (n : Nat) (k : Sink) :
    (s.startRle n k).rleK = 0 := rfl
@[simp] theorem State.startRle_rleSink (s : State) (n : Nat) (k : Sink) :
    (s.startRle n k).rleSink = k := rfl
@[simp] theorem State.startRle_op (s : State) (n : Nat) (k : Sink) :
    (s.startRle n k).op = s.op := rfl
@[simp] theorem State.startRle_cx (s : State) (n : Nat) (k : Sink) :
    (s.startRle n k).cx = s.cx := rfl
@[simp] theorem State.startRle_cy (s : State) (n : Nat) (k : Sink) :
    (s.startRle n k).cy = s.cy := rfl
@[simp] theorem State.startRle_bs (s : State) (n : Nat) (k : Sink) :
    (s.startRle n k).bs = s.bs := rfl
@[simp] theorem State.startRle_pend (s : State) (n : Nat) (k : Sink) :
    (s.startRle n k).pend = s.pend := rfl
@[simp] theorem State.startRle_status (s : State) (n : Nat) (k : Sink) :
    (s.startRle n k).status = s.status := rfl
@[simp] theorem State.startRle_cause (s : State) (n : Nat) (k : Sink) :
    (s.startRle n k).cause = s.cause := rfl
@[simp] theorem State.startRle_diag (s : State) (n : Nat) (k : Sink) :
    (s.startRle n k).diag = s.diag := rfl
@[simp] theorem State.startRle_dst (s : State) (n : Nat) (k : Sink) :
    (s.startRle n k).dst = s.dst := rfl
@[simp] theorem State.startRle_phase (s : State) (n : Nat) (k : Sink) :
    (s.startRle n k).phase = .runs := rfl
@[simp] theorem State.startRle_inbox (s : State) (n : Nat) (k : Sink) :
    (s.startRle n k).inbox = s.inbox := rfl
@[simp] theorem State.startRle_draws (s : State) (n : Nat) (k : Sink) :
    (s.startRle n k).draws = s.draws := rfl

@[simp] theorem State.wrapReader_life (s : State) (c : List Byte) (n : Nat) :
    (s.wrapReader c n).life = s.life := rfl
@[simp] theorem State.wrapReader_w (s : State) (c : List Byte) (n : Nat) :
    (s.wrapReader c n).w = s.w := rfl
@[simp] theorem State.wrapReader_h (s : State) (c : List Byte) (n : Nat) :
    (s.wrapReader c n).h = s.h := rfl
@[simp] theorem State.wrapReader_aw (s : State) (c : List Byte) (n : Nat) :
    (s.wrapReader c n).aw = s.aw := rfl
@[simp] theorem State.wrapReader_ah (s : State) (c : List Byte) (n : Nat) :
    (s.wrapReader c n).ah = s.ah := rfl
@[simp] theorem State.wrapReader_fb (s : State) (c : List Byte) (n : Nat) :
    (s.wrapReader c n).fb = s.fb := rfl
@[simp] theorem State.wrapReader_scr (s : State) (c : List Byte) (n : Nat) :
    (s.wrapReader c n).scr = s.scr := rfl
@[simp] theorem State.wrapReader_inp (s : State) (c : List Byte) (n : Nat) :
    (s.wrapReader c n).inp = c.take n := rfl
@[simp] theorem State.wrapReader_size (s : State) (c : List Byte) (n : Nat) :
    (s.wrapReader c n).size = n := rfl
@[simp] theorem State.wrapReader_pos (s : State) (c : List Byte) (n : Nat) :
    (s.wrapReader c n).pos = 0 := rfl
@[simp] theorem State.wrapReader_hw (s : State) (c : List Byte) (n : Nat) :
    (s.wrapReader c n).hw = s.hw := rfl
@[simp] theorem State.wrapReader_hh (s : State) (c : List Byte) (n : Nat) :
    (s.wrapReader c n).hh = s.hh := rfl
@[simp] theorem State.wrapReader_seq (s : State) (c : List Byte) (n : Nat) :
    (s.wrapReader c n).seq = s.seq := rfl
@[simp] theorem State.wrapReader_subc (s : State) (c : List Byte) (n : Nat) :
    (s.wrapReader c n).subc = s.subc := rfl
@[simp] theorem State.wrapReader_rot (s : State) (c : List Byte) (n : Nat) :
    (s.wrapReader c n).rot = s.rot := rfl
@[simp] theorem State.wrapReader_scb (s : State) (c : List Byte) (n : Nat) :
    (s.wrapReader c n).scb = s.scb := rfl
@[simp] theorem State.wrapReader_bg (s : State) (c : List Byte) (n : Nat) :
    (s.wrapReader c n).bg = s.bg := rfl
@[simp] theorem State.wrapReader_cb (s : State) (c : List Byte) (n : Nat) :
    (s.wrapReader c n).cb = s.cb := rfl
@[simp] theorem State.wrapReader_cur (s : State) (c : List Byte) (n : Nat) :
    (s.wrapReader c n).cur = s.cur := rfl
@[simp] theorem State.wrapReader_prev (s : State) (c : List Byte) (n : Nat) :
    (s.wrapReader c n).prev = s.prev := rfl
@[simp] theorem State.wrapReader_ref (s : State) (c : List Byte) (n : Nat) :
    (s.wrapReader c n).ref = s.ref := rfl
@[simp] theorem State.wrapReader_rleN (s : State) (c : List Byte) (n : Nat) :
    (s.wrapReader c n).rleN = s.rleN := rfl
@[simp] theorem State.wrapReader_rleK (s : State) (c : List Byte) (n : Nat) :
    (s.wrapReader c n).rleK = s.rleK := rfl
@[simp] theorem State.wrapReader_rleSink (s : State) (c : List Byte) (n : Nat) :
    (s.wrapReader c n).rleSink = s.rleSink := rfl
@[simp] theorem State.wrapReader_op (s : State) (c : List Byte) (n : Nat) :
    (s.wrapReader c n).op = s.op := rfl
@[simp] theorem State.wrapReader_cx (s : State) (c : List Byte) (n : Nat) :
    (s.wrapReader c n).cx = s.cx := rfl
@[simp] theorem State.wrapReader_cy (s : State) (c : List Byte) (n : Nat) :
    (s.wrapReader c n).cy = s.cy := rfl
@[simp] theorem State.wrapReader_bs (s : State) (c : List Byte) (n : Nat) :
    (s.wrapReader c n).bs = s.bs := rfl
@[simp] theorem State.wrapReader_pend (s : State) (c : List Byte) (n : Nat) :
    (s.wrapReader c n).pend = s.pend := rfl
@[simp] theorem State.wrapReader_status (s : State) (c : List Byte) (n : Nat) :
    (s.wrapReader c n).status = s.status := rfl
@[simp] theorem State.wrapReader_cause (s : State) (c : List Byte) (n : Nat) :
    (s.wrapReader c n).cause = s.cause := rfl
@[simp] theorem State.wrapReader_diag (s : State) (c : List Byte) (n : Nat) :
    (s.wrapReader c n).diag = s.diag := rfl
@[simp] theorem State.wrapReader_dst (s : State) (c : List Byte) (n : Nat) :
    (s.wrapReader c n).dst = s.dst := rfl
@[simp] theorem State.wrapReader_phase (s : State) (c : List Byte) (n : Nat) :
    (s.wrapReader c n).phase = s.phase := rfl
@[simp] theorem State.wrapReader_inbox (s : State) (c : List Byte) (n : Nat) :
    (s.wrapReader c n).inbox = s.inbox := rfl
@[simp] theorem State.wrapReader_draws (s : State) (c : List Byte) (n : Nat) :
    (s.wrapReader c n).draws = s.draws := rfl

@[simp] theorem State.loadHeader_life (s : State) (f : Header) :
    (s.loadHeader f).life = s.life := rfl
@[simp] theorem State.loadHeader_w (s : State) (f : Header) :
    (s.loadHeader f).w = s.w := rfl
@[simp] theorem State.loadHeader_h (s : State) (f : Header) :
    (s.loadHeader f).h = s.h := rfl
@[simp] theorem State.loadHeader_aw (s : State) (f : Header) :
    (s.loadHeader f).aw = s.aw := rfl
@[simp] theorem State.loadHeader_ah (s : State) (f : Header) :
    (s.loadHeader f).ah = s.ah := rfl
@[simp] theorem State.loadHeader_fb (s : State) (f : Header) :
    (s.loadHeader f).fb = s.fb := rfl
@[simp] theorem State.loadHeader_scr (s : State) (f : Header) :
    (s.loadHeader f).scr = s.scr := rfl
@[simp] theorem State.loadHeader_inp (s : State) (f : Header) :
    (s.loadHeader f).inp = s.inp := rfl
@[simp] theorem State.loadHeader_size (s : State) (f : Header) :
    (s.loadHeader f).size = s.size := rfl
@[simp] theorem State.loadHeader_pos (s : State) (f : Header) :
    (s.loadHeader f).pos = s.pos := rfl
@[simp] theorem State.loadHeader_hw (s : State) (f : Header) :
    (s.loadHeader f).hw = f.hw := rfl
@[simp] theorem State.loadHeader_hh (s : State) (f : Header) :
    (s.loadHeader f).hh = f.hh := rfl
@[simp] theorem State.loadHeader_seq (s : State) (f : Header) :
    (s.loadHeader f).seq = f.seq := rfl
@[simp] theorem State.loadHeader_subc (s : State) (f : Header) :
    (s.loadHeader f).subc = f.subc := rfl
@[simp] theorem State.loadHeader_rot (s : State) (f : Header) :
    (s.loadHeader f).rot = f.rot := rfl
@[simp] theorem State.loadHeader_scb (s : State) (f : Header) :
    (s.loadHeader f).scb = f.scb := rfl
@[simp] theorem State.loadHeader_bg (s : State) (f : Header) :
    (s.loadHeader f).bg = f.bg := rfl
@[simp] theorem State.loadHeader_cb (s : State) (f : Header) :
    (s.loadHeader f).cb = f.cb := rfl
@[simp] theorem State.loadHeader_cur (s : State) (f : Header) :
    (s.loadHeader f).cur = s.cur := rfl
@[simp] theorem State.loadHeader_prev (s : State) (f : Header) :
    (s.loadHeader f).prev = s.prev := rfl
@[simp] theorem State.loadHeader_ref (s : State) (f : Header) :
    (s.loadHeader f).ref = s.ref := rfl
@[simp] theorem State.loadHeader_rleN (s : State) (f : Header) :
    (s.loadHeader f).rleN = s.rleN := rfl
@[simp] theorem State.loadHeader_rleK (s : State) (f : Header) :
    (s.loadHeader f).rleK = s.rleK := rfl
@[simp] theorem State.loadHeader_rleSink (s : State) (f : Header) :
    (s.loadHeader f).rleSink = s.rleSink := rfl
@[simp] theorem State.loadHeader_op (s : State) (f : Header) :
    (s.loadHeader f).op = s.op := rfl
@[simp] theorem State.loadHeader_cx (s : State) (f : Header) :
    (s.loadHeader f).cx = s.cx := rfl
@[simp] theorem State.loadHeader_cy (s : State) (f : Header) :
    (s.loadHeader f).cy = s.cy := rfl
@[simp] theorem State.loadHeader_bs (s : State) (f : Header) :
    (s.loadHeader f).bs = s.bs := rfl
@[simp] theorem State.loadHeader_pend (s : State) (f : Header) :
    (s.loadHeader f).pend = s.pend := rfl
@[simp] theorem State.loadHeader_status (s : State) (f : Header) :
    (s.loadHeader f).status = s.status := rfl
@[simp] theorem State.loadHeader_cause (s : State) (f : Header) :
    (s.loadHeader f).cause = s.cause := rfl
@[simp] theorem State.loadHeader_diag (s : State) (f : Header) :
    (s.loadHeader f).diag = s.diag := rfl
@[simp] theorem State.loadHeader_dst (s : State) (f : Header) :
    (s.loadHeader f).dst = s.dst := rfl
@[simp] theorem State.loadHeader_phase (s : State) (f : Header) :
    (s.loadHeader f).phase = s.phase := rfl
@[simp] theorem State.loadHeader_inbox (s : State) (f : Header) :
    (s.loadHeader f).inbox = s.inbox := rfl
@[simp] theorem State.loadHeader_draws (s : State) (f : Header) :
    (s.loadHeader f).draws = s.draws := rfl

@[simp] theorem State.emitScratch_life (s : State) (bytes : List Byte) :
    (s.emitScratch bytes).life = s.life := rfl
@[simp] theorem State.emitScratch_w (s : State) (bytes : List Byte) :
    (s.emitScratch bytes).w = s.w := rfl
@[simp] theorem State.emitScratch_h (s : State) (bytes : List Byte) :
    (s.emitScratch bytes).h = s.h := rfl
@[simp] theorem State.emitScratch_aw (s : State) (bytes : List Byte) :
    (s.emitScratch bytes).aw = s.aw := rfl
@[simp] theorem State.emitScratch_ah (s : State) (bytes : List Byte) :
    (s.emitScratch bytes).ah = s.ah := rfl
@[simp] theorem State.emitScratch_fb (s : State) (bytes : List Byte) :
    (s.emitScratch bytes).fb = s.fb := rfl
@[simp] theorem State.emitScratch_scr (s : State) (bytes : List Byte) :
    (s.emitScratch bytes).scr = s.scr.mapIdx fun k old => emitted s.rleK bytes k old := rfl
@[simp] theorem State.emitScratch_inp (s : State) (bytes : List Byte) :
    (s.emitScratch bytes).inp = s.inp := rfl
@[simp] theorem State.emitScratch_size (s : State) (bytes : List Byte) :
    (s.emitScratch bytes).size = s.size := rfl
@[simp] theorem State.emitScratch_pos (s : State) (bytes : List Byte) :
    (s.emitScratch bytes).pos = s.pos := rfl
@[simp] theorem State.emitScratch_hw (s : State) (bytes : List Byte) :
    (s.emitScratch bytes).hw = s.hw := rfl
@[simp] theorem State.emitScratch_hh (s : State) (bytes : List Byte) :
    (s.emitScratch bytes).hh = s.hh := rfl
@[simp] theorem State.emitScratch_seq (s : State) (bytes : List Byte) :
    (s.emitScratch bytes).seq = s.seq := rfl
@[simp] theorem State.emitScratch_subc (s : State) (bytes : List Byte) :
    (s.emitScratch bytes).subc = s.subc := rfl
@[simp] theorem State.emitScratch_rot (s : State) (bytes : List Byte) :
    (s.emitScratch bytes).rot = s.rot := rfl
@[simp] theorem State.emitScratch_scb (s : State) (bytes : List Byte) :
    (s.emitScratch bytes).scb = s.scb := rfl
@[simp] theorem State.emitScratch_bg (s : State) (bytes : List Byte) :
    (s.emitScratch bytes).bg = s.bg := rfl
@[simp] theorem State.emitScratch_cb (s : State) (bytes : List Byte) :
    (s.emitScratch bytes).cb = s.cb := rfl
@[simp] theorem State.emitScratch_cur (s : State) (bytes : List Byte) :
    (s.emitScratch bytes).cur = s.cur := rfl
@[simp] theorem State.emitScratch_prev (s : State) (bytes : List Byte) :
    (s.emitScratch bytes).prev = s.prev := rfl
@[simp] theorem State.emitScratch_ref (s : State) (bytes : List Byte) :
    (s.emitScratch bytes).ref = s.ref := rfl
@[simp] theorem State.emitScratch_rleN (s : State) (bytes : List Byte) :
    (s.emitScratch bytes).rleN = s.rleN := rfl
@[simp] theorem State.emitScratch_rleK (s : State) (bytes : List Byte) :
    (s.emitScratch bytes).rleK = s.rleK := rfl
@[simp] theorem State.emitScratch_rleSink (s : State) (bytes : List Byte) :
    (s.emitScratch bytes).rleSink = s.rleSink := rfl
@[simp] theorem State.emitScratch_op (s : State) (bytes : List Byte) :
    (s.emitScratch bytes).op = s.op := rfl
@[simp] theorem State.emitScratch_cx (s : State) (bytes : List Byte) :
    (s.emitScratch bytes).cx = s.cx := rfl
@[simp] theorem State.emitScratch_cy (s : State) (bytes : List Byte) :
    (s.emitScratch bytes).cy = s.cy := rfl
@[simp] theorem State.emitScratch_bs (s : State) (bytes : List Byte) :
    (s.emitScratch bytes).bs = s.bs := rfl
@[simp] theorem State.emitScratch_pend (s : State) (bytes : List Byte) :
    (s.emitScratch bytes).pend = s.pend := rfl
@[simp] theorem State.emitScratch_status (s : State) (bytes : List Byte) :
    (s.emitScratch bytes).status = s.status := rfl
@[simp] theorem State.emitScratch_cause (s : State) (bytes : List Byte) :
    (s.emitScratch bytes).cause = s.cause := rfl
@[simp] theorem State.emitScratch_diag (s : State) (bytes : List Byte) :
    (s.emitScratch bytes).diag = s.diag := rfl
@[simp] theorem State.emitScratch_dst (s : State) (bytes : List Byte) :
    (s.emitScratch bytes).dst = s.dst := rfl
@[simp] theorem State.emitScratch_phase (s : State) (bytes : List Byte) :
    (s.emitScratch bytes).phase = s.phase := rfl
@[simp] theorem State.emitScratch_inbox (s : State) (bytes : List Byte) :
    (s.emitScratch bytes).inbox = s.inbox := rfl
@[simp] theorem State.emitScratch_draws (s : State) (bytes : List Byte) :
    (s.emitScratch bytes).draws = s.draws := rfl

@[simp] theorem State.emitImage_life (s : State) (bytes : List Byte) :
    (s.emitImage bytes).life = s.life := rfl
@[simp] theorem State.emitImage_w (s : State) (bytes : List Byte) :
    (s.emitImage bytes).w = s.w := rfl
@[simp] theorem State.emitImage_h (s : State) (bytes : List Byte) :
    (s.emitImage bytes).h = s.h := rfl
@[simp] theorem State.emitImage_aw (s : State) (bytes : List Byte) :
    (s.emitImage bytes).aw = s.aw := rfl
@[simp] theorem State.emitImage_ah (s : State) (bytes : List Byte) :
    (s.emitImage bytes).ah = s.ah := rfl
@[simp] theorem State.emitImage_scr (s : State) (bytes : List Byte) :
    (s.emitImage bytes).scr = s.scr := rfl
@[simp] theorem State.emitImage_inp (s : State) (bytes : List Byte) :
    (s.emitImage bytes).inp = s.inp := rfl
@[simp] theorem State.emitImage_size (s : State) (bytes : List Byte) :
    (s.emitImage bytes).size = s.size := rfl
@[simp] theorem State.emitImage_pos (s : State) (bytes : List Byte) :
    (s.emitImage bytes).pos = s.pos := rfl
@[simp] theorem State.emitImage_hw (s : State) (bytes : List Byte) :
    (s.emitImage bytes).hw = s.hw := rfl
@[simp] theorem State.emitImage_hh (s : State) (bytes : List Byte) :
    (s.emitImage bytes).hh = s.hh := rfl
@[simp] theorem State.emitImage_seq (s : State) (bytes : List Byte) :
    (s.emitImage bytes).seq = s.seq := rfl
@[simp] theorem State.emitImage_subc (s : State) (bytes : List Byte) :
    (s.emitImage bytes).subc = s.subc := rfl
@[simp] theorem State.emitImage_rot (s : State) (bytes : List Byte) :
    (s.emitImage bytes).rot = s.rot := rfl
@[simp] theorem State.emitImage_scb (s : State) (bytes : List Byte) :
    (s.emitImage bytes).scb = s.scb := rfl
@[simp] theorem State.emitImage_bg (s : State) (bytes : List Byte) :
    (s.emitImage bytes).bg = s.bg := rfl
@[simp] theorem State.emitImage_cb (s : State) (bytes : List Byte) :
    (s.emitImage bytes).cb = s.cb := rfl
@[simp] theorem State.emitImage_cur (s : State) (bytes : List Byte) :
    (s.emitImage bytes).cur = s.cur := rfl
@[simp] theorem State.emitImage_prev (s : State) (bytes : List Byte) :
    (s.emitImage bytes).prev = s.prev := rfl
@[simp] theorem State.emitImage_ref (s : State) (bytes : List Byte) :
    (s.emitImage bytes).ref = s.ref := rfl
@[simp] theorem State.emitImage_rleN (s : State) (bytes : List Byte) :
    (s.emitImage bytes).rleN = s.rleN := rfl
@[simp] theorem State.emitImage_rleK (s : State) (bytes : List Byte) :
    (s.emitImage bytes).rleK = s.rleK := rfl
@[simp] theorem State.emitImage_rleSink (s : State) (bytes : List Byte) :
    (s.emitImage bytes).rleSink = s.rleSink := rfl
@[simp] theorem State.emitImage_op (s : State) (bytes : List Byte) :
    (s.emitImage bytes).op = s.op := rfl
@[simp] theorem State.emitImage_cx (s : State) (bytes : List Byte) :
    (s.emitImage bytes).cx = s.cx := rfl
@[simp] theorem State.emitImage_cy (s : State) (bytes : List Byte) :
    (s.emitImage bytes).cy = s.cy := rfl
@[simp] theorem State.emitImage_bs (s : State) (bytes : List Byte) :
    (s.emitImage bytes).bs = s.bs := rfl
@[simp] theorem State.emitImage_pend (s : State) (bytes : List Byte) :
    (s.emitImage bytes).pend = s.pend := rfl
@[simp] theorem State.emitImage_status (s : State) (bytes : List Byte) :
    (s.emitImage bytes).status = s.status := rfl
@[simp] theorem State.emitImage_cause (s : State) (bytes : List Byte) :
    (s.emitImage bytes).cause = s.cause := rfl
@[simp] theorem State.emitImage_diag (s : State) (bytes : List Byte) :
    (s.emitImage bytes).diag = s.diag := rfl
@[simp] theorem State.emitImage_dst (s : State) (bytes : List Byte) :
    (s.emitImage bytes).dst = s.dst := rfl
@[simp] theorem State.emitImage_phase (s : State) (bytes : List Byte) :
    (s.emitImage bytes).phase = s.phase := rfl
@[simp] theorem State.emitImage_inbox (s : State) (bytes : List Byte) :
    (s.emitImage bytes).inbox = s.inbox := rfl
@[simp] theorem State.emitImage_draws (s : State) (bytes : List Byte) :
    (s.emitImage bytes).draws = s.draws := rfl

@[simp] theorem State.copyOut_life (s : State) :
    (s.copyOut).life = s.life := rfl
@[simp] theorem State.copyOut_w (s : State) :
    (s.copyOut).w = s.w := rfl
@[simp] theorem State.copyOut_h (s : State) :
    (s.copyOut).h = s.h := rfl
@[simp] theorem State.copyOut_aw (s : State) :
    (s.copyOut).aw = s.aw := rfl
@[simp] theorem State.copyOut_ah (s : State) :
    (s.copyOut).ah = s.ah := rfl
@[simp] theorem State.copyOut_fb (s : State) :
    (s.copyOut).fb = s.fb := rfl
@[simp] theorem State.copyOut_scr (s : State) :
    (s.copyOut).scr = s.scr := rfl
@[simp] theorem State.copyOut_inp (s : State) :
    (s.copyOut).inp = s.inp := rfl
@[simp] theorem State.copyOut_size (s : State) :
    (s.copyOut).size = s.size := rfl
@[simp] theorem State.copyOut_pos (s : State) :
    (s.copyOut).pos = s.pos := rfl
@[simp] theorem State.copyOut_hw (s : State) :
    (s.copyOut).hw = s.hw := rfl
@[simp] theorem State.copyOut_hh (s : State) :
    (s.copyOut).hh = s.hh := rfl
@[simp] theorem State.copyOut_seq (s : State) :
    (s.copyOut).seq = s.seq := rfl
@[simp] theorem State.copyOut_subc (s : State) :
    (s.copyOut).subc = s.subc := rfl
@[simp] theorem State.copyOut_rot (s : State) :
    (s.copyOut).rot = s.rot := rfl
@[simp] theorem State.copyOut_scb (s : State) :
    (s.copyOut).scb = s.scb := rfl
@[simp] theorem State.copyOut_bg (s : State) :
    (s.copyOut).bg = s.bg := rfl
@[simp] theorem State.copyOut_cb (s : State) :
    (s.copyOut).cb = s.cb := rfl
@[simp] theorem State.copyOut_cur (s : State) :
    (s.copyOut).cur = s.cur := rfl
@[simp] theorem State.copyOut_prev (s : State) :
    (s.copyOut).prev = s.prev := rfl
@[simp] theorem State.copyOut_ref (s : State) :
    (s.copyOut).ref = s.ref := rfl
@[simp] theorem State.copyOut_rleN (s : State) :
    (s.copyOut).rleN = s.rleN := rfl
@[simp] theorem State.copyOut_rleK (s : State) :
    (s.copyOut).rleK = s.rleK := rfl
@[simp] theorem State.copyOut_rleSink (s : State) :
    (s.copyOut).rleSink = s.rleSink := rfl
@[simp] theorem State.copyOut_op (s : State) :
    (s.copyOut).op = s.op := rfl
@[simp] theorem State.copyOut_cx (s : State) :
    (s.copyOut).cx = s.cx := rfl
@[simp] theorem State.copyOut_cy (s : State) :
    (s.copyOut).cy = s.cy := rfl
@[simp] theorem State.copyOut_bs (s : State) :
    (s.copyOut).bs = s.bs := rfl
@[simp] theorem State.copyOut_pend (s : State) :
    (s.copyOut).pend = s.pend := rfl
@[simp] theorem State.copyOut_status (s : State) :
    (s.copyOut).status = s.status := rfl
@[simp] theorem State.copyOut_cause (s : State) :
    (s.copyOut).cause = s.cause := rfl
@[simp] theorem State.copyOut_diag (s : State) :
    (s.copyOut).diag = s.diag := rfl
@[simp] theorem State.copyOut_phase (s : State) :
    (s.copyOut).phase = s.phase := rfl
@[simp] theorem State.copyOut_inbox (s : State) :
    (s.copyOut).inbox = s.inbox := rfl
@[simp] theorem State.copyOut_draws (s : State) :
    (s.copyOut).draws = s.draws := rfl

@[simp] theorem State.freeCommandRegisters_life (s : State) :
    (s.freeCommandRegisters).life = s.life := rfl
@[simp] theorem State.freeCommandRegisters_w (s : State) :
    (s.freeCommandRegisters).w = s.w := rfl
@[simp] theorem State.freeCommandRegisters_h (s : State) :
    (s.freeCommandRegisters).h = s.h := rfl
@[simp] theorem State.freeCommandRegisters_aw (s : State) :
    (s.freeCommandRegisters).aw = s.aw := rfl
@[simp] theorem State.freeCommandRegisters_ah (s : State) :
    (s.freeCommandRegisters).ah = s.ah := rfl
@[simp] theorem State.freeCommandRegisters_fb (s : State) :
    (s.freeCommandRegisters).fb = s.fb := rfl
@[simp] theorem State.freeCommandRegisters_scr (s : State) :
    (s.freeCommandRegisters).scr = s.scr := rfl
@[simp] theorem State.freeCommandRegisters_inp (s : State) :
    (s.freeCommandRegisters).inp = s.inp := rfl
@[simp] theorem State.freeCommandRegisters_size (s : State) :
    (s.freeCommandRegisters).size = s.size := rfl
@[simp] theorem State.freeCommandRegisters_pos (s : State) :
    (s.freeCommandRegisters).pos = Config.free s.draws .pos := rfl
@[simp] theorem State.freeCommandRegisters_cur (s : State) :
    (s.freeCommandRegisters).cur = s.cur := rfl
@[simp] theorem State.freeCommandRegisters_prev (s : State) :
    (s.freeCommandRegisters).prev = s.prev := rfl
@[simp] theorem State.freeCommandRegisters_ref (s : State) :
    (s.freeCommandRegisters).ref = s.ref := rfl
@[simp] theorem State.freeCommandRegisters_rleN (s : State) :
    (s.freeCommandRegisters).rleN = Config.free s.draws .rleN := rfl
@[simp] theorem State.freeCommandRegisters_rleK (s : State) :
    (s.freeCommandRegisters).rleK = Config.free s.draws .rleK % (Config.free s.draws .rleN + 1) := rfl
@[simp] theorem State.freeCommandRegisters_pend (s : State) :
    (s.freeCommandRegisters).pend = s.pend := rfl
@[simp] theorem State.freeCommandRegisters_status (s : State) :
    (s.freeCommandRegisters).status = s.status := rfl
@[simp] theorem State.freeCommandRegisters_cause (s : State) :
    (s.freeCommandRegisters).cause = s.cause := rfl
@[simp] theorem State.freeCommandRegisters_diag (s : State) :
    (s.freeCommandRegisters).diag = s.diag := rfl
@[simp] theorem State.freeCommandRegisters_dst (s : State) :
    (s.freeCommandRegisters).dst = s.dst := rfl
@[simp] theorem State.freeCommandRegisters_phase (s : State) :
    (s.freeCommandRegisters).phase = s.phase := rfl
@[simp] theorem State.freeCommandRegisters_inbox (s : State) :
    (s.freeCommandRegisters).inbox = s.inbox := rfl
@[simp] theorem State.freeCommandRegisters_draws (s : State) :
    (s.freeCommandRegisters).draws = s.draws + 1 := rfl

@[simp] theorem State.raiseFail_life (s : State) (c : Cause) :
    (s.raiseFail c).life = s.life := rfl
@[simp] theorem State.raiseFail_w (s : State) (c : Cause) :
    (s.raiseFail c).w = s.w := rfl
@[simp] theorem State.raiseFail_h (s : State) (c : Cause) :
    (s.raiseFail c).h = s.h := rfl
@[simp] theorem State.raiseFail_aw (s : State) (c : Cause) :
    (s.raiseFail c).aw = s.aw := rfl
@[simp] theorem State.raiseFail_ah (s : State) (c : Cause) :
    (s.raiseFail c).ah = s.ah := rfl
@[simp] theorem State.raiseFail_fb (s : State) (c : Cause) :
    (s.raiseFail c).fb = s.fb.set s.cur (drawBuffer s.draws s.cur (s.fb.get s.cur).length) := rfl
@[simp] theorem State.raiseFail_scr (s : State) (c : Cause) :
    (s.raiseFail c).scr = drawScratch s.draws s.scr.length := rfl
@[simp] theorem State.raiseFail_inp (s : State) (c : Cause) :
    (s.raiseFail c).inp = [] := rfl
@[simp] theorem State.raiseFail_size (s : State) (c : Cause) :
    (s.raiseFail c).size = 0 := rfl
@[simp] theorem State.raiseFail_pos (s : State) (c : Cause) :
    (s.raiseFail c).pos = Config.free s.draws .pos := rfl
@[simp] theorem State.raiseFail_cur (s : State) (c : Cause) :
    (s.raiseFail c).cur = s.cur := rfl
@[simp] theorem State.raiseFail_prev (s : State) (c : Cause) :
    (s.raiseFail c).prev = s.prev := rfl
@[simp] theorem State.raiseFail_ref (s : State) (c : Cause) :
    (s.raiseFail c).ref = s.ref := rfl
@[simp] theorem State.raiseFail_rleN (s : State) (c : Cause) :
    (s.raiseFail c).rleN = Config.free s.draws .rleN := rfl
@[simp] theorem State.raiseFail_rleK (s : State) (c : Cause) :
    (s.raiseFail c).rleK = Config.free s.draws .rleK % (Config.free s.draws .rleN + 1) := rfl
@[simp] theorem State.raiseFail_pend (s : State) (c : Cause) :
    (s.raiseFail c).pend = [] := rfl
@[simp] theorem State.raiseFail_status (s : State) (c : Cause) :
    (s.raiseFail c).status = .fail := rfl
@[simp] theorem State.raiseFail_cause (s : State) (c : Cause) :
    (s.raiseFail c).cause = c := rfl
@[simp] theorem State.raiseFail_diag (s : State) (c : Cause) :
    (s.raiseFail c).diag = s.diag := rfl
@[simp] theorem State.raiseFail_dst (s : State) (c : Cause) :
    (s.raiseFail c).dst = drawDst s.draws s.dst.length := rfl
@[simp] theorem State.raiseFail_phase (s : State) (c : Cause) :
    (s.raiseFail c).phase = .idle := rfl
@[simp] theorem State.raiseFail_inbox (s : State) (c : Cause) :
    (s.raiseFail c).inbox = s.inbox := rfl
@[simp] theorem State.raiseFail_draws (s : State) (c : Cause) :
    (s.raiseFail c).draws = s.draws + 1 := rfl

@[simp] theorem State.allocate_life (s : State) (w h : Nat) :
    (s.allocate w h).life = .ready := rfl
@[simp] theorem State.allocate_w (s : State) (w h : Nat) :
    (s.allocate w h).w = w := rfl
@[simp] theorem State.allocate_h (s : State) (w h : Nat) :
    (s.allocate w h).h = h := rfl
@[simp] theorem State.allocate_aw (s : State) (w h : Nat) :
    (s.allocate w h).aw = align8 w := rfl
@[simp] theorem State.allocate_ah (s : State) (w h : Nat) :
    (s.allocate w h).ah = align8 h := rfl
@[simp] theorem State.allocate_fb (s : State) (w h : Nat) :
    (s.allocate w h).fb = ⟨drawBuffer s.draws .b0 (align8 w * align8 h), drawBuffer s.draws .b1 (align8 w * align8 h),
      drawBuffer s.draws .b2 (align8 w * align8 h)⟩ := rfl
@[simp] theorem State.allocate_scr (s : State) (w h : Nat) :
    (s.allocate w h).scr = drawScratch s.draws (w * h) := rfl
@[simp] theorem State.allocate_inp (s : State) (w h : Nat) :
    (s.allocate w h).inp = [] := rfl
@[simp] theorem State.allocate_size (s : State) (w h : Nat) :
    (s.allocate w h).size = 0 := rfl
@[simp] theorem State.allocate_pos (s : State) (w h : Nat) :
    (s.allocate w h).pos = 0 := rfl
@[simp] theorem State.allocate_cur (s : State) (w h : Nat) :
    (s.allocate w h).cur = .b0 := rfl
@[simp] theorem State.allocate_prev (s : State) (w h : Nat) :
    (s.allocate w h).prev = .b1 := rfl
@[simp] theorem State.allocate_ref (s : State) (w h : Nat) :
    (s.allocate w h).ref = .b2 := rfl
@[simp] theorem State.allocate_rleN (s : State) (w h : Nat) :
    (s.allocate w h).rleN = Config.free s.draws .rleN := rfl
@[simp] theorem State.allocate_rleK (s : State) (w h : Nat) :
    (s.allocate w h).rleK = Config.free s.draws .rleK % (Config.free s.draws .rleN + 1) := rfl
@[simp] theorem State.allocate_pend (s : State) (w h : Nat) :
    (s.allocate w h).pend = [] := rfl
@[simp] theorem State.allocate_status (s : State) (w h : Nat) :
    (s.allocate w h).status = .idle := rfl
@[simp] theorem State.allocate_cause (s : State) (w h : Nat) :
    (s.allocate w h).cause = .none := rfl
@[simp] theorem State.allocate_diag (s : State) (w h : Nat) :
    (s.allocate w h).diag = [] := rfl
@[simp] theorem State.allocate_dst (s : State) (w h : Nat) :
    (s.allocate w h).dst = s.dst := rfl
@[simp] theorem State.allocate_phase (s : State) (w h : Nat) :
    (s.allocate w h).phase = s.phase := rfl
@[simp] theorem State.allocate_inbox (s : State) (w h : Nat) :
    (s.allocate w h).inbox = s.inbox := rfl
@[simp] theorem State.allocate_draws (s : State) (w h : Nat) :
    (s.allocate w h).draws = s.draws + 1 := rfl

@[simp] theorem State.release_life (s : State) :
    (s.release).life = .uninit := rfl
@[simp] theorem State.release_w (s : State) :
    (s.release).w = Config.free s.draws .w := rfl
@[simp] theorem State.release_h (s : State) :
    (s.release).h = Config.free s.draws .h := rfl
@[simp] theorem State.release_aw (s : State) :
    (s.release).aw = Config.free s.draws .aw := rfl
@[simp] theorem State.release_ah (s : State) :
    (s.release).ah = Config.free s.draws .ah := rfl
@[simp] theorem State.release_fb (s : State) :
    (s.release).fb = ⟨[], [], []⟩ := rfl
@[simp] theorem State.release_scr (s : State) :
    (s.release).scr = [] := rfl
@[simp] theorem State.release_inp (s : State) :
    (s.release).inp = [] := rfl
@[simp] theorem State.release_size (s : State) :
    (s.release).size = 0 := rfl
@[simp] theorem State.release_pos (s : State) :
    (s.release).pos = Config.free s.draws .pos := rfl
@[simp] theorem State.release_rleN (s : State) :
    (s.release).rleN = Config.free s.draws .rleN := rfl
@[simp] theorem State.release_rleK (s : State) :
    (s.release).rleK = Config.free s.draws .rleK % (Config.free s.draws .rleN + 1) := rfl
@[simp] theorem State.release_pend (s : State) :
    (s.release).pend = [] := rfl
@[simp] theorem State.release_dst (s : State) :
    (s.release).dst = s.dst := rfl
@[simp] theorem State.release_phase (s : State) :
    (s.release).phase = s.phase := rfl
@[simp] theorem State.release_inbox (s : State) :
    (s.release).inbox = s.inbox := rfl
@[simp] theorem State.release_draws (s : State) :
    (s.release).draws = s.draws + 1 := rfl

@[simp] theorem State.rotateRefPrev_life (s : State) :
    (s.rotateRefPrev).life = s.life := rfl
@[simp] theorem State.rotateRefPrev_w (s : State) :
    (s.rotateRefPrev).w = s.w := rfl
@[simp] theorem State.rotateRefPrev_h (s : State) :
    (s.rotateRefPrev).h = s.h := rfl
@[simp] theorem State.rotateRefPrev_aw (s : State) :
    (s.rotateRefPrev).aw = s.aw := rfl
@[simp] theorem State.rotateRefPrev_ah (s : State) :
    (s.rotateRefPrev).ah = s.ah := rfl
@[simp] theorem State.rotateRefPrev_fb (s : State) :
    (s.rotateRefPrev).fb = s.fb := rfl
@[simp] theorem State.rotateRefPrev_scr (s : State) :
    (s.rotateRefPrev).scr = s.scr := rfl
@[simp] theorem State.rotateRefPrev_inp (s : State) :
    (s.rotateRefPrev).inp = s.inp := rfl
@[simp] theorem State.rotateRefPrev_size (s : State) :
    (s.rotateRefPrev).size = s.size := rfl
@[simp] theorem State.rotateRefPrev_pos (s : State) :
    (s.rotateRefPrev).pos = s.pos := rfl
@[simp] theorem State.rotateRefPrev_hw (s : State) :
    (s.rotateRefPrev).hw = s.hw := rfl
@[simp] theorem State.rotateRefPrev_hh (s : State) :
    (s.rotateRefPrev).hh = s.hh := rfl
@[simp] theorem State.rotateRefPrev_seq (s : State) :
    (s.rotateRefPrev).seq = s.seq := rfl
@[simp] theorem State.rotateRefPrev_subc (s : State) :
    (s.rotateRefPrev).subc = s.subc := rfl
@[simp] theorem State.rotateRefPrev_rot (s : State) :
    (s.rotateRefPrev).rot = s.rot := rfl
@[simp] theorem State.rotateRefPrev_scb (s : State) :
    (s.rotateRefPrev).scb = s.scb := rfl
@[simp] theorem State.rotateRefPrev_bg (s : State) :
    (s.rotateRefPrev).bg = s.bg := rfl
@[simp] theorem State.rotateRefPrev_cb (s : State) :
    (s.rotateRefPrev).cb = s.cb := rfl
@[simp] theorem State.rotateRefPrev_cur (s : State) :
    (s.rotateRefPrev).cur = s.cur := rfl
@[simp] theorem State.rotateRefPrev_prev (s : State) :
    (s.rotateRefPrev).prev = if s.rot = 2 then s.ref else s.prev := rfl
@[simp] theorem State.rotateRefPrev_ref (s : State) :
    (s.rotateRefPrev).ref = if s.rot = 2 then s.prev else s.ref := rfl
@[simp] theorem State.rotateRefPrev_rleN (s : State) :
    (s.rotateRefPrev).rleN = s.rleN := rfl
@[simp] theorem State.rotateRefPrev_rleK (s : State) :
    (s.rotateRefPrev).rleK = s.rleK := rfl
@[simp] theorem State.rotateRefPrev_rleSink (s : State) :
    (s.rotateRefPrev).rleSink = s.rleSink := rfl
@[simp] theorem State.rotateRefPrev_op (s : State) :
    (s.rotateRefPrev).op = s.op := rfl
@[simp] theorem State.rotateRefPrev_cx (s : State) :
    (s.rotateRefPrev).cx = s.cx := rfl
@[simp] theorem State.rotateRefPrev_cy (s : State) :
    (s.rotateRefPrev).cy = s.cy := rfl
@[simp] theorem State.rotateRefPrev_bs (s : State) :
    (s.rotateRefPrev).bs = s.bs := rfl
@[simp] theorem State.rotateRefPrev_pend (s : State) :
    (s.rotateRefPrev).pend = s.pend := rfl
@[simp] theorem State.rotateRefPrev_status (s : State) :
    (s.rotateRefPrev).status = s.status := rfl
@[simp] theorem State.rotateRefPrev_cause (s : State) :
    (s.rotateRefPrev).cause = s.cause := rfl
@[simp] theorem State.rotateRefPrev_diag (s : State) :
    (s.rotateRefPrev).diag = s.diag := rfl
@[simp] theorem State.rotateRefPrev_dst (s : State) :
    (s.rotateRefPrev).dst = s.dst := rfl
@[simp] theorem State.rotateRefPrev_phase (s : State) :
    (s.rotateRefPrev).phase = s.phase := rfl
@[simp] theorem State.rotateRefPrev_inbox (s : State) :
    (s.rotateRefPrev).inbox = s.inbox := rfl
@[simp] theorem State.rotateRefPrev_draws (s : State) :
    (s.rotateRefPrev).draws = s.draws := rfl

@[simp] theorem State.rotateCurRef_life (s : State) :
    (s.rotateCurRef).life = s.life := rfl
@[simp] theorem State.rotateCurRef_w (s : State) :
    (s.rotateCurRef).w = s.w := rfl
@[simp] theorem State.rotateCurRef_h (s : State) :
    (s.rotateCurRef).h = s.h := rfl
@[simp] theorem State.rotateCurRef_aw (s : State) :
    (s.rotateCurRef).aw = s.aw := rfl
@[simp] theorem State.rotateCurRef_ah (s : State) :
    (s.rotateCurRef).ah = s.ah := rfl
@[simp] theorem State.rotateCurRef_fb (s : State) :
    (s.rotateCurRef).fb = s.fb := rfl
@[simp] theorem State.rotateCurRef_scr (s : State) :
    (s.rotateCurRef).scr = s.scr := rfl
@[simp] theorem State.rotateCurRef_inp (s : State) :
    (s.rotateCurRef).inp = s.inp := rfl
@[simp] theorem State.rotateCurRef_size (s : State) :
    (s.rotateCurRef).size = s.size := rfl
@[simp] theorem State.rotateCurRef_pos (s : State) :
    (s.rotateCurRef).pos = s.pos := rfl
@[simp] theorem State.rotateCurRef_hw (s : State) :
    (s.rotateCurRef).hw = s.hw := rfl
@[simp] theorem State.rotateCurRef_hh (s : State) :
    (s.rotateCurRef).hh = s.hh := rfl
@[simp] theorem State.rotateCurRef_seq (s : State) :
    (s.rotateCurRef).seq = s.seq := rfl
@[simp] theorem State.rotateCurRef_subc (s : State) :
    (s.rotateCurRef).subc = s.subc := rfl
@[simp] theorem State.rotateCurRef_rot (s : State) :
    (s.rotateCurRef).rot = s.rot := rfl
@[simp] theorem State.rotateCurRef_scb (s : State) :
    (s.rotateCurRef).scb = s.scb := rfl
@[simp] theorem State.rotateCurRef_bg (s : State) :
    (s.rotateCurRef).bg = s.bg := rfl
@[simp] theorem State.rotateCurRef_cb (s : State) :
    (s.rotateCurRef).cb = s.cb := rfl
@[simp] theorem State.rotateCurRef_cur (s : State) :
    (s.rotateCurRef).cur = if s.rot = 0 then s.cur else s.ref := rfl
@[simp] theorem State.rotateCurRef_prev (s : State) :
    (s.rotateCurRef).prev = s.prev := rfl
@[simp] theorem State.rotateCurRef_ref (s : State) :
    (s.rotateCurRef).ref = if s.rot = 0 then s.ref else s.cur := rfl
@[simp] theorem State.rotateCurRef_rleN (s : State) :
    (s.rotateCurRef).rleN = s.rleN := rfl
@[simp] theorem State.rotateCurRef_rleK (s : State) :
    (s.rotateCurRef).rleK = s.rleK := rfl
@[simp] theorem State.rotateCurRef_rleSink (s : State) :
    (s.rotateCurRef).rleSink = s.rleSink := rfl
@[simp] theorem State.rotateCurRef_op (s : State) :
    (s.rotateCurRef).op = s.op := rfl
@[simp] theorem State.rotateCurRef_cx (s : State) :
    (s.rotateCurRef).cx = s.cx := rfl
@[simp] theorem State.rotateCurRef_cy (s : State) :
    (s.rotateCurRef).cy = s.cy := rfl
@[simp] theorem State.rotateCurRef_bs (s : State) :
    (s.rotateCurRef).bs = s.bs := rfl
@[simp] theorem State.rotateCurRef_pend (s : State) :
    (s.rotateCurRef).pend = s.pend := rfl
@[simp] theorem State.rotateCurRef_status (s : State) :
    (s.rotateCurRef).status = s.status := rfl
@[simp] theorem State.rotateCurRef_cause (s : State) :
    (s.rotateCurRef).cause = s.cause := rfl
@[simp] theorem State.rotateCurRef_diag (s : State) :
    (s.rotateCurRef).diag = s.diag := rfl
@[simp] theorem State.rotateCurRef_dst (s : State) :
    (s.rotateCurRef).dst = s.dst := rfl
@[simp] theorem State.rotateCurRef_phase (s : State) :
    (s.rotateCurRef).phase = s.phase := rfl
@[simp] theorem State.rotateCurRef_inbox (s : State) :
    (s.rotateCurRef).inbox = s.inbox := rfl
@[simp] theorem State.rotateCurRef_draws (s : State) :
    (s.rotateCurRef).draws = s.draws := rfl

/- Updates that choose between two others. -/

@[simp] theorem State.mcCopy_life (s : State) (cx cy bs : Nat) (v : Int × Int) :
    (s.mcCopy cx cy bs v).life = s.life := by simp only [State.mcCopy]; split <;> rfl
@[simp] theorem State.mcCopy_w (s : State) (cx cy bs : Nat) (v : Int × Int) :
    (s.mcCopy cx cy bs v).w = s.w := by simp only [State.mcCopy]; split <;> rfl
@[simp] theorem State.mcCopy_h (s : State) (cx cy bs : Nat) (v : Int × Int) :
    (s.mcCopy cx cy bs v).h = s.h := by simp only [State.mcCopy]; split <;> rfl
@[simp] theorem State.mcCopy_aw (s : State) (cx cy bs : Nat) (v : Int × Int) :
    (s.mcCopy cx cy bs v).aw = s.aw := by simp only [State.mcCopy]; split <;> rfl
@[simp] theorem State.mcCopy_ah (s : State) (cx cy bs : Nat) (v : Int × Int) :
    (s.mcCopy cx cy bs v).ah = s.ah := by simp only [State.mcCopy]; split <;> rfl
@[simp] theorem State.mcCopy_scr (s : State) (cx cy bs : Nat) (v : Int × Int) :
    (s.mcCopy cx cy bs v).scr = s.scr := by simp only [State.mcCopy]; split <;> rfl
@[simp] theorem State.mcCopy_inp (s : State) (cx cy bs : Nat) (v : Int × Int) :
    (s.mcCopy cx cy bs v).inp = s.inp := by simp only [State.mcCopy]; split <;> rfl
@[simp] theorem State.mcCopy_size (s : State) (cx cy bs : Nat) (v : Int × Int) :
    (s.mcCopy cx cy bs v).size = s.size := by simp only [State.mcCopy]; split <;> rfl
@[simp] theorem State.mcCopy_pos (s : State) (cx cy bs : Nat) (v : Int × Int) :
    (s.mcCopy cx cy bs v).pos = s.pos := by simp only [State.mcCopy]; split <;> rfl
@[simp] theorem State.mcCopy_hw (s : State) (cx cy bs : Nat) (v : Int × Int) :
    (s.mcCopy cx cy bs v).hw = s.hw := by simp only [State.mcCopy]; split <;> rfl
@[simp] theorem State.mcCopy_hh (s : State) (cx cy bs : Nat) (v : Int × Int) :
    (s.mcCopy cx cy bs v).hh = s.hh := by simp only [State.mcCopy]; split <;> rfl
@[simp] theorem State.mcCopy_seq (s : State) (cx cy bs : Nat) (v : Int × Int) :
    (s.mcCopy cx cy bs v).seq = s.seq := by simp only [State.mcCopy]; split <;> rfl
@[simp] theorem State.mcCopy_subc (s : State) (cx cy bs : Nat) (v : Int × Int) :
    (s.mcCopy cx cy bs v).subc = s.subc := by simp only [State.mcCopy]; split <;> rfl
@[simp] theorem State.mcCopy_rot (s : State) (cx cy bs : Nat) (v : Int × Int) :
    (s.mcCopy cx cy bs v).rot = s.rot := by simp only [State.mcCopy]; split <;> rfl
@[simp] theorem State.mcCopy_scb (s : State) (cx cy bs : Nat) (v : Int × Int) :
    (s.mcCopy cx cy bs v).scb = s.scb := by simp only [State.mcCopy]; split <;> rfl
@[simp] theorem State.mcCopy_bg (s : State) (cx cy bs : Nat) (v : Int × Int) :
    (s.mcCopy cx cy bs v).bg = s.bg := by simp only [State.mcCopy]; split <;> rfl
@[simp] theorem State.mcCopy_cb (s : State) (cx cy bs : Nat) (v : Int × Int) :
    (s.mcCopy cx cy bs v).cb = s.cb := by simp only [State.mcCopy]; split <;> rfl
@[simp] theorem State.mcCopy_cur (s : State) (cx cy bs : Nat) (v : Int × Int) :
    (s.mcCopy cx cy bs v).cur = s.cur := by simp only [State.mcCopy]; split <;> rfl
@[simp] theorem State.mcCopy_prev (s : State) (cx cy bs : Nat) (v : Int × Int) :
    (s.mcCopy cx cy bs v).prev = s.prev := by simp only [State.mcCopy]; split <;> rfl
@[simp] theorem State.mcCopy_ref (s : State) (cx cy bs : Nat) (v : Int × Int) :
    (s.mcCopy cx cy bs v).ref = s.ref := by simp only [State.mcCopy]; split <;> rfl
@[simp] theorem State.mcCopy_rleN (s : State) (cx cy bs : Nat) (v : Int × Int) :
    (s.mcCopy cx cy bs v).rleN = s.rleN := by simp only [State.mcCopy]; split <;> rfl
@[simp] theorem State.mcCopy_rleK (s : State) (cx cy bs : Nat) (v : Int × Int) :
    (s.mcCopy cx cy bs v).rleK = s.rleK := by simp only [State.mcCopy]; split <;> rfl
@[simp] theorem State.mcCopy_rleSink (s : State) (cx cy bs : Nat) (v : Int × Int) :
    (s.mcCopy cx cy bs v).rleSink = s.rleSink := by simp only [State.mcCopy]; split <;> rfl
@[simp] theorem State.mcCopy_op (s : State) (cx cy bs : Nat) (v : Int × Int) :
    (s.mcCopy cx cy bs v).op = s.op := by simp only [State.mcCopy]; split <;> rfl
@[simp] theorem State.mcCopy_cx (s : State) (cx cy bs : Nat) (v : Int × Int) :
    (s.mcCopy cx cy bs v).cx = s.cx := by simp only [State.mcCopy]; split <;> rfl
@[simp] theorem State.mcCopy_cy (s : State) (cx cy bs : Nat) (v : Int × Int) :
    (s.mcCopy cx cy bs v).cy = s.cy := by simp only [State.mcCopy]; split <;> rfl
@[simp] theorem State.mcCopy_bs (s : State) (cx cy bs : Nat) (v : Int × Int) :
    (s.mcCopy cx cy bs v).bs = s.bs := by simp only [State.mcCopy]; split <;> rfl
@[simp] theorem State.mcCopy_pend (s : State) (cx cy bs : Nat) (v : Int × Int) :
    (s.mcCopy cx cy bs v).pend = s.pend := by simp only [State.mcCopy]; split <;> rfl
@[simp] theorem State.mcCopy_status (s : State) (cx cy bs : Nat) (v : Int × Int) :
    (s.mcCopy cx cy bs v).status = s.status := by simp only [State.mcCopy]; split <;> rfl
@[simp] theorem State.mcCopy_cause (s : State) (cx cy bs : Nat) (v : Int × Int) :
    (s.mcCopy cx cy bs v).cause = s.cause := by simp only [State.mcCopy]; split <;> rfl
@[simp] theorem State.mcCopy_dst (s : State) (cx cy bs : Nat) (v : Int × Int) :
    (s.mcCopy cx cy bs v).dst = s.dst := by simp only [State.mcCopy]; split <;> rfl
@[simp] theorem State.mcCopy_phase (s : State) (cx cy bs : Nat) (v : Int × Int) :
    (s.mcCopy cx cy bs v).phase = s.phase := by simp only [State.mcCopy]; split <;> rfl
@[simp] theorem State.mcCopy_inbox (s : State) (cx cy bs : Nat) (v : Int × Int) :
    (s.mcCopy cx cy bs v).inbox = s.inbox := by simp only [State.mcCopy]; split <;> rfl
@[simp] theorem State.mcCopy_draws (s : State) (cx cy bs : Nat) (v : Int × Int) :
    (s.mcCopy cx cy bs v).draws = s.draws := by simp only [State.mcCopy]; split <;> rfl

@[simp] theorem State.drawGlyph_life (s : State) (cx cy : Nat) (bs : BlockSize) (g : Nat) (fg bg : Pixel) :
    (s.drawGlyph cx cy bs g fg bg).life = s.life := by simp only [State.drawGlyph]; split <;> rfl
@[simp] theorem State.drawGlyph_w (s : State) (cx cy : Nat) (bs : BlockSize) (g : Nat) (fg bg : Pixel) :
    (s.drawGlyph cx cy bs g fg bg).w = s.w := by simp only [State.drawGlyph]; split <;> rfl
@[simp] theorem State.drawGlyph_h (s : State) (cx cy : Nat) (bs : BlockSize) (g : Nat) (fg bg : Pixel) :
    (s.drawGlyph cx cy bs g fg bg).h = s.h := by simp only [State.drawGlyph]; split <;> rfl
@[simp] theorem State.drawGlyph_aw (s : State) (cx cy : Nat) (bs : BlockSize) (g : Nat) (fg bg : Pixel) :
    (s.drawGlyph cx cy bs g fg bg).aw = s.aw := by simp only [State.drawGlyph]; split <;> rfl
@[simp] theorem State.drawGlyph_ah (s : State) (cx cy : Nat) (bs : BlockSize) (g : Nat) (fg bg : Pixel) :
    (s.drawGlyph cx cy bs g fg bg).ah = s.ah := by simp only [State.drawGlyph]; split <;> rfl
@[simp] theorem State.drawGlyph_scr (s : State) (cx cy : Nat) (bs : BlockSize) (g : Nat) (fg bg : Pixel) :
    (s.drawGlyph cx cy bs g fg bg).scr = s.scr := by simp only [State.drawGlyph]; split <;> rfl
@[simp] theorem State.drawGlyph_inp (s : State) (cx cy : Nat) (bs : BlockSize) (g : Nat) (fg bg : Pixel) :
    (s.drawGlyph cx cy bs g fg bg).inp = s.inp := by simp only [State.drawGlyph]; split <;> rfl
@[simp] theorem State.drawGlyph_size (s : State) (cx cy : Nat) (bs : BlockSize) (g : Nat) (fg bg : Pixel) :
    (s.drawGlyph cx cy bs g fg bg).size = s.size := by simp only [State.drawGlyph]; split <;> rfl
@[simp] theorem State.drawGlyph_pos (s : State) (cx cy : Nat) (bs : BlockSize) (g : Nat) (fg bg : Pixel) :
    (s.drawGlyph cx cy bs g fg bg).pos = s.pos := by simp only [State.drawGlyph]; split <;> rfl
@[simp] theorem State.drawGlyph_hw (s : State) (cx cy : Nat) (bs : BlockSize) (g : Nat) (fg bg : Pixel) :
    (s.drawGlyph cx cy bs g fg bg).hw = s.hw := by simp only [State.drawGlyph]; split <;> rfl
@[simp] theorem State.drawGlyph_hh (s : State) (cx cy : Nat) (bs : BlockSize) (g : Nat) (fg bg : Pixel) :
    (s.drawGlyph cx cy bs g fg bg).hh = s.hh := by simp only [State.drawGlyph]; split <;> rfl
@[simp] theorem State.drawGlyph_seq (s : State) (cx cy : Nat) (bs : BlockSize) (g : Nat) (fg bg : Pixel) :
    (s.drawGlyph cx cy bs g fg bg).seq = s.seq := by simp only [State.drawGlyph]; split <;> rfl
@[simp] theorem State.drawGlyph_subc (s : State) (cx cy : Nat) (bs : BlockSize) (g : Nat) (fg bg : Pixel) :
    (s.drawGlyph cx cy bs g fg bg).subc = s.subc := by simp only [State.drawGlyph]; split <;> rfl
@[simp] theorem State.drawGlyph_rot (s : State) (cx cy : Nat) (bs : BlockSize) (g : Nat) (fg bg : Pixel) :
    (s.drawGlyph cx cy bs g fg bg).rot = s.rot := by simp only [State.drawGlyph]; split <;> rfl
@[simp] theorem State.drawGlyph_scb (s : State) (cx cy : Nat) (bs : BlockSize) (g : Nat) (fg bg : Pixel) :
    (s.drawGlyph cx cy bs g fg bg).scb = s.scb := by simp only [State.drawGlyph]; split <;> rfl
@[simp] theorem State.drawGlyph_bg (s : State) (cx cy : Nat) (bs : BlockSize) (g : Nat) (fg bg : Pixel) :
    (s.drawGlyph cx cy bs g fg bg).bg = s.bg := by simp only [State.drawGlyph]; split <;> rfl
@[simp] theorem State.drawGlyph_cb (s : State) (cx cy : Nat) (bs : BlockSize) (g : Nat) (fg bg : Pixel) :
    (s.drawGlyph cx cy bs g fg bg).cb = s.cb := by simp only [State.drawGlyph]; split <;> rfl
@[simp] theorem State.drawGlyph_cur (s : State) (cx cy : Nat) (bs : BlockSize) (g : Nat) (fg bg : Pixel) :
    (s.drawGlyph cx cy bs g fg bg).cur = s.cur := by simp only [State.drawGlyph]; split <;> rfl
@[simp] theorem State.drawGlyph_prev (s : State) (cx cy : Nat) (bs : BlockSize) (g : Nat) (fg bg : Pixel) :
    (s.drawGlyph cx cy bs g fg bg).prev = s.prev := by simp only [State.drawGlyph]; split <;> rfl
@[simp] theorem State.drawGlyph_ref (s : State) (cx cy : Nat) (bs : BlockSize) (g : Nat) (fg bg : Pixel) :
    (s.drawGlyph cx cy bs g fg bg).ref = s.ref := by simp only [State.drawGlyph]; split <;> rfl
@[simp] theorem State.drawGlyph_rleN (s : State) (cx cy : Nat) (bs : BlockSize) (g : Nat) (fg bg : Pixel) :
    (s.drawGlyph cx cy bs g fg bg).rleN = s.rleN := by simp only [State.drawGlyph]; split <;> rfl
@[simp] theorem State.drawGlyph_rleK (s : State) (cx cy : Nat) (bs : BlockSize) (g : Nat) (fg bg : Pixel) :
    (s.drawGlyph cx cy bs g fg bg).rleK = s.rleK := by simp only [State.drawGlyph]; split <;> rfl
@[simp] theorem State.drawGlyph_rleSink (s : State) (cx cy : Nat) (bs : BlockSize) (g : Nat) (fg bg : Pixel) :
    (s.drawGlyph cx cy bs g fg bg).rleSink = s.rleSink := by simp only [State.drawGlyph]; split <;> rfl
@[simp] theorem State.drawGlyph_op (s : State) (cx cy : Nat) (bs : BlockSize) (g : Nat) (fg bg : Pixel) :
    (s.drawGlyph cx cy bs g fg bg).op = s.op := by simp only [State.drawGlyph]; split <;> rfl
@[simp] theorem State.drawGlyph_cx (s : State) (cx cy : Nat) (bs : BlockSize) (g : Nat) (fg bg : Pixel) :
    (s.drawGlyph cx cy bs g fg bg).cx = s.cx := by simp only [State.drawGlyph]; split <;> rfl
@[simp] theorem State.drawGlyph_cy (s : State) (cx cy : Nat) (bs : BlockSize) (g : Nat) (fg bg : Pixel) :
    (s.drawGlyph cx cy bs g fg bg).cy = s.cy := by simp only [State.drawGlyph]; split <;> rfl
@[simp] theorem State.drawGlyph_bs (s : State) (cx cy : Nat) (bs : BlockSize) (g : Nat) (fg bg : Pixel) :
    (s.drawGlyph cx cy bs g fg bg).bs = s.bs := by simp only [State.drawGlyph]; split <;> rfl
@[simp] theorem State.drawGlyph_pend (s : State) (cx cy : Nat) (bs : BlockSize) (g : Nat) (fg bg : Pixel) :
    (s.drawGlyph cx cy bs g fg bg).pend = s.pend := by simp only [State.drawGlyph]; split <;> rfl
@[simp] theorem State.drawGlyph_status (s : State) (cx cy : Nat) (bs : BlockSize) (g : Nat) (fg bg : Pixel) :
    (s.drawGlyph cx cy bs g fg bg).status = s.status := by simp only [State.drawGlyph]; split <;> rfl
@[simp] theorem State.drawGlyph_cause (s : State) (cx cy : Nat) (bs : BlockSize) (g : Nat) (fg bg : Pixel) :
    (s.drawGlyph cx cy bs g fg bg).cause = s.cause := by simp only [State.drawGlyph]; split <;> rfl
@[simp] theorem State.drawGlyph_dst (s : State) (cx cy : Nat) (bs : BlockSize) (g : Nat) (fg bg : Pixel) :
    (s.drawGlyph cx cy bs g fg bg).dst = s.dst := by simp only [State.drawGlyph]; split <;> rfl
@[simp] theorem State.drawGlyph_phase (s : State) (cx cy : Nat) (bs : BlockSize) (g : Nat) (fg bg : Pixel) :
    (s.drawGlyph cx cy bs g fg bg).phase = s.phase := by simp only [State.drawGlyph]; split <;> rfl
@[simp] theorem State.drawGlyph_inbox (s : State) (cx cy : Nat) (bs : BlockSize) (g : Nat) (fg bg : Pixel) :
    (s.drawGlyph cx cy bs g fg bg).inbox = s.inbox := by simp only [State.drawGlyph]; split <;> rfl
@[simp] theorem State.drawGlyph_draws (s : State) (cx cy : Nat) (bs : BlockSize) (g : Nat) (fg bg : Pixel) :
    (s.drawGlyph cx cy bs g fg bg).draws = s.draws := by simp only [State.drawGlyph]; split <;> rfl

@[simp] theorem State.emitBytes_life (s : State) (bytes : List Byte) :
    (s.emitBytes bytes).life = s.life := by simp only [State.emitBytes]; split <;> rfl
@[simp] theorem State.emitBytes_w (s : State) (bytes : List Byte) :
    (s.emitBytes bytes).w = s.w := by simp only [State.emitBytes]; split <;> rfl
@[simp] theorem State.emitBytes_h (s : State) (bytes : List Byte) :
    (s.emitBytes bytes).h = s.h := by simp only [State.emitBytes]; split <;> rfl
@[simp] theorem State.emitBytes_aw (s : State) (bytes : List Byte) :
    (s.emitBytes bytes).aw = s.aw := by simp only [State.emitBytes]; split <;> rfl
@[simp] theorem State.emitBytes_ah (s : State) (bytes : List Byte) :
    (s.emitBytes bytes).ah = s.ah := by simp only [State.emitBytes]; split <;> rfl
@[simp] theorem State.emitBytes_inp (s : State) (bytes : List Byte) :
    (s.emitBytes bytes).inp = s.inp := by simp only [State.emitBytes]; split <;> rfl
@[simp] theorem State.emitBytes_size (s : State) (bytes : List Byte) :
    (s.emitBytes bytes).size = s.size := by simp only [State.emitBytes]; split <;> rfl
@[simp] theorem State.emitBytes_pos (s : State) (bytes : List Byte) :
    (s.emitBytes bytes).pos = s.pos := by simp only [State.emitBytes]; split <;> rfl
@[simp] theorem State.emitBytes_hw (s : State) (bytes : List Byte) :
    (s.emitBytes bytes).hw = s.hw := by simp only [State.emitBytes]; split <;> rfl
@[simp] theorem State.emitBytes_hh (s : State) (bytes : List Byte) :
    (s.emitBytes bytes).hh = s.hh := by simp only [State.emitBytes]; split <;> rfl
@[simp] theorem State.emitBytes_seq (s : State) (bytes : List Byte) :
    (s.emitBytes bytes).seq = s.seq := by simp only [State.emitBytes]; split <;> rfl
@[simp] theorem State.emitBytes_subc (s : State) (bytes : List Byte) :
    (s.emitBytes bytes).subc = s.subc := by simp only [State.emitBytes]; split <;> rfl
@[simp] theorem State.emitBytes_rot (s : State) (bytes : List Byte) :
    (s.emitBytes bytes).rot = s.rot := by simp only [State.emitBytes]; split <;> rfl
@[simp] theorem State.emitBytes_scb (s : State) (bytes : List Byte) :
    (s.emitBytes bytes).scb = s.scb := by simp only [State.emitBytes]; split <;> rfl
@[simp] theorem State.emitBytes_bg (s : State) (bytes : List Byte) :
    (s.emitBytes bytes).bg = s.bg := by simp only [State.emitBytes]; split <;> rfl
@[simp] theorem State.emitBytes_cb (s : State) (bytes : List Byte) :
    (s.emitBytes bytes).cb = s.cb := by simp only [State.emitBytes]; split <;> rfl
@[simp] theorem State.emitBytes_cur (s : State) (bytes : List Byte) :
    (s.emitBytes bytes).cur = s.cur := by simp only [State.emitBytes]; split <;> rfl
@[simp] theorem State.emitBytes_prev (s : State) (bytes : List Byte) :
    (s.emitBytes bytes).prev = s.prev := by simp only [State.emitBytes]; split <;> rfl
@[simp] theorem State.emitBytes_ref (s : State) (bytes : List Byte) :
    (s.emitBytes bytes).ref = s.ref := by simp only [State.emitBytes]; split <;> rfl
@[simp] theorem State.emitBytes_rleN (s : State) (bytes : List Byte) :
    (s.emitBytes bytes).rleN = s.rleN := by simp only [State.emitBytes]; split <;> rfl
@[simp] theorem State.emitBytes_rleK (s : State) (bytes : List Byte) :
    (s.emitBytes bytes).rleK = s.rleK := by simp only [State.emitBytes]; split <;> rfl
@[simp] theorem State.emitBytes_rleSink (s : State) (bytes : List Byte) :
    (s.emitBytes bytes).rleSink = s.rleSink := by simp only [State.emitBytes]; split <;> rfl
@[simp] theorem State.emitBytes_op (s : State) (bytes : List Byte) :
    (s.emitBytes bytes).op = s.op := by simp only [State.emitBytes]; split <;> rfl
@[simp] theorem State.emitBytes_cx (s : State) (bytes : List Byte) :
    (s.emitBytes bytes).cx = s.cx := by simp only [State.emitBytes]; split <;> rfl
@[simp] theorem State.emitBytes_cy (s : State) (bytes : List Byte) :
    (s.emitBytes bytes).cy = s.cy := by simp only [State.emitBytes]; split <;> rfl
@[simp] theorem State.emitBytes_bs (s : State) (bytes : List Byte) :
    (s.emitBytes bytes).bs = s.bs := by simp only [State.emitBytes]; split <;> rfl
@[simp] theorem State.emitBytes_pend (s : State) (bytes : List Byte) :
    (s.emitBytes bytes).pend = s.pend := by simp only [State.emitBytes]; split <;> rfl
@[simp] theorem State.emitBytes_status (s : State) (bytes : List Byte) :
    (s.emitBytes bytes).status = s.status := by simp only [State.emitBytes]; split <;> rfl
@[simp] theorem State.emitBytes_cause (s : State) (bytes : List Byte) :
    (s.emitBytes bytes).cause = s.cause := by simp only [State.emitBytes]; split <;> rfl
@[simp] theorem State.emitBytes_diag (s : State) (bytes : List Byte) :
    (s.emitBytes bytes).diag = s.diag := by simp only [State.emitBytes]; split <;> rfl
@[simp] theorem State.emitBytes_dst (s : State) (bytes : List Byte) :
    (s.emitBytes bytes).dst = s.dst := by simp only [State.emitBytes]; split <;> rfl
@[simp] theorem State.emitBytes_phase (s : State) (bytes : List Byte) :
    (s.emitBytes bytes).phase = s.phase := by simp only [State.emitBytes]; split <;> rfl
@[simp] theorem State.emitBytes_inbox (s : State) (bytes : List Byte) :
    (s.emitBytes bytes).inbox = s.inbox := by simp only [State.emitBytes]; split <;> rfl
@[simp] theorem State.emitBytes_draws (s : State) (bytes : List Byte) :
    (s.emitBytes bytes).draws = s.draws := by simp only [State.emitBytes]; split <;> rfl

@[simp] theorem State.keyframeClear_life (s : State) :
    s.keyframeClear.life = s.life := by
  simp only [State.keyframeClear]; split <;> (try split) <;> rfl
@[simp] theorem State.keyframeClear_w (s : State) :
    s.keyframeClear.w = s.w := by
  simp only [State.keyframeClear]; split <;> (try split) <;> rfl
@[simp] theorem State.keyframeClear_h (s : State) :
    s.keyframeClear.h = s.h := by
  simp only [State.keyframeClear]; split <;> (try split) <;> rfl
@[simp] theorem State.keyframeClear_aw (s : State) :
    s.keyframeClear.aw = s.aw := by
  simp only [State.keyframeClear]; split <;> (try split) <;> rfl
@[simp] theorem State.keyframeClear_ah (s : State) :
    s.keyframeClear.ah = s.ah := by
  simp only [State.keyframeClear]; split <;> (try split) <;> rfl
@[simp] theorem State.keyframeClear_scr (s : State) :
    s.keyframeClear.scr = s.scr := by
  simp only [State.keyframeClear]; split <;> (try split) <;> rfl
@[simp] theorem State.keyframeClear_inp (s : State) :
    s.keyframeClear.inp = s.inp := by
  simp only [State.keyframeClear]; split <;> (try split) <;> rfl
@[simp] theorem State.keyframeClear_size (s : State) :
    s.keyframeClear.size = s.size := by
  simp only [State.keyframeClear]; split <;> (try split) <;> rfl
@[simp] theorem State.keyframeClear_pos (s : State) :
    s.keyframeClear.pos = s.pos := by
  simp only [State.keyframeClear]; split <;> (try split) <;> rfl
@[simp] theorem State.keyframeClear_hw (s : State) :
    s.keyframeClear.hw = s.hw := by
  simp only [State.keyframeClear]; split <;> (try split) <;> rfl
@[simp] theorem State.keyframeClear_hh (s : State) :
    s.keyframeClear.hh = s.hh := by
  simp only [State.keyframeClear]; split <;> (try split) <;> rfl
@[simp] theorem State.keyframeClear_seq (s : State) :
    s.keyframeClear.seq = s.seq := by
  simp only [State.keyframeClear]; split <;> (try split) <;> rfl
@[simp] theorem State.keyframeClear_subc (s : State) :
    s.keyframeClear.subc = s.subc := by
  simp only [State.keyframeClear]; split <;> (try split) <;> rfl
@[simp] theorem State.keyframeClear_rot (s : State) :
    s.keyframeClear.rot = s.rot := by
  simp only [State.keyframeClear]; split <;> (try split) <;> rfl
@[simp] theorem State.keyframeClear_scb (s : State) :
    s.keyframeClear.scb = s.scb := by
  simp only [State.keyframeClear]; split <;> (try split) <;> rfl
@[simp] theorem State.keyframeClear_bg (s : State) :
    s.keyframeClear.bg = s.bg := by
  simp only [State.keyframeClear]; split <;> (try split) <;> rfl
@[simp] theorem State.keyframeClear_cb (s : State) :
    s.keyframeClear.cb = s.cb := by
  simp only [State.keyframeClear]; split <;> (try split) <;> rfl
@[simp] theorem State.keyframeClear_cur (s : State) :
    s.keyframeClear.cur = s.cur := by
  simp only [State.keyframeClear]; split <;> (try split) <;> rfl
@[simp] theorem State.keyframeClear_prev (s : State) :
    s.keyframeClear.prev = s.prev := by
  simp only [State.keyframeClear]; split <;> (try split) <;> rfl
@[simp] theorem State.keyframeClear_ref (s : State) :
    s.keyframeClear.ref = s.ref := by
  simp only [State.keyframeClear]; split <;> (try split) <;> rfl
@[simp] theorem State.keyframeClear_rleN (s : State) :
    s.keyframeClear.rleN = s.rleN := by
  simp only [State.keyframeClear]; split <;> (try split) <;> rfl
@[simp] theorem State.keyframeClear_rleK (s : State) :
    s.keyframeClear.rleK = s.rleK := by
  simp only [State.keyframeClear]; split <;> (try split) <;> rfl
@[simp] theorem State.keyframeClear_rleSink (s : State) :
    s.keyframeClear.rleSink = s.rleSink := by
  simp only [State.keyframeClear]; split <;> (try split) <;> rfl
@[simp] theorem State.keyframeClear_op (s : State) :
    s.keyframeClear.op = s.op := by
  simp only [State.keyframeClear]; split <;> (try split) <;> rfl
@[simp] theorem State.keyframeClear_cx (s : State) :
    s.keyframeClear.cx = s.cx := by
  simp only [State.keyframeClear]; split <;> (try split) <;> rfl
@[simp] theorem State.keyframeClear_cy (s : State) :
    s.keyframeClear.cy = s.cy := by
  simp only [State.keyframeClear]; split <;> (try split) <;> rfl
@[simp] theorem State.keyframeClear_bs (s : State) :
    s.keyframeClear.bs = s.bs := by
  simp only [State.keyframeClear]; split <;> (try split) <;> rfl
@[simp] theorem State.keyframeClear_pend (s : State) :
    s.keyframeClear.pend = s.pend := by
  simp only [State.keyframeClear]; split <;> (try split) <;> rfl
@[simp] theorem State.keyframeClear_status (s : State) :
    s.keyframeClear.status = s.status := by
  simp only [State.keyframeClear]; split <;> (try split) <;> rfl
@[simp] theorem State.keyframeClear_cause (s : State) :
    s.keyframeClear.cause = s.cause := by
  simp only [State.keyframeClear]; split <;> (try split) <;> rfl
@[simp] theorem State.keyframeClear_diag (s : State) :
    s.keyframeClear.diag = s.diag := by
  simp only [State.keyframeClear]; split <;> (try split) <;> rfl
@[simp] theorem State.keyframeClear_dst (s : State) :
    s.keyframeClear.dst = s.dst := by
  simp only [State.keyframeClear]; split <;> (try split) <;> rfl
@[simp] theorem State.keyframeClear_phase (s : State) :
    s.keyframeClear.phase = s.phase := by
  simp only [State.keyframeClear]; split <;> (try split) <;> rfl
@[simp] theorem State.keyframeClear_inbox (s : State) :
    s.keyframeClear.inbox = s.inbox := by
  simp only [State.keyframeClear]; split <;> (try split) <;> rfl
@[simp] theorem State.keyframeClear_draws (s : State) :
    s.keyframeClear.draws = s.draws := by
  simp only [State.keyframeClear]; split <;> (try split) <;> rfl

@[simp] theorem State.rotate_life (s : State) :
    s.rotate.life = s.life := by simp [State.rotate]
@[simp] theorem State.rotate_w (s : State) :
    s.rotate.w = s.w := by simp [State.rotate]
@[simp] theorem State.rotate_h (s : State) :
    s.rotate.h = s.h := by simp [State.rotate]
@[simp] theorem State.rotate_aw (s : State) :
    s.rotate.aw = s.aw := by simp [State.rotate]
@[simp] theorem State.rotate_ah (s : State) :
    s.rotate.ah = s.ah := by simp [State.rotate]
@[simp] theorem State.rotate_fb (s : State) :
    s.rotate.fb = s.fb := by simp [State.rotate]
@[simp] theorem State.rotate_scr (s : State) :
    s.rotate.scr = s.scr := by simp [State.rotate]
@[simp] theorem State.rotate_inp (s : State) :
    s.rotate.inp = s.inp := by simp [State.rotate]
@[simp] theorem State.rotate_size (s : State) :
    s.rotate.size = s.size := by simp [State.rotate]
@[simp] theorem State.rotate_pos (s : State) :
    s.rotate.pos = s.pos := by simp [State.rotate]
@[simp] theorem State.rotate_hw (s : State) :
    s.rotate.hw = s.hw := by simp [State.rotate]
@[simp] theorem State.rotate_hh (s : State) :
    s.rotate.hh = s.hh := by simp [State.rotate]
@[simp] theorem State.rotate_seq (s : State) :
    s.rotate.seq = s.seq := by simp [State.rotate]
@[simp] theorem State.rotate_subc (s : State) :
    s.rotate.subc = s.subc := by simp [State.rotate]
@[simp] theorem State.rotate_rot (s : State) :
    s.rotate.rot = s.rot := by simp [State.rotate]
@[simp] theorem State.rotate_scb (s : State) :
    s.rotate.scb = s.scb := by simp [State.rotate]
@[simp] theorem State.rotate_bg (s : State) :
    s.rotate.bg = s.bg := by simp [State.rotate]
@[simp] theorem State.rotate_cb (s : State) :
    s.rotate.cb = s.cb := by simp [State.rotate]
@[simp] theorem State.rotate_prev (s : State) :
    s.rotate.prev = if s.rot = 2 then s.ref else s.prev := by simp [State.rotate]
@[simp] theorem State.rotate_rleN (s : State) :
    s.rotate.rleN = s.rleN := by simp [State.rotate]
@[simp] theorem State.rotate_rleK (s : State) :
    s.rotate.rleK = s.rleK := by simp [State.rotate]
@[simp] theorem State.rotate_rleSink (s : State) :
    s.rotate.rleSink = s.rleSink := by simp [State.rotate]
@[simp] theorem State.rotate_op (s : State) :
    s.rotate.op = s.op := by simp [State.rotate]
@[simp] theorem State.rotate_cx (s : State) :
    s.rotate.cx = s.cx := by simp [State.rotate]
@[simp] theorem State.rotate_cy (s : State) :
    s.rotate.cy = s.cy := by simp [State.rotate]
@[simp] theorem State.rotate_bs (s : State) :
    s.rotate.bs = s.bs := by simp [State.rotate]
@[simp] theorem State.rotate_pend (s : State) :
    s.rotate.pend = s.pend := by simp [State.rotate]
@[simp] theorem State.rotate_status (s : State) :
    s.rotate.status = s.status := by simp [State.rotate]
@[simp] theorem State.rotate_cause (s : State) :
    s.rotate.cause = s.cause := by simp [State.rotate]
@[simp] theorem State.rotate_diag (s : State) :
    s.rotate.diag = s.diag := by simp [State.rotate]
@[simp] theorem State.rotate_dst (s : State) :
    s.rotate.dst = s.dst := by simp [State.rotate]
@[simp] theorem State.rotate_phase (s : State) :
    s.rotate.phase = s.phase := by simp [State.rotate]
@[simp] theorem State.rotate_inbox (s : State) :
    s.rotate.inbox = s.inbox := by simp [State.rotate]
@[simp] theorem State.rotate_draws (s : State) :
    s.rotate.draws = s.draws := by simp [State.rotate]

@[simp] theorem State.completeDecode_life (s : State) :
    s.completeDecode.life = s.life := by simp [State.completeDecode]
@[simp] theorem State.completeDecode_w (s : State) :
    s.completeDecode.w = s.w := by simp [State.completeDecode]
@[simp] theorem State.completeDecode_h (s : State) :
    s.completeDecode.h = s.h := by simp [State.completeDecode]
@[simp] theorem State.completeDecode_aw (s : State) :
    s.completeDecode.aw = s.aw := by simp [State.completeDecode]
@[simp] theorem State.completeDecode_ah (s : State) :
    s.completeDecode.ah = s.ah := by simp [State.completeDecode]
@[simp] theorem State.completeDecode_fb (s : State) :
    s.completeDecode.fb = s.fb := by simp [State.completeDecode]
@[simp] theorem State.completeDecode_scr (s : State) :
    s.completeDecode.scr = s.scr := by simp [State.completeDecode]
@[simp] theorem State.completeDecode_inp (s : State) :
    s.completeDecode.inp = [] := by simp [State.completeDecode]
@[simp] theorem State.completeDecode_size (s : State) :
    s.completeDecode.size = 0 := by simp [State.completeDecode]
@[simp] theorem State.completeDecode_pos (s : State) :
    s.completeDecode.pos = s.pos := by simp [State.completeDecode]
@[simp] theorem State.completeDecode_hw (s : State) :
    s.completeDecode.hw = s.hw := by simp [State.completeDecode]
@[simp] theorem State.completeDecode_hh (s : State) :
    s.completeDecode.hh = s.hh := by simp [State.completeDecode]
@[simp] theorem State.completeDecode_seq (s : State) :
    s.completeDecode.seq = s.seq := by simp [State.completeDecode]
@[simp] theorem State.completeDecode_subc (s : State) :
    s.completeDecode.subc = s.subc := by simp [State.completeDecode]
@[simp] theorem State.completeDecode_rot (s : State) :
    s.completeDecode.rot = s.rot := by simp [State.completeDecode]
@[simp] theorem State.completeDecode_scb (s : State) :
    s.completeDecode.scb = s.scb := by simp [State.completeDecode]
@[simp] theorem State.completeDecode_bg (s : State) :
    s.completeDecode.bg = s.bg := by simp [State.completeDecode]
@[simp] theorem State.completeDecode_cb (s : State) :
    s.completeDecode.cb = s.cb := by simp [State.completeDecode]
@[simp] theorem State.completeDecode_prev (s : State) :
    s.completeDecode.prev = if s.rot = 2 then s.ref else s.prev := State.rotate_prev s.copyOut
@[simp] theorem State.completeDecode_rleN (s : State) :
    s.completeDecode.rleN = s.rleN := by simp [State.completeDecode]
@[simp] theorem State.completeDecode_rleK (s : State) :
    s.completeDecode.rleK = s.rleK := by simp [State.completeDecode]
@[simp] theorem State.completeDecode_rleSink (s : State) :
    s.completeDecode.rleSink = s.rleSink := by simp [State.completeDecode]
@[simp] theorem State.completeDecode_op (s : State) :
    s.completeDecode.op = s.op := by simp [State.completeDecode]
@[simp] theorem State.completeDecode_cx (s : State) :
    s.completeDecode.cx = s.cx := by simp [State.completeDecode]
@[simp] theorem State.completeDecode_cy (s : State) :
    s.completeDecode.cy = s.cy := by simp [State.completeDecode]
@[simp] theorem State.completeDecode_bs (s : State) :
    s.completeDecode.bs = s.bs := by simp [State.completeDecode]
@[simp] theorem State.completeDecode_pend (s : State) :
    s.completeDecode.pend = s.pend := by simp [State.completeDecode]
@[simp] theorem State.completeDecode_status (s : State) :
    s.completeDecode.status = .ok := by simp [State.completeDecode]
@[simp] theorem State.completeDecode_cause (s : State) :
    s.completeDecode.cause = s.cause := by simp [State.completeDecode]
@[simp] theorem State.completeDecode_diag (s : State) :
    s.completeDecode.diag = s.diag := by simp [State.completeDecode]
@[simp] theorem State.completeDecode_dst (s : State) :
    s.completeDecode.dst = s.copyOut.dst := by simp [State.completeDecode]
@[simp] theorem State.completeDecode_phase (s : State) :
    s.completeDecode.phase = .idle := by simp [State.completeDecode]
@[simp] theorem State.completeDecode_inbox (s : State) :
    s.completeDecode.inbox = s.inbox := by simp [State.completeDecode]
@[simp] theorem State.completeDecode_draws (s : State) :
    s.completeDecode.draws = s.draws := by simp [State.completeDecode]

end Sys2Proof.Machine
end

