-- ==== Sys2Proof/Laws/Checks.lean ====
section
/-! SUPPORT. Each check of the model as the proposition it decides. -/

namespace Sys2Proof.Machine

@[simp] theorem inBlock_iff (cx cy n x y : Nat) :
    inBlock cx cy n x y = true ↔ cx ≤ x ∧ x < cx + n ∧ cy ≤ y ∧ y < cy + n := decide_eq_true_iff

@[simp] theorem blockCovers_iff (b : Block) (x y : Nat) :
    blockCovers b x y = true ↔ b.cx ≤ x ∧ x < b.cx + b.bs.toNat ∧ b.cy ≤ y ∧ y < b.cy + b.bs.toNat := inBlock_iff _ _ _ _ _

@[simp] theorem inBounds_iff (aw ah : Nat) (sx sy : Int) (bs : Nat) :
    inBounds aw ah sx sy bs = true ↔ 0 ≤ sx ∧ sx + bs ≤ aw ∧ 0 ≤ sy ∧ sy + bs ≤ ah := decide_eq_true_iff

@[simp] theorem blockInFrame_iff (aw ah : Nat) (b : Block) :
    blockInFrame aw ah b = true ↔ b.cx + b.bs.toNat ≤ aw ∧ b.cy + b.bs.toNat ≤ ah := by
  unfold blockInFrame
  rw [Bool.and_eq_true, decide_eq_true_iff, decide_eq_true_iff]

@[simp] theorem blockOk_iff (aw ah : Nat) (b : Block) :
    blockOk aw ah b = true ↔
      (b.cx + b.bs.toNat ≤ aw ∧ b.cy + b.bs.toNat ≤ ah) ∧ b.cx % b.bs.toNat = 0 ∧ b.cy % b.bs.toNat = 0 := by
  unfold blockOk
  rw [Bool.and_eq_true, Bool.and_eq_true, blockInFrame_iff, beq_iff_eq, beq_iff_eq, and_assoc]

@[simp] theorem dimensionOk_iff (n : Nat) : dimensionOk n = true ↔ 1 ≤ n ∧ n ≤ Config.maxDim := by
  unfold dimensionOk
  rw [Bool.and_eq_true, decide_eq_true_iff, decide_eq_true_iff]

@[simp] theorem dimensionsMatch_iff (s : State) : s.dimensionsMatch = true ↔ s.hw.toNat = s.w ∧ s.hh.toNat = s.h := by
  unfold State.dimensionsMatch
  rw [Bool.and_eq_true, decide_eq_true_iff, decide_eq_true_iff]

@[simp] theorem dimensionsOk_iff (s : State) :
    s.dimensionsOk = true ↔
      dimensionOk s.w = true ∧ dimensionOk s.h = true ∧ s.aw = align8 s.w ∧ s.ah = align8 s.h := by
  unfold State.dimensionsOk
  rw [Bool.and_eq_true, Bool.and_eq_true, Bool.and_eq_true, beq_iff_eq, beq_iff_eq, and_assoc, and_assoc]

@[simp] theorem rolesOk_iff (s : State) : s.rolesOk = true ↔ s.cur ≠ s.prev ∧ s.cur ≠ s.ref ∧ s.prev ≠ s.ref := by
  unfold State.rolesOk
  rw [Bool.and_eq_true, Bool.and_eq_true, bne_iff_ne, bne_iff_ne, bne_iff_ne, and_assoc]

@[simp] theorem runningOk_iff (s : State) :
    s.runningOk = true ↔
      s.life = .ready ∧ s.status = .busy ∧ s.cause = .none ∧ (s.hw.toNat = s.w ∧ s.hh.toNat = s.h) ∧
        2 * (s.w * s.h) ≤ s.dst.length := by
  unfold State.runningOk
  rw [Bool.and_eq_true, Bool.and_eq_true, Bool.and_eq_true, Bool.and_eq_true, beq_iff_eq, beq_iff_eq, beq_iff_eq,
    dimensionsMatch_iff, decide_eq_true_iff, and_assoc, and_assoc, and_assoc]

theorem restingOk_iff (s : State) :
    s.restingOk = true ↔ s.status ≠ .busy ∧ (s.status = .fail ↔ s.cause ≠ .none) := by
  unfold State.restingOk
  rw [Bool.and_eq_true, bne_iff_ne, beq_iff_eq, Bool.eq_iff_iff, beq_iff_eq, bne_iff_ne]

@[simp] theorem inputAbsent_iff (s : State) : s.inputAbsent = true ↔ s.inp = [] ∧ s.size = 0 := by
  unfold State.inputAbsent
  rw [Bool.and_eq_true, List.isEmpty_iff, beq_iff_eq]

theorem rleOk_iff (s : State) :
    s.rleOk = true ↔
      s.rleK ≤ s.rleN ∧
        (s.phase = .runs →
          (s.rleSink = .curpix → s.rleN = 2 * (s.w * s.h)) ∧ (s.rleSink = .scr → s.rleN = s.w * s.h)) := by
  unfold State.rleOk
  cases s.phase <;> cases s.rleSink <;> simp

theorem pendOk_iff (s : State) :
    s.pendOk = true ↔ (s.phase = .blocks ∨ s.pend = []) ∧ ∀ b ∈ s.pend, blockOk s.aw s.ah b = true := by
  unfold State.pendOk
  rw [Bool.and_eq_true, Bool.or_eq_true, beq_iff_eq, List.isEmpty_iff, List.all_eq_true]

/-- The aligned size is the least multiple of 8 not below the size (R7). -/
theorem align8_spec (n : Nat) : align8 n % 8 = 0 ∧ n ≤ align8 n ∧ align8 n < n + 8 := by
  unfold align8
  omega

/-- The blocks of the aligned frame (R120). -/
theorem mem_topLevelBlocks {aw ah : Nat} {b : Block} :
    b ∈ topLevelBlocks aw ah ↔ ∃ x y, x < aw / 8 ∧ y < ah / 8 ∧ b = ⟨8 * x, 8 * y, .s8⟩ := by
  simp only [topLevelBlocks, List.mem_flatMap, List.mem_map, List.mem_range]
  constructor
  · rintro ⟨y, hy, x, hx, rfl⟩
    exact ⟨x, y, hx, hy, rfl⟩
  · rintro ⟨x, y, hx, hy, rfl⟩
    exact ⟨y, hy, x, hx, rfl⟩

theorem topLevelBlocks_ok {aw ah : Nat} {b : Block} (h : b ∈ topLevelBlocks aw ah) : blockOk aw ah b = true := by
  obtain ⟨x, y, hx, hy, rfl⟩ := mem_topLevelBlocks.1 h
  rw [blockOk_iff]
  simp only [BlockSize.toNat]
  omega

/-- The quadrants of an aligned block of the frame are aligned blocks of the frame (R134). -/
theorem quadrants_ok {aw ah : Nat} {b : Block} (h : blockOk aw ah b = true) (hs : b.bs ≠ .s2) :
    ∀ q ∈ quadrants b, blockOk aw ah q = true := by
  obtain ⟨cx, cy, bs⟩ := b
  intro q hq
  rw [blockOk_iff] at h ⊢
  cases bs with
  | s2 => exact absurd rfl hs
  | _ =>
    simp only [quadrants, halfSize, BlockSize.toNat, List.mem_cons, List.not_mem_nil, or_false] at hq h
    rcases hq with rfl | rfl | rfl | rfl <;> simp only [BlockSize.toNat] <;> omega

end Sys2Proof.Machine
end

