-- ==== Sys2Proof/Laws/Buffers.lean ====
section
/-! SUPPORT. Read after write for the frame buffers: what one pixel of one buffer is after each operation that writes
pixels (41_glyph_and_blitter.md R86, 43_frame_sequencer.md R104). -/

namespace Sys2Proof.Machine

@[simp] theorem FrameBuffers.get_set_same (f : FrameBuffers) (b : BufId) (buf : List Pixel) :
    (f.set b buf).get b = buf := by cases b <;> rfl

theorem FrameBuffers.get_set_ne (f : FrameBuffers) {b c : BufId} (buf : List Pixel) (h : c ≠ b) :
    (f.set b buf).get c = f.get c := by
  cases b <;> cases c <;> first | rfl | exact absurd rfl h

theorem FrameBuffers.get_set (f : FrameBuffers) (b c : BufId) (buf : List Pixel) :
    (f.set b buf).get c = if c = b then buf else f.get c := by
  split
  · next h => subst h; simp
  · next h => exact f.get_set_ne buf h

@[simp] theorem length_rewriteBuffer (aw : Nat) (f : Nat → Nat → Pixel → Pixel) (buf : List Pixel) :
    (rewriteBuffer aw f buf).length = buf.length := by simp [rewriteBuffer]

theorem getD_rewriteBuffer (aw : Nat) (f : Nat → Nat → Pixel → Pixel) (buf : List Pixel) {i : Nat}
    (h : i < buf.length) :
    (rewriteBuffer aw f buf).getD i 0 = f (i % aw) (i / aw) (buf.getD i 0) := by
  simp [rewriteBuffer, List.getD_eq_getElem?_getD, h]

/-- The index of a pixel inside its row determines its coordinates. -/
theorem index_coordinates {aw x y : Nat} (hx : x < aw) : (y * aw + x) % aw = x ∧ (y * aw + x) / aw = y := by
  constructor
  · rw [Nat.mul_comm, Nat.mul_add_mod]; exact Nat.mod_eq_of_lt hx
  · rw [Nat.mul_comm, Nat.mul_add_div (by omega), Nat.div_eq_of_lt hx, Nat.add_zero]

/-- A pixel of the frame has an index inside the buffer. -/
theorem index_lt {aw ah x y : Nat} (hx : x < aw) (hy : y < ah) : y * aw + x < aw * ah := by
  have : (y + 1) * aw ≤ ah * aw := Nat.mul_le_mul_right _ hy
  rw [Nat.mul_comm aw ah]
  rw [Nat.add_mul, Nat.one_mul] at this
  omega

/-- One pixel after a buffer is rewritten. -/
theorem pixel_rewrite (s : State) (b c : BufId) (f : Nat → Nat → Pixel → Pixel) {x y : Nat}
    (hlen : (s.fb.get b).length = s.aw * s.ah) (hx : x < s.aw) (hy : y < s.ah) :
    (s.rewrite b f).pixel c x y = if c = b then f x y (s.pixel b x y) else s.pixel c x y := by
  have hi : y * s.aw + x < (s.fb.get b).length := hlen ▸ index_lt hx hy
  unfold State.pixel
  rw [State.rewrite_fb, State.rewrite_aw, FrameBuffers.get_set]
  split
  · rw [getD_rewriteBuffer _ _ _ hi, (index_coordinates hx).1, (index_coordinates hx).2]
  · rfl

/-- The pixels of a buffer do not depend on the other registers. -/
theorem pixel_congr {s t : State} (hfb : t.fb = s.fb) (haw : t.aw = s.aw) (b : BufId) (x y : Nat) :
    t.pixel b x y = s.pixel b x y := by simp [State.pixel, hfb, haw]

/-- One pixel after a block is written (R86). -/
theorem pixel_writeBlock (s : State) (cx cy n : Nat) (val : Nat → Nat → Pixel) (c : BufId) {x y : Nat}
    (hlen : (s.fb.get s.cur).length = s.aw * s.ah) (hx : x < s.aw) (hy : y < s.ah) :
    (s.writeBlock cx cy n val).pixel c x y =
      if c = s.cur ∧ inBlock cx cy n x y = true then val (x - cx) (y - cy) else s.pixel c x y := by
  unfold State.writeBlock
  rw [pixel_rewrite s s.cur c _ hlen hx hy]
  by_cases hc : c = s.cur
  · subst hc; by_cases hb : inBlock cx cy n x y = true <;> simp [hb]
  · simp [hc]

/-- One pixel after the whole image is written (R104). -/
theorem pixel_writeImage (s : State) (val : Nat → Pixel) (c : BufId) {x y : Nat}
    (hlen : (s.fb.get s.cur).length = s.aw * s.ah) (hx : x < s.aw) (hy : y < s.ah) :
    (s.writeImage val).pixel c x y =
      if c = s.cur then
        match pixelSlot Config.pixelMap s.w s.h s.aw x y with
        | some j => val j
        | none => s.pixel c x y
      else s.pixel c x y := by
  unfold State.writeImage
  rw [pixel_rewrite s s.cur c _ hlen hx hy]
  by_cases hc : c = s.cur
  · subst hc; cases pixelSlot Config.pixelMap s.w s.h s.aw x y <;> rfl
  · simp [hc]

/-- Clearing and copying whole buffers (R84, R85). -/
theorem pixel_clearFrame (s : State) (b c : BufId) (v : Pixel) {x y : Nat}
    (hlen : (s.fb.get b).length = s.aw * s.ah) (hx : x < s.aw) (hy : y < s.ah) :
    (s.clearFrame b v).pixel c x y = if c = b then v else s.pixel c x y :=
  pixel_rewrite s b c _ hlen hx hy

/-- Clearing a buffer keeps every buffer's size. -/
theorem clearFrame_sizes {s : State} (h : ∀ c, (s.fb.get c).length = s.aw * s.ah) (b : BufId) (v : Pixel) (c : BufId) :
    ((s.clearFrame b v).fb.get c).length = (s.clearFrame b v).aw * (s.clearFrame b v).ah := by
  refine Eq.trans ?_ (h c)
  show ((s.fb.set b (rewriteBuffer s.aw _ (s.fb.get b))).get c).length = _
  rw [FrameBuffers.get_set]
  split
  · next hc => rw [hc, length_rewriteBuffer]
  · rfl

/-- The keyframe clear (R103). -/
theorem pixel_keyframeClear (s : State) (c : BufId) {x y : Nat} (h : ∀ b, (s.fb.get b).length = s.aw * s.ah)
    (hx : x < s.aw) (hy : y < s.ah) :
    s.keyframeClear.pixel c x y =
      if s.seq = 0 ∧ (c = s.prev ∨ c = s.ref ∨ (c = s.cur ∧ Config.keyframeClearsCurrent = true)) then s.bg
      else s.pixel c x y := by
  have h1 := clearFrame_sizes h s.prev s.bg
  have h2 := clearFrame_sizes h1 s.ref s.bg
  unfold State.keyframeClear
  by_cases h0 : s.seq = 0
  · rw [if_pos h0]
    dsimp only
    by_cases hk : Config.keyframeClearsCurrent = true
    · rw [if_pos hk, pixel_clearFrame _ _ _ _ (h2 _) hx hy, pixel_clearFrame _ _ _ _ (h1 _) hx hy,
        pixel_clearFrame _ _ _ _ (h _) hx hy]
      by_cases a : c = s.cur <;> by_cases b : c = s.ref <;> by_cases d : c = s.prev <;> simp [h0, hk, a, b, d]
    · rw [if_neg hk, pixel_clearFrame _ _ _ _ (h1 _) hx hy, pixel_clearFrame _ _ _ _ (h _) hx hy]
      by_cases b : c = s.ref <;> by_cases d : c = s.prev <;> simp [h0, hk, b, d]
  · rw [if_neg h0, if_neg (fun hh => h0 hh.1)]

theorem pixel_copyFrame (s : State) (src c : BufId) {x y : Nat}
    (hlen : (s.fb.get s.cur).length = s.aw * s.ah) (hx : x < s.aw) (hy : y < s.ah) :
    (s.copyFrame src).pixel c x y = if c = s.cur then s.pixel src x y else s.pixel c x y :=
  pixel_rewrite s s.cur c _ hlen hx hy

/- The pixel map and its inverse. -/

/-- `pixelSlot` undoes `pixmap` on the pixels of the image. -/
theorem pixelSlot_pixmap (m : PixelMap) {w h aw j : Nat} (hj : j < w * h) :
    pixelSlot m w h aw (pixmap m w aw j).1 (pixmap m w aw j).2 = some j := by
  have hw0 : 0 < w := Nat.pos_of_ne_zero fun h0 => by simp [h0] at hj
  cases m with
  | window =>
    have h1 : j % w < w := Nat.mod_lt _ hw0
    have h2 : j / w < h := (Nat.div_lt_iff_lt_mul hw0).2 (by rwa [Nat.mul_comm])
    have h3 : j / w * w + j % w = j := Nat.div_add_mod' j w
    simp [pixelSlot, pixmap, h1, h2, h3]
  | linear =>
    have h3 : j / aw * aw + j % aw = j := Nat.div_add_mod' j aw
    simp [pixelSlot, pixmap, h3, hj]

/-- `pixmap` undoes `pixelSlot` in the frame. -/
theorem pixmap_pixelSlot (m : PixelMap) {w h aw x y j : Nat} (hx : x < aw) (hs : pixelSlot m w h aw x y = some j) :
    j < w * h ∧ pixmap m w aw j = (x, y) := by
  cases m with
  | window =>
    simp only [pixelSlot] at hs
    split at hs
    · next hxy =>
      cases hs
      have := index_coordinates (y := y) hxy.1
      exact ⟨index_lt hxy.1 hxy.2, by simp [pixmap, this.1, this.2]⟩
    · cases hs
  | linear =>
    simp only [pixelSlot] at hs
    split at hs
    · next hxy =>
      cases hs
      have := index_coordinates (y := y) hx
      exact ⟨hxy, by simp [pixmap, this.1, this.2]⟩
    · cases hs

end Sys2Proof.Machine
end

