-- ==== Sys2Proof/Laws/Decode.lean ====
section
/-! SUPPORT. The byte assembly is its own inverse (20_memory.md R39), and the run byte gives its length back (R59). -/

namespace Sys2Proof

/-- `Rd16() = IN[p] + 256*IN[p+1]` (R39). -/
theorem u16_toNat (lo hi : Byte) : (u16 lo hi).toNat = lo.toNat + 256 * hi.toNat := by
  unfold u16
  rw [BitVec.toNat_append, ← Nat.shiftLeft_add_eq_or_of_lt lo.isLt, Nat.shiftLeft_eq]
  omega

theorem loByte_toNat (v : BitVec 16) : (loByte v).toNat = v.toNat % 256 := by
  simp [loByte, BitVec.extractLsb'_toNat]

theorem hiByte_toNat (v : BitVec 16) : (hiByte v).toNat = v.toNat / 256 := by
  have := v.isLt
  simp only [hiByte, BitVec.extractLsb'_toNat, Nat.shiftRight_eq_div_pow]
  omega

@[simp] theorem loByte_u16 (lo hi : Byte) : loByte (u16 lo hi) = lo := by
  apply BitVec.eq_of_toNat_eq
  have := lo.isLt
  rw [loByte_toNat, u16_toNat]
  omega

@[simp] theorem hiByte_u16 (lo hi : Byte) : hiByte (u16 lo hi) = hi := by
  apply BitVec.eq_of_toNat_eq
  have := lo.isLt
  rw [hiByte_toNat, u16_toNat]
  omega

@[simp] theorem u16_bytes (v : BitVec 16) : u16 (loByte v) (hiByte v) = v := by
  apply BitVec.eq_of_toNat_eq
  rw [u16_toNat, loByte_toNat, hiByte_toNat]
  omega

/-- `Rd32()` (R39). -/
theorem u32_toNat (b0 b1 b2 b3 : Byte) :
    (u32 b0 b1 b2 b3).toNat = b0.toNat + 256 * b1.toNat + 65536 * b2.toNat + 16777216 * b3.toNat := by
  have h0 := u16_toNat b0 b1
  have h2 := u16_toNat b2 b3
  have hlt := (u16 b0 b1).isLt
  unfold u16 at h0 h2 hlt
  unfold u32
  rw [BitVec.toNat_append, ← Nat.shiftLeft_add_eq_or_of_lt hlt, Nat.shiftLeft_eq, h0, h2]
  omega

theorem u16At_toNat (bytes : List Byte) (p : Nat) :
    (u16At bytes p).toNat = (bytes.getD p 0).toNat + 256 * (bytes.getD (p + 1) 0).toNat := u16_toNat _ _

theorem u32At_toNat (bytes : List Byte) (p : Nat) :
    (u32At bytes p).toNat = (bytes.getD p 0).toNat + 256 * (bytes.getD (p + 1) 0).toNat
      + 65536 * (bytes.getD (p + 2) 0).toNat + 16777216 * (bytes.getD (p + 3) 0).toNat := u32_toNat _ _ _ _

theorem readHeader_scb_get (bytes : List Byte) (i : Fin 4) :
    (readHeader bytes).scb.get i = u16At bytes (Config.headerOffset .scb + 2 * i.val) := by
  simp only [readHeader, Vector.get_eq_getElem, Vector.getElem_ofFn]

theorem readHeader_cb_get (bytes : List Byte) (i : Fin 256) :
    (readHeader bytes).cb.get i = u16At bytes (Config.headerOffset .cb + 2 * i.val) := by
  simp only [readHeader, Vector.get_eq_getElem, Vector.getElem_ofFn]

/-- The offset of each header field from the one before it (R53). -/
theorem headerOffset_chain :
    Config.headerOffset .hw = Config.headerGap .hw ∧
    Config.headerOffset .hh = Config.headerOffset .hw + 4 + Config.headerGap .hh ∧
    Config.headerOffset .seq = Config.headerOffset .hh + 4 + Config.headerGap .seq ∧
    Config.headerOffset .subc = Config.headerOffset .seq + 2 + Config.headerGap .subc ∧
    Config.headerOffset .rot = Config.headerOffset .subc + 1 + Config.headerGap .rot ∧
    Config.headerOffset .scb = Config.headerOffset .rot + 1 + Config.headerGap .scb ∧
    Config.headerOffset .bg = Config.headerOffset .scb + 8 + Config.headerGap .bg ∧
    Config.headerOffset .cb = Config.headerOffset .bg + 2 + Config.headerGap .cb ∧
    Config.headerSize = Config.headerOffset .cb + 512 + Config.headerTail :=
  ⟨rfl, rfl, rfl, rfl, rfl, rfl, rfl, rfl, by unfold Config.headerSize; rfl⟩

theorem runLength_toNat (r : Byte) : runLength r = r.toNat / 2 + 1 := by
  simp [runLength, Nat.shiftRight_eq_div_pow]

theorem isFillRun_iff (r : Byte) : isFillRun r = true ↔ r.toNat % 2 = 1 := by
  simp only [isFillRun, BitVec.getLsbD, Nat.testBit_zero, decide_eq_true_eq]

/-- Every run is 1 to 128 bytes long (R59). -/
theorem runLength_bounds (r : Byte) : 1 ≤ runLength r ∧ runLength r ≤ 128 := by
  have := r.isLt
  rw [runLength_toNat]
  omega

/- What the operand readers read (R55, R57). -/

theorem decodeU16_ok {op : Byte} {make : BitVec 16 → Instr} {t rest : List Byte} {i : Instr}
    (h : decodeU16 op make t = .ok (i, rest)) : ∃ v, i = make v ∧ t = u16Bytes v ++ rest := by
  unfold decodeU16 at h
  split at h
  · cases h; exact ⟨_, rfl, by simp [u16Bytes]⟩
  · cases h

theorem decodeU8_ok {op : Byte} {make : Byte → Instr} {t rest : List Byte} {i : Instr}
    (h : decodeU8 op make t = .ok (i, rest)) : ∃ v, i = make v ∧ t = v :: rest := by
  unfold decodeU8 at h
  split at h
  · cases h; exact ⟨_, rfl, rfl⟩
  · cases h

theorem decodePixels_ok {op : Byte} {make : Pixel → Pixel → Pixel → Pixel → Instr} {t rest : List Byte} {i : Instr}
    (h : decodePixels op make t = .ok (i, rest)) :
    ∃ a b c d, i = make a b c d ∧ t = u16Bytes a ++ u16Bytes b ++ u16Bytes c ++ u16Bytes d ++ rest := by
  unfold decodePixels at h
  split at h
  · cases h; exact ⟨_, _, _, _, rfl, by simp [u16Bytes]⟩
  · cases h

theorem decodeGlyph_ok {t rest : List Byte} {i : Instr} (h : decodeGlyph t = .ok (i, rest)) :
    ∃ g bg fg, i = .glyph g bg fg ∧ t = g :: (u16Bytes bg ++ u16Bytes fg) ++ rest := by
  unfold decodeGlyph at h
  split at h
  · cases h; exact ⟨_, _, _, rfl, by simp [u16Bytes]⟩
  · cases h

end Sys2Proof
end

