-- ==== Sys2Proof/Laws/Memory.lean ====
section
/-! SUPPORT. Every operation on the memories keeps their one form (State.memoryWf). -/

namespace Sys2Proof.Machine

/-- The form, read off by cases on whether there is an instance. -/
theorem memoryWf_iff (s : State) :
    s.memoryWf = true ↔
      (if s.life = .uninit then s.fb = ⟨[], [], []⟩ ∧ s.scr = []
       else (∀ b, (s.fb.get b).length = s.aw * s.ah) ∧ s.scr.length = s.w * s.h) ∧ s.inp.length = s.size := by
  unfold State.memoryWf
  split
  · simp [List.isEmpty_iff]
  · simp only [Bool.and_eq_true, beq_iff_eq]
    constructor
    · rintro ⟨⟨⟨⟨h0, h1⟩, h2⟩, h3⟩, h4⟩
      exact ⟨⟨fun b => by cases b <;> assumption, h3⟩, h4⟩
    · rintro ⟨⟨h, h3⟩, h4⟩
      exact ⟨⟨⟨⟨h .b0, h .b1⟩, h .b2⟩, h3⟩, h4⟩

theorem memoryWf_reset : State.reset.memoryWf = true := by decide

/-- The form depends on the memories and the dimensions alone. -/
theorem memoryWf_congr {s t : State} (hl : t.life = s.life) (hfb : t.fb = s.fb) (hscr : t.scr = s.scr)
    (hw : t.w = s.w ∧ t.h = s.h ∧ t.aw = s.aw ∧ t.ah = s.ah) (hin : t.inp = s.inp) (hsz : t.size = s.size) :
    t.memoryWf = s.memoryWf := by
  obtain ⟨h1, h2, h3, h4⟩ := hw
  simp only [State.memoryWf, hl, hfb, hscr, h1, h2, h3, h4, hin, hsz]

theorem length_get_set (f : FrameBuffers) (b c : BufId) (buf : List Pixel) (h : buf.length = (f.get b).length) :
    ((f.set b buf).get c).length = (f.get c).length := by
  rw [FrameBuffers.get_set]
  split
  · next hc => rw [hc, h]
  · rfl

theorem set_empty (b : BufId) : FrameBuffers.set ⟨[], [], []⟩ b [] = ⟨[], [], []⟩ := by cases b <;> rfl

theorem get_empty (b : BufId) : FrameBuffers.get ⟨[], [], []⟩ b = [] := by cases b <;> rfl

/-- A state whose buffers, scratch and input have the sizes of another's has the form when the other has it. -/
theorem memoryWf_of_sizes {s t : State} (h : s.memoryWf = true) (hl : t.life = s.life)
    (hfb : ∀ b, (t.fb.get b).length = (s.fb.get b).length) (hscr : t.scr.length = s.scr.length)
    (hw : t.w = s.w ∧ t.h = s.h ∧ t.aw = s.aw ∧ t.ah = s.ah) (hin : t.inp.length = t.size) :
    t.memoryWf = true := by
  obtain ⟨h1, h2, h3, h4⟩ := hw
  rw [memoryWf_iff] at h ⊢
  refine ⟨?_, hin⟩
  obtain ⟨h, -⟩ := h
  rw [hl]
  split
  · next hu =>
    rw [if_pos hu] at h
    rw [h.1] at hfb
    have e (b : BufId) : t.fb.get b = [] := List.eq_nil_of_length_eq_zero (by rw [hfb, get_empty]; rfl)
    refine ⟨?_, List.eq_nil_of_length_eq_zero (by rw [hscr, h.2]; rfl)⟩
    have e0 := e .b0
    have e1 := e .b1
    have e2 := e .b2
    cases hf : t.fb
    simp [FrameBuffers.get, hf] at e0 e1 e2
    simp [e0, e1, e2]
  · next hu =>
    rw [if_neg hu] at h
    exact ⟨fun b => by rw [hfb, h.1, h3, h4], by rw [hscr, h.2, h1, h2]⟩

theorem inp_length {s : State} (h : s.memoryWf = true) : s.inp.length = s.size := ((memoryWf_iff s).1 h).2

theorem rewrite_memoryWf {s : State} (h : s.memoryWf = true) (b : BufId) (f : Nat → Nat → Pixel → Pixel) :
    (s.rewrite b f).memoryWf = true :=
  memoryWf_of_sizes h rfl (fun _ => length_get_set _ _ _ _ (length_rewriteBuffer _ _ _)) rfl ⟨rfl, rfl, rfl, rfl⟩
    (inp_length (s := s) h)

theorem writeBlock_memoryWf {s : State} (h : s.memoryWf = true) (cx cy n : Nat) (val : Nat → Nat → Pixel) :
    (s.writeBlock cx cy n val).memoryWf = true := rewrite_memoryWf h _ _

theorem writeImage_memoryWf {s : State} (h : s.memoryWf = true) (val : Nat → Pixel) :
    (s.writeImage val).memoryWf = true := rewrite_memoryWf h _ _

theorem copyFrame_memoryWf {s : State} (h : s.memoryWf = true) (src : BufId) : (s.copyFrame src).memoryWf = true :=
  rewrite_memoryWf h _ _

theorem clearFrame_memoryWf {s : State} (h : s.memoryWf = true) (b : BufId) (v : Pixel) :
    (s.clearFrame b v).memoryWf = true := rewrite_memoryWf h _ _

theorem emitDiag_memoryWf {s : State} (h : s.memoryWf = true) (r : DiagRecord) : (s.emitDiag r).memoryWf = true := h

theorem mcCopy_memoryWf {s : State} (h : s.memoryWf = true) (cx cy bs : Nat) (v : Int × Int) :
    (s.mcCopy cx cy bs v).memoryWf = true := by
  simp only [State.mcCopy]
  split
  · exact writeBlock_memoryWf h _ _ _ _
  · exact h

theorem drawGlyph_memoryWf {s : State} (h : s.memoryWf = true) (cx cy : Nat) (bs : BlockSize) (g : Nat)
    (fg bg : Pixel) : (s.drawGlyph cx cy bs g fg bg).memoryWf = true := by
  unfold State.drawGlyph
  split
  · exact writeBlock_memoryWf h _ _ _ _
  · exact h

theorem emitBytes_memoryWf {s : State} (h : s.memoryWf = true) (bytes : List Byte) :
    (s.emitBytes bytes).memoryWf = true := by
  unfold State.emitBytes
  split
  · exact memoryWf_of_sizes h rfl (fun _ => rfl) (by simp) ⟨rfl, rfl, rfl, rfl⟩ (inp_length (s := s) h)
  · exact rewrite_memoryWf h _ _

theorem keyframeClear_memoryWf {s : State} (h : s.memoryWf = true) : s.keyframeClear.memoryWf = true := by
  unfold State.keyframeClear
  split
  · dsimp only
    split
    · exact clearFrame_memoryWf (clearFrame_memoryWf (clearFrame_memoryWf h _ _) _ _) _ _
    · exact clearFrame_memoryWf (clearFrame_memoryWf h _ _) _ _
  · exact h

theorem raiseFail_memoryWf {s : State} (h : s.memoryWf = true) (c : Cause) : (s.raiseFail c).memoryWf = true :=
  memoryWf_of_sizes h rfl (fun b => length_get_set _ _ _ _ (by simp [drawBuffer])) (by simp [drawScratch])
    ⟨rfl, rfl, rfl, rfl⟩ rfl

theorem allocate_memoryWf (s : State) (w h : Nat) : (s.allocate w h).memoryWf = true := by
  rw [memoryWf_iff]
  simp only [State.allocate_life, reduceCtorEq, if_false]
  exact ⟨⟨fun b => by cases b <;> simp [FrameBuffers.get, drawBuffer], by simp [drawScratch]⟩, rfl⟩

theorem release_memoryWf (s : State) : s.release.memoryWf = true := rfl

theorem wrapReader_memoryWf {s : State} (h : s.memoryWf = true) (c : List Byte) (n : Nat) (hn : n ≤ c.length) :
    (s.wrapReader c n).memoryWf = true :=
  memoryWf_of_sizes h rfl (fun _ => rfl) rfl ⟨rfl, rfl, rfl, rfl⟩ (by simp [hn])

/-- `DST` keeps its length in copy-out. -/
@[simp] theorem copyOut_dst_length (s : State) : s.copyOut.dst.length = s.dst.length := by simp [State.copyOut]

theorem completeDecode_memoryWf {s : State} (h : s.memoryWf = true) : s.completeDecode.memoryWf = true :=
  memoryWf_of_sizes h (by simp) (by simp) (by simp) (by simp) (by simp)

end Sys2Proof.Machine
end

