-- ==== Sys2Proof/Laws/Exec.lean ====
section
/-! SUPPORT. What the shared operations can do, said once: when each of them answers a next state, and which. -/

namespace Sys2Proof.Machine

/-- The check of R66: with the bytes there, the cursor moves. -/
theorem skip_some (s : State) {n : Nat} (h : n ≤ s.bytesLeft) : s.skip n = some (s.advance n) := by
  simp [State.skip, Nat.not_lt.2 h]

/-- The check of R66: without them, nothing is read. -/
theorem skip_none (s : State) {n : Nat} (h : s.bytesLeft < n) : s.skip n = none := by simp [State.skip, h]

/-- All that `skip` can answer. -/
theorem skip_cases (s : State) (n : Nat) :
    (n ≤ s.bytesLeft ∧ s.skip n = some (s.advance n)) ∨ (s.bytesLeft < n ∧ s.skip n = none) := by
  rcases Nat.lt_or_ge s.bytesLeft n with h | h
  · exact .inr ⟨h, skip_none s h⟩
  · exact .inl ⟨h, skip_some s h⟩

theorem readBuf_some (s : State) {n : Nat} (h : n ≤ s.bytesLeft) :
    s.readBuf n = some ((List.range n).map (fun k => s.inByte (s.pos + k)), s.advance n) := by
  simp [State.readBuf, skip_some s h]

theorem readBuf_none (s : State) {n : Nat} (h : s.bytesLeft < n) : s.readBuf n = none := by
  simp [State.readBuf, skip_none s h]

theorem advance_bytesLeft (s : State) (n : Nat) : (s.advance n).bytesLeft = s.bytesLeft - n := by
  simp [State.bytesLeft, State.advance, Nat.sub_add_eq]

/-- The bytes left after the head block is taken are those before (R122). -/
theorem takeBlock_bytesLeft (s : State) (b : Block) (rest : List Block) (op : Byte) :
    (s.takeBlock b rest op).bytesLeft = s.bytesLeft := rfl

/-- A block instruction with its block and its bytes there runs its effect. -/
theorem blockInstr_next {s : State} {b : Block} {rest : List Block} {op : Byte} {len : Nat}
    {sizes : BlockSize → Bool} (effect : State → State) (hp : s.phase = .blocks) (hq : s.pend = b :: rest)
    (hf : blockInFrame s.aw s.ah b = true) (hs : sizes b.bs = true) (hl : len ≤ s.bytesLeft) :
    blockInstr op len sizes effect s = .next (effect ((s.takeBlock b rest op).advance len)) := by
  have h := skip_some (s.takeBlock b rest op) (n := len) (by rwa [takeBlock_bytesLeft])
  simp only [blockInstr, hp, hq, hs, hf, if_true, h]

/-- A block instruction without all its bytes fails with `TRUNCATED`. -/
theorem blockInstr_truncated {s : State} {b : Block} {rest : List Block} {op : Byte} {len : Nat}
    {sizes : BlockSize → Bool} (effect : State → State) (hp : s.phase = .blocks) (hq : s.pend = b :: rest)
    (hf : blockInFrame s.aw s.ah b = true) (hs : sizes b.bs = true) (hl : s.bytesLeft < len) :
    blockInstr op len sizes effect s = .next ((s.takeBlock b rest op).raiseFail .truncated) := by
  have h := skip_none (s.takeBlock b rest op) (n := len) (by rwa [takeBlock_bytesLeft])
  simp only [blockInstr, hp, hq, hs, hf, if_true, h]

/-- All that a block instruction can answer as a next state. -/
theorem blockInstr_cases {s t : State} {op : Byte} {len : Nat} {sizes : BlockSize → Bool} {effect : State → State}
    (h : blockInstr op len sizes effect s = .next t) :
    s.phase = .blocks ∧ ∃ b rest, s.pend = b :: rest ∧ sizes b.bs = true ∧ blockInFrame s.aw s.ah b = true ∧
      ((len ≤ s.bytesLeft ∧ t = effect ((s.takeBlock b rest op).advance len)) ∨
        (s.bytesLeft < len ∧ t = (s.takeBlock b rest op).raiseFail .truncated)) := by
  by_cases hp : s.phase = .blocks
  · refine ⟨hp, ?_⟩
    cases hq : s.pend with
    | nil => simp [blockInstr, hp, hq] at h
    | cons b rest =>
      by_cases hs : sizes b.bs = true
      · by_cases hf : blockInFrame s.aw s.ah b = true
        · refine ⟨b, rest, rfl, hs, hf, ?_⟩
          rcases Nat.lt_or_ge s.bytesLeft len with hl | hl
          · rw [blockInstr_truncated effect hp hq hf hs hl] at h
            exact .inr ⟨hl, (Host.Outcome.next.inj h).symm⟩
          · rw [blockInstr_next effect hp hq hf hs hl] at h
            exact .inl ⟨hl, (Host.Outcome.next.inj h).symm⟩
        · simp [blockInstr, hp, hq, hs, hf] at h
      · simp [blockInstr, hp, hq, hs] at h
  · simp [blockInstr, hp] at h

/-- One run with its bytes and the space there (R90). -/
theorem runInstr_next {s : State} {operands : Nat} {bytes : List Byte} (hp : s.phase = .runs)
    (hn : bytes.length ≤ s.rleN - s.rleK) (hl : operands + 1 ≤ s.bytesLeft) :
    runInstr operands bytes s = 
      .next ((((s.advance 1).advance operands).emitBytes bytes).countOutput bytes.length) := by
  have h1 := skip_some s (n := 1) (by omega)
  have h2 := skip_some (s.advance 1) (n := operands) (by simp only [advance_bytesLeft] at *; omega)
  simp [runInstr, hp, h1, h2, Nat.not_lt.2 hn]

/-- All that a run can answer as a next state, in the order of R90 and R146. -/
theorem runInstr_cases {s t : State} {operands : Nat} {bytes : List Byte} (h : runInstr operands bytes s = .next t) :
    s.phase = .runs ∧
      ((s.bytesLeft = 0 ∧ t = s.raiseFail .truncated) ∨
        (1 ≤ s.bytesLeft ∧ s.rleN - s.rleK < bytes.length ∧
          t = (s.advance 1).raiseFail .rleOverrun) ∨
        (1 ≤ s.bytesLeft ∧ bytes.length ≤ s.rleN - s.rleK ∧ s.bytesLeft < operands + 1 ∧
          t = (s.advance 1).raiseFail .truncated) ∨
        (operands + 1 ≤ s.bytesLeft ∧ bytes.length ≤ s.rleN - s.rleK ∧
          t = (((s.advance 1).advance operands).emitBytes bytes).countOutput bytes.length)) := by
  by_cases hp : s.phase = .runs
  · refine ⟨hp, ?_⟩
    rcases skip_cases s 1 with ⟨hl, h1⟩ | ⟨hl, h1⟩
    · by_cases hn : s.rleN - s.rleK < bytes.length
      · simp only [runInstr, hp, if_true, h1, hn] at h
        exact .inr (.inl ⟨hl, hn, (Host.Outcome.next.inj h).symm⟩)
      · rcases Nat.lt_or_ge s.bytesLeft (operands + 1) with hl2 | hl2
        · have h2 := skip_none (s.advance 1) (n := operands) (by simp only [advance_bytesLeft] at *; omega)
          simp only [runInstr, hp, if_true, h1, hn, if_false, h2] at h
          exact .inr (.inr (.inl ⟨hl, by omega, hl2, (Host.Outcome.next.inj h).symm⟩))
        · rw [runInstr_next hp (by omega) hl2] at h
          exact .inr (.inr (.inr ⟨hl2, by omega, (Host.Outcome.next.inj h).symm⟩))
    · simp only [runInstr, hp, if_true, h1] at h
      exact .inl ⟨by omega, (Host.Outcome.next.inj h).symm⟩
  · simp [runInstr, hp] at h

/-- All that a subcodec can answer as a next state. -/
theorem subcodecInstr_cases {s t : State} {effect : State → State} (h : subcodecInstr effect s = .next t) :
    s.phase = .dispatch ∧ t = effect s := by
  unfold subcodecInstr at h
  split at h
  · next hp => exact ⟨hp, (Host.Outcome.next.inj h).symm⟩
  · cases h

/-- A host command answers a next state only when none runs. -/
theorem hostCommand_cases {s t : State} {body : State → Host.Outcome State Fault Refusal}
    (h : hostCommand body s = .next t) : s.phase = .idle ∧ body s = .next t := by
  unfold hostCommand at h
  split at h
  · next hp => exact ⟨hp, h⟩
  · cases h

/-- Every way an accepted `decode` starts (R99 to R103), in the order of the checks. -/
theorem beginDecode_cases (s : State) (dst c : List Byte) (n : Nat) (hl : s.life ≠ .uninit) :
    (s.life = .fatal ∧ s.beginDecode dst c n = (s.beginStatus.withDst dst).raiseFail .instanceFatal) ∨
    (s.life = .ready ∧ n < Config.headerSize ∧
      s.beginDecode dst c n = ((s.beginStatus.withDst dst).wrapReader c n).raiseFail .truncated) ∨
    (s.life = .ready ∧ Config.headerSize ≤ n ∧ ∃ f, ¬(f.hw.toNat = s.w ∧ f.hh.toNat = s.h) ∧
      s.beginDecode dst c n =
        ((((s.beginStatus.withDst dst).wrapReader c n).advance Config.headerSize).loadHeader f).failDimensions) ∨
    (s.life = .ready ∧ Config.headerSize ≤ n ∧ ∃ f, (f.hw.toNat = s.w ∧ f.hh.toNat = s.h) ∧
      s.beginDecode dst c n =
        ((((s.beginStatus.withDst dst).wrapReader c n).advance Config.headerSize).loadHeader f).keyframeClear.enter
          .dispatch) := by
  cases hf : s.life with
  | uninit => exact absurd hf hl
  | fatal => exact .inl ⟨rfl, by rw [State.beginDecode, if_pos hf]⟩
  | ready =>
    have hb : s.beginDecode dst c n = (s.beginStatus.withDst dst).startFrame c n := by
      rw [State.beginDecode, if_neg (by simp [hf])]
    rcases Nat.lt_or_ge n Config.headerSize with hn | hn
    · refine .inr (.inl ⟨rfl, hn, ?_⟩)
      have hr := readBuf_none ((s.beginStatus.withDst dst).wrapReader c n) (n := Config.headerSize)
        (by simpa [State.bytesLeft] using hn)
      simp [hb, State.startFrame, State.parseHeader, hr]
    · have hr := readBuf_some ((s.beginStatus.withDst dst).wrapReader c n) (n := Config.headerSize)
        (by simpa [State.bytesLeft] using hn)
      rw [hb]
      simp only [State.startFrame, State.parseHeader, hr, Option.map_some]
      generalize readHeader _ = f
      have hm : ((((s.beginStatus.withDst dst).wrapReader c n).advance Config.headerSize).loadHeader f).dimensionsMatch
          = true ↔ f.hw.toNat = s.w ∧ f.hh.toNat = s.h := dimensionsMatch_iff _
      split
      · next hd => exact .inr (.inr (.inr ⟨trivial, hn, f, hm.1 hd, rfl⟩))
      · next hd => exact .inr (.inr (.inl ⟨trivial, hn, f, fun h => hd (hm.2 h), rfl⟩))

/-- What a failure leaves, read off once (R143, R144). -/
theorem raiseFail_failedWith (s : State) (c : Cause) : FailedWith c s (s.raiseFail c) where
  status := rfl
  cause := rfl
  phase := rfl
  pend := rfl
  life := rfl
  diag := rfl
  dimensions := ⟨rfl, rfl, rfl, rfl⟩
  roles := ⟨rfl, rfl, rfl⟩
  otherBuffers := fun b hb => FrameBuffers.get_set_ne _ _ hb
  sizes := ⟨by simp [drawBuffer], by simp [drawScratch], by simp [drawDst]⟩
  input := ⟨rfl, rfl⟩
  inbox := rfl

/-- The blitter's operations change the frame buffers and `DIAG` alone. -/
theorem writeBlock_eq (s : State) (cx cy n : Nat) (val : Nat → Nat → Pixel) :
    s.writeBlock cx cy n val = { s with fb := (s.writeBlock cx cy n val).fb } := rfl

theorem mcCopy_eq (s : State) (cx cy bs : Nat) (v : Int × Int) :
    s.mcCopy cx cy bs v = { s with fb := (s.mcCopy cx cy bs v).fb, diag := (s.mcCopy cx cy bs v).diag } := by
  simp only [State.mcCopy]
  split <;> rfl

theorem drawGlyph_eq (s : State) (cx cy : Nat) (bs : BlockSize) (g : Nat) (fg bg : Pixel) :
    s.drawGlyph cx cy bs g fg bg =
      { s with fb := (s.drawGlyph cx cy bs g fg bg).fb, diag := (s.drawGlyph cx cy bs g fg bg).diag } := by
  simp only [State.drawGlyph]
  split <;> rfl

end Sys2Proof.Machine
end

