-- ==== Sys2Proof/Laws/Effects.lean ====
section
/-! SUPPORT. What the shared operations do to the pixels and the scratch bytes, said once in the terms of
Sys2Proof/Safety.lean, and when a failure in one state is a failure in another. -/

namespace Sys2Proof.Machine

/- Failures. -/

/-- A failure raised after registers were written that R144 leaves at any value, or the input that ends with the command,
is a failure from the state before. -/
theorem FailedWith.of_registers {c : Cause} {s s' t : State} (h : FailedWith c s' t)
    (e : s' = { s with
      cx := s'.cx, cy := s'.cy, bs := s'.bs, op := s'.op, pend := s'.pend, pos := s'.pos, status := s'.status,
      cause := s'.cause, phase := s'.phase, hw := s'.hw, hh := s'.hh, seq := s'.seq, subc := s'.subc, rot := s'.rot,
      scb := s'.scb, bg := s'.bg, cb := s'.cb, inp := s'.inp, size := s'.size }) : FailedWith c s t := by
  obtain ⟨h1, h2, h3, h4, h5, h6, h7, h8, h9, h10, h11, h12⟩ := h
  rw [e] at h5 h6 h7 h8 h9 h10 h12
  exact ⟨h1, h2, h3, h4, h5, h6, h7, h8, h9, h10, h11, h12⟩

theorem FailedWith.of_takeBlock {c : Cause} {s t : State} {b : Block} {rest : List Block} {op : Byte}
    (h : FailedWith c (s.takeBlock b rest op) t) : FailedWith c s t := h.of_registers rfl

theorem FailedWith.of_advance {c : Cause} {s t : State} {n : Nat} (h : FailedWith c (s.advance n) t) :
    FailedWith c s t := h.of_registers rfl

/- Block steps. -/

/-- A block instruction over `blockInstr` is a block step with the effect its own effect has (R122). -/
theorem blockStepIs_of {s : State} {b : Block} {rest : List Block} {op : Byte} {len : Nat} {i : Instr}
    {sizes : BlockSize → Bool} {effect : State → State} {after : State → Prop} (hr : BlockReady s b rest)
    (hs : sizes b.bs = true) (hx : exec i s = blockInstr op len sizes effect s)
    (hb : AfterBlockStep s (effect ((s.takeBlock b rest op).advance len)) b rest op len)
    (he : after (effect ((s.takeBlock b rest op).advance len))) : BlockStepIs i op len s b rest after := by
  have hf : blockInFrame s.aw s.ah b = true := by simp [blockInFrame, hr.inFrame]
  refine ⟨fun hl => ⟨_, hx.trans (blockInstr_next effect hr.phase hr.pend hf hs hl), hb, he⟩, fun hl => ?_⟩
  exact ⟨_, hx.trans (blockInstr_truncated effect hr.phase hr.pend hf hs hl), (raiseFail_failedWith _ _).of_takeBlock⟩

/-- A written block is painted and nothing else is (R86). -/
theorem writeBlock_paints {s : State} {b : Block} {rest : List Block} {op : Byte} {len n : Nat}
    (hr : BlockReady s b rest) (hn : n = b.bs.toNat) (val : Nat → Nat → Pixel) :
    PaintsBlock s (((s.takeBlock b rest op).advance len).writeBlock b.cx b.cy n val) b val := by
  subst hn
  have key (c : BufId) (x y : Nat) (hx : x < s.aw) (hy : y < s.ah) :=
    pixel_writeBlock ((s.takeBlock b rest op).advance len) b.cx b.cy b.bs.toNat val c (hr.buffers s.cur) hx hy
  obtain ⟨fx, fy⟩ := hr.inFrame
  constructor
  · intro c x y hx hy hn
    exact (key c x y hx hy).trans (if_neg hn)
  · intro x y hx hy
    have hin : inBlock b.cx b.cy b.bs.toNat (b.cx + x) (b.cy + y) = true := by simp [inBlock]; omega
    refine (key s.cur (b.cx + x) (b.cy + y) (by omega) (by omega)).trans ((if_pos ⟨rfl, hin⟩).trans ?_)
    rw [Nat.add_sub_cancel_left, Nat.add_sub_cancel_left]

/- The image. -/

/-- Every pixel of the image is a pixel of the frame (R104, R38). -/
theorem pixmap_range (m : PixelMap) {w h aw ah j : Nat} (hw : w ≤ aw) (hh : h ≤ ah) (hj : j < w * h) :
    (pixmap m w aw j).1 < aw ∧ (pixmap m w aw j).2 < ah := by
  have hw0 : 0 < w := Nat.pos_of_ne_zero fun h0 => by simp [h0] at hj
  cases m with
  | window =>
    have h1 := Nat.mod_lt j hw0
    have h2 : j / w < h := (Nat.div_lt_iff_lt_mul hw0).2 (by rwa [Nat.mul_comm])
    exact ⟨Nat.lt_of_lt_of_le h1 hw, Nat.lt_of_lt_of_le h2 hh⟩
  | linear =>
    have h2 : j < ah * aw := Nat.mul_comm aw ah ▸ Nat.lt_of_lt_of_le hj (Nat.mul_le_mul hw hh)
    exact ⟨Nat.mod_lt _ (by omega), (Nat.div_lt_iff_lt_mul (by omega)).2 h2⟩

/-- A state whose current buffer is rewritten through the pixel map has the image written and nothing else. -/
theorem rewrite_image {s t : State} (hi : ImageReady s) (val : Nat → Pixel → Pixel)
    (ht : t = { s with
      pos := t.pos, rleK := t.rleK, phase := t.phase,
      fb := (s.rewrite s.cur fun x y old =>
        match pixelSlot Config.pixelMap s.w s.h s.aw x y with
        | some j => val j old
        | none => old).fb }) :
    OnlyImageWritten s t ∧ ∀ j, j < s.w * s.h → t.imagePixel s.cur j = val j (s.imagePixel s.cur j) := by
  have hp (c : BufId) (x y : Nat) (hx : x < s.aw) (hy : y < s.ah) :
      t.pixel c x y =
        if c = s.cur then
          match pixelSlot Config.pixelMap s.w s.h s.aw x y with
          | some j => val j (s.pixel s.cur x y)
          | none => s.pixel s.cur x y
        else s.pixel c x y := by
    rw [ht]
    exact pixel_rewrite s s.cur c _ (hi.buffers _) hx hy
  have hd : t.w = s.w ∧ t.aw = s.aw := by rw [ht]; exact ⟨rfl, rfl⟩
  constructor
  · intro c x y hx hy hout
    rw [hp c x y hx hy]
    split
    · next hc =>
      subst hc
      split
      · next j hj =>
        have hj' := pixmap_pixelSlot _ hx hj
        exact (hout.elim (absurd rfl) fun h => absurd hj'.2 (h j hj'.1))
      · rfl
    · rfl
  · intro j hj
    have hr := pixmap_range Config.pixelMap hi.width hi.height hj
    unfold State.imagePixel
    simp only [hd.1, hd.2]
    rw [hp _ _ _ hr.1 hr.2, if_pos rfl, pixelSlot_pixmap _ hj]

/-- The same for `writeImage` (R106, R112, R113). -/
theorem writeImage_paints {s t : State} (hi : ImageReady s) (val : Nat → Pixel)
    (ht : t = { s with pos := t.pos, phase := t.phase, fb := (s.writeImage val).fb }) : PaintsImage s t val := by
  refine rewrite_image hi (fun j _ => val j) ?_
  rw [ht]
  rfl

/- Run output. -/

/-- Output byte `k` is the run's where the run has one, else the old one (R88). -/
theorem emitted_eq (start : Nat) (bytes : List Byte) (k : Nat) (old : Byte) :
    some (emitted start bytes k old) =
      if start ≤ k ∧ k < start + bytes.length then bytes[k - start]? else some old := by
  unfold emitted
  split
  · rw [List.getD_eq_getElem?_getD]
    split
    · rw [List.getElem?_eq_getElem (by omega)]; rfl
    · rw [List.getElem?_eq_none (by omega)]; rfl
  · rw [if_neg (by omega)]

/-- What a run writes to its sink. -/
theorem emitBytes_emits {s : State} (hi : ImageReady s) (n m : Nat) (bytes : List Byte) :
    EmitsBytes s (((s.advance n).emitBytes bytes).countOutput m) bytes := by
  unfold EmitsBytes State.emitBytes
  rw [State.advance_rleSink]
  cases s.rleSink with
  | scr =>
    refine ⟨rfl, by simp, fun k hk => ?_⟩
    simp [List.getElem?_eq_getElem hk, emitted_eq]
  | curpix =>
    have key := rewrite_image hi (t := ((s.advance n).emitImage bytes).countOutput m)
      (fun j old => u16 (emitted s.rleK bytes (2 * j) (loByte old)) (emitted s.rleK bytes (2 * j + 1) (hiByte old))) rfl
    refine ⟨rfl, key.1, fun j hj => ?_⟩
    dsimp only
    rw [key.2 j hj, loByte_u16, hiByte_u16, emitted_eq, emitted_eq]
    exact ⟨rfl, rfl⟩

end Sys2Proof.Machine
end

