-- ==== Sys2Proof/Laws/PerInstr.lean ====
section
/-! SUPPORT. A law of every instruction as syntax: its encoding has the length of 30_encoding.md R56 and R59. -/

namespace Sys2Proof.Laws.EncodedLength

/-- The encoding of the instruction, where it has one, is `Instr.length` bytes long. -/
def Statement (i : Instr) : Prop := ∀ bytes, encode i = some bytes → bytes.length = i.length

/-- The length is by definition that of the opcode byte and the operand bytes. -/
theorem of_encode (i : Instr) : Statement i := by
  intro bytes h
  unfold encode at h
  unfold Instr.length
  cases ho : i.opcode with
  | none => simp [ho] at h
  | some op =>
    simp only [ho, Option.map_some, Option.some.injEq] at h
    subst h
    simp [Nat.add_comm]

theorem mv : ∀ a, Statement (.mv a) := fun _ => of_encode _
theorem mvabs : ∀ a, Statement (.mvabs a) := fun _ => of_encode _
theorem prev : Statement .prev := of_encode _
theorem pix4c : ∀ a b c d, Statement (.pix4c a b c d) := fun _ _ _ _ => of_encode _
theorem glyphc : ∀ a b c, Statement (.glyphc a b c) := fun _ _ _ => of_encode _
theorem pix4 : ∀ a b c d, Statement (.pix4 a b c d) := fun _ _ _ _ => of_encode _
theorem glyph : ∀ a b c, Statement (.glyph a b c) := fun _ _ _ => of_encode _
theorem fills : ∀ a, Statement (.fills a) := fun _ => of_encode _
theorem fillc : ∀ a, Statement (.fillc a) := fun _ => of_encode _
theorem fill : ∀ a, Statement (.fill a) := fun _ => of_encode _
theorem split : Statement .split := of_encode _
theorem pix4f : ∀ a b c d, Statement (.pix4f a b c d) := fun _ _ _ _ => of_encode _
theorem copy : ∀ a, Statement (.copy a) := fun _ => of_encode _
theorem run : ∀ a b, Statement (.run a b) := fun _ _ => of_encode _
theorem raw : Statement .raw := of_encode _
theorem subc1 : Statement .subc1 := of_encode _
theorem block : Statement .block := of_encode _
theorem copyref : Statement .copyref := of_encode _
theorem copyprev : Statement .copyprev := of_encode _
theorem rle16 : Statement .rle16 := of_encode _
theorem cbmap : Statement .cbmap := of_encode _
theorem subc7 : Statement .subc7 := of_encode _
theorem rlecb : Statement .rlecb := of_encode _
theorem invalid : ∀ a, Statement (.invalid a) := fun _ => of_encode _
theorem init : ∀ a b, Statement (.init a b) := fun _ _ => of_encode _
theorem deinit : Statement .deinit := of_encode _
theorem decode : ∀ a b c, Statement (.decode a b c) := fun _ _ _ => of_encode _

end Sys2Proof.Laws.EncodedLength
end

