-- ==== Sys2Proof/Laws/Steps.lean ====
section
/-! SUPPORT. Everything one step can do, said once: a proof about every step goes through `step_cases` and never unfolds
`step`. -/

namespace Sys2Proof.Machine

/-- The next states of a step, one case for each way the engine goes on. -/
inductive StepTo (s : State) : State → Prop
  | waits (hp : s.phase = .idle) (hq : s.inbox = []) : StepTo s s
  | inits (cs : List HostCommand) (w h : U32) (hp : s.phase = .idle) (hq : s.inbox = .init w h :: cs)
      (hl : s.life = .uninit) (hw : dimensionOk w.toNat = true) (hh : dimensionOk h.toNat = true) :
      StepTo s ((s.withInbox cs).allocate w.toNat h.toNat)
  | deinits (cs : List HostCommand) (hp : s.phase = .idle) (hq : s.inbox = .deinit :: cs) (hl : s.life ≠ .uninit) :
      StepTo s (s.withInbox cs).release
  | decodes (cs : List HostCommand) (dst compressed : List Byte) (size : Nat) (hp : s.phase = .idle)
      (hq : s.inbox = .decode dst compressed size :: cs) (hl : s.life ≠ .uninit) (hc : size ≤ compressed.length)
      (hd : 2 * (s.w * s.h) ≤ dst.length) :
      StepTo s ((s.withInbox cs).beginDecode dst compressed size)
  | fails (c : Cause) (s' : State) (hp : s.phase ≠ .idle) (hc : c ≠ .none) (hi : c ≠ .dimMismatch)
      (hs : s' = { s with cx := s'.cx, cy := s'.cy, bs := s'.bs, op := s'.op, pend := s'.pend, pos := s'.pos }) :
      StepTo s (s'.raiseFail c)
  | writesImage (n : Nat) (val : Nat → Pixel) (hp : s.phase = .dispatch) (hn : n ≤ s.bytesLeft) :
      StepTo s ((s.advance n).writeImage val).endSubcodec
  | copiesFrame (src : BufId) (hp : s.phase = .dispatch) : StepTo s (s.copyFrame src).endSubcodec
  | skipsSubcodec (hp : s.phase = .dispatch) : StepTo s s.endSubcodec
  | startsBlocks (hp : s.phase = .dispatch) : StepTo s ((s.withPend (topLevelBlocks s.aw s.ah)).enter .blocks)
  | startsRuns16 (hp : s.phase = .dispatch) : StepTo s (s.startRle (2 * (s.w * s.h)) .curpix)
  | startsRunsCb (hp : s.phase = .dispatch) : StepTo s (s.startRle (s.w * s.h) .scr)
  | paintsBlock (b : Block) (rest : List Block) (op : Byte) (len : Nat) (val : Nat → Nat → Pixel)
      (hp : s.phase = .blocks) (hq : s.pend = b :: rest) (hf : blockInFrame s.aw s.ah b = true) (hl : 1 ≤ len)
      (hn : len ≤ s.bytesLeft) :
      StepTo s (((s.takeBlock b rest op).advance len).writeBlock b.cx b.cy b.bs.toNat val)
  | skipsVector (b : Block) (rest : List Block) (op : Byte) (len : Nat) (v : DiagValue) (hp : s.phase = .blocks)
      (hq : s.pend = b :: rest) (hl : 1 ≤ len) (hn : len ≤ s.bytesLeft) :
      StepTo s (((s.takeBlock b rest op).advance len).emitDiag ⟨.mvSkip, b.cx, b.cy, b.bs.toNat, v⟩)
  | splitsBlock (b : Block) (rest : List Block) (hp : s.phase = .blocks) (hq : s.pend = b :: rest)
      (hs : b.bs ≠ .s2) (hf : blockInFrame s.aw s.ah b = true) (hn : 1 ≤ s.bytesLeft) :
      StepTo s ((s.takeBlock b rest opSplit).advance 1).pushQuadrants
  | endsBlocks (hp : s.phase = .blocks) (hq : s.pend = []) : StepTo s s.endSubcodec
  | runs (n : Nat) (bytes : List Byte) (hp : s.phase = .runs) (hl : 1 ≤ n) (hn : n ≤ s.bytesLeft)
      (hb : 1 ≤ bytes.length) (hk : bytes.length ≤ s.rleN - s.rleK) :
      StepTo s (((s.advance n).emitBytes bytes).countOutput bytes.length)
  | endsRuns (hp : s.phase = .runs) (hk : s.rleN ≤ s.rleK) (hs : s.rleSink = .curpix) : StepTo s s.endSubcodec
  | endsScratchRuns (hp : s.phase = .runs) (hk : s.rleN ≤ s.rleK) (hs : s.rleSink = .scr) :
      StepTo s (s.writeImage fun j => s.codebook (s.scr.getD j 0)).endSubcodec
  | finishes (hp : s.phase = .finish) : StepTo s s.completeDecode

/-- A block instruction whose effect is known goes on as that effect does, or fails. -/
theorem stepTo_of_block {s t : State} {op : Byte} {len : Nat} {sizes : BlockSize → Bool} {effect : State → State}
    (h : blockInstr op len sizes effect s = .next t)
    (he : ∀ b rest, s.phase = .blocks → s.pend = b :: rest → sizes b.bs = true → blockInFrame s.aw s.ah b = true →
      len ≤ s.bytesLeft → StepTo s (effect ((s.takeBlock b rest op).advance len))) : StepTo s t := by
  obtain ⟨hp, b, rest, hq, hs, hf, ⟨hn, rfl⟩ | ⟨hn, rfl⟩⟩ := blockInstr_cases h
  · exact he b rest hp hq hs hf hn
  · exact .fails _ _ (by simp [hp]) (by simp) (by simp) rfl

theorem stepTo_of_mcCopy {s : State} {b : Block} {rest : List Block} {op : Byte} {len : Nat} (v : Int × Int)
    (hp : s.phase = .blocks) (hq : s.pend = b :: rest) (hf : blockInFrame s.aw s.ah b = true) (hl : 1 ≤ len)
    (hn : len ≤ s.bytesLeft) :
    StepTo s (((s.takeBlock b rest op).advance len).mcCopy b.cx b.cy b.bs.toNat v) := by
  simp only [State.mcCopy]
  split
  · exact .paintsBlock b rest op len _ hp hq hf hl hn
  · exact .skipsVector b rest op len _ hp hq hl hn

theorem stepTo_of_drawGlyph {s : State} {b : Block} {rest : List Block} {op : Byte} {len : Nat} (g : Byte)
    (fg bg : Pixel) (hp : s.phase = .blocks) (hq : s.pend = b :: rest) (hf : blockInFrame s.aw s.ah b = true)
    (hl : 1 ≤ len) (hn : len ≤ s.bytesLeft) :
    StepTo s (((s.takeBlock b rest op).advance len).drawGlyph b.cx b.cy b.bs g.toNat fg bg) := by
  have hg : g.toNat < 256 := g.isLt
  simp only [State.drawGlyph, hg, dif_pos]
  exact .paintsBlock b rest op len _ hp hq hf hl hn

theorem stepTo_of_put4 {s : State} {b : Block} {rest : List Block} {op : Byte} {len : Nat} (v0 v1 v2 v3 : Pixel)
    (hp : s.phase = .blocks) (hq : s.pend = b :: rest) (hs : pixelSize b.bs = true)
    (hf : blockInFrame s.aw s.ah b = true) (hl : 1 ≤ len) (hn : len ≤ s.bytesLeft) :
    StepTo s (((s.takeBlock b rest op).advance len).put4 b.cx b.cy v0 v1 v2 v3) := by
  have h2 : b.bs.toNat = 2 := by
    cases hb : b.bs <;> simp [pixelSize, hb] at hs
    rfl
  unfold State.put4
  rw [← h2]
  exact .paintsBlock b rest op len _ hp hq hf hl hn

theorem stepTo_of_run {s t : State} {operands : Nat} {bytes : List Byte} (hb : 1 ≤ bytes.length)
    (h : runInstr operands bytes s = .next t) : StepTo s t := by
  obtain ⟨hp, ⟨_, rfl⟩ | ⟨_, _, rfl⟩ | ⟨_, _, _, rfl⟩ | ⟨hn, hk, rfl⟩⟩ := runInstr_cases h
  · exact .fails _ s (by simp [hp]) (by simp) (by simp) rfl
  · exact .fails _ (s.advance 1) (by simp [hp]) (by simp) (by simp) rfl
  · exact .fails _ (s.advance 1) (by simp [hp]) (by simp) (by simp) rfl
  · have e : (s.advance 1).advance operands = s.advance (1 + operands) := by
      simp only [State.advance, Nat.add_assoc]
    rw [e]
    exact .runs (1 + operands) bytes hp (by omega) (by omega) hb hk

theorem stepTo_of_reserved {s : State} (hp : s.phase = .dispatch) : StepTo s s.reservedSubcodec := by
  unfold State.reservedSubcodec
  split
  · exact .fails _ s (by simp [hp]) (by simp) (by simp) rfl
  · exact .skipsSubcodec hp

/-- What an instruction that is no host command can do, when its output, if it is a run, is not empty. -/
theorem exec_cases {s t : State} {i : Instr} (hi : i.wellFormed = true) (hp : s.phase ≠ .idle)
    (h : exec i s = .next t) : StepTo s t := by
  cases i with
  | mv k => exact stepTo_of_block h fun b rest hp hq _ hf hn => stepTo_of_mcCopy _ hp hq hf (by omega) hn
  | mvabs v => exact stepTo_of_block h fun b rest hp hq _ hf hn => stepTo_of_mcCopy _ hp hq hf (by omega) hn
  | prev => exact stepTo_of_block h fun b rest hp hq _ hf hn => .paintsBlock b rest _ _ _ hp hq hf (by omega) hn
  | pix4c a c d e =>
    exact stepTo_of_block h fun b rest hp hq hs hf hn => stepTo_of_put4 _ _ _ _ hp hq hs hf (by omega) hn
  | glyphc g a c =>
    exact stepTo_of_block h fun b rest hp hq _ hf hn => stepTo_of_drawGlyph g _ _ hp hq hf (by omega) hn
  | pix4 a c d e =>
    exact stepTo_of_block h fun b rest hp hq hs hf hn => stepTo_of_put4 _ _ _ _ hp hq hs hf (by omega) hn
  | glyph g a c =>
    exact stepTo_of_block h fun b rest hp hq _ hf hn => stepTo_of_drawGlyph g _ _ hp hq hf (by omega) hn
  | fills k => exact stepTo_of_block h fun b rest hp hq _ hf hn => .paintsBlock b rest _ _ _ hp hq hf (by omega) hn
  | fillc k => exact stepTo_of_block h fun b rest hp hq _ hf hn => .paintsBlock b rest _ _ _ hp hq hf (by omega) hn
  | fill k => exact stepTo_of_block h fun b rest hp hq _ hf hn => .paintsBlock b rest _ _ _ hp hq hf (by omega) hn
  | split =>
    exact stepTo_of_block h fun b rest hp hq hs hf hn =>
      .splitsBlock b rest hp hq (by simpa [glyphSize] using hs) hf hn
  | pix4f a c d e =>
    exact stepTo_of_block h fun b rest hp hq hs hf hn => stepTo_of_put4 _ _ _ _ hp hq hs hf (by omega) hn
  | copy bytes =>
    simp only [Instr.wellFormed, Bool.and_eq_true, decide_eq_true_eq] at hi
    exact stepTo_of_run hi.1 h
  | run n b =>
    simp only [Instr.wellFormed, Bool.and_eq_true, decide_eq_true_eq] at hi
    exact stepTo_of_run (bytes := List.replicate n b) (by simpa using hi.1) h
  | raw =>
    simp only [exec, execRaw] at h
    obtain ⟨hp, rfl⟩ := subcodecInstr_cases h
    rcases Nat.lt_or_ge s.bytesLeft (2 * (s.w * s.h)) with hn | hn
    · rw [readBuf_none s hn]
      exact .fails _ s (by simp [hp]) (by simp) (by simp) rfl
    · rw [readBuf_some s hn]
      exact .writesImage _ _ hp hn
  | subc1 =>
    simp only [exec, execSubc1] at h
    obtain ⟨hp, rfl⟩ := subcodecInstr_cases h
    exact stepTo_of_reserved hp
  | block =>
    simp only [exec, execBlock] at h
    obtain ⟨hp, rfl⟩ := subcodecInstr_cases h
    exact .startsBlocks hp
  | copyref =>
    simp only [exec, execCopyref] at h
    obtain ⟨hp, rfl⟩ := subcodecInstr_cases h
    exact .copiesFrame _ hp
  | copyprev =>
    simp only [exec, execCopyprev] at h
    obtain ⟨hp, rfl⟩ := subcodecInstr_cases h
    exact .copiesFrame _ hp
  | rle16 =>
    simp only [exec, execRle16] at h
    obtain ⟨hp, rfl⟩ := subcodecInstr_cases h
    exact .startsRuns16 hp
  | cbmap =>
    simp only [exec, execCbmap] at h
    obtain ⟨hp, rfl⟩ := subcodecInstr_cases h
    rcases Nat.lt_or_ge s.bytesLeft (s.w * s.h) with hn | hn
    · rw [readBuf_none s hn]
      exact .fails _ s (by simp [hp]) (by simp) (by simp) rfl
    · rw [readBuf_some s hn]
      exact .writesImage _ _ hp hn
  | subc7 =>
    simp only [exec, execSubc7] at h
    obtain ⟨hp, rfl⟩ := subcodecInstr_cases h
    exact stepTo_of_reserved hp
  | rlecb =>
    simp only [exec, execRlecb] at h
    obtain ⟨hp, rfl⟩ := subcodecInstr_cases h
    exact .startsRunsCb hp
  | invalid id =>
    simp only [exec, execInvalid] at h
    obtain ⟨hp, rfl⟩ := subcodecInstr_cases h
    exact .fails _ s (by simp [hp]) (by simp) (by simp) rfl
  | init w hh => simp only [exec, execInit] at h; exact absurd (hostCommand_cases h).1 hp
  | deinit => simp only [exec, execDeinit] at h; exact absurd (hostCommand_cases h).1 hp
  | decode d c n => simp only [exec, execDecode] at h; exact absurd (hostCommand_cases h).1 hp

/-- Every run the decoder reads is 1 to 128 bytes long (R59). -/
theorem decodeRle_wellFormed {bytes rest : List Byte} {i : Instr} (h : decodeBytes .rle bytes = .ok (i, rest)) :
    i.wellFormed = true := by
  cases bytes with
  | nil => simp [decodeBytes, decodeRle] at h
  | cons r t =>
    have hb := runLength_bounds r
    simp only [decodeBytes, decodeRle] at h
    split at h
    · cases t with
      | nil => simp [decodeU8] at h
      | cons v t =>
        simp only [decodeU8, Except.ok.injEq, Prod.mk.injEq] at h
        obtain ⟨rfl, rfl⟩ := h
        simp [Instr.wellFormed, hb]
    · split at h
      · cases h
      · simp only [Except.ok.injEq, Prod.mk.injEq] at h
        obtain ⟨rfl, rfl⟩ := h
        simp [Instr.wellFormed]
        omega

/-- What the decoder reads in the block stream is no run and no host command. -/
theorem decodeBlock_validIn {bs : BlockSize} {bytes rest : List Byte} {i : Instr}
    (h : decodeBytes (.block bs) bytes = .ok (i, rest)) : i.validIn (.block bs) = true ∧ i.wellFormed = true := by
  cases bytes with
  | nil => simp [decodeBytes, decodeBlock] at h
  | cons op t =>
    simp only [decodeBytes, decodeBlock, decodeBlockOperands] at h
    split at h
    · next hk => cases h; exact ⟨rfl, by simpa [Instr.wellFormed, opMvLast] using hk⟩
    split at h
    · obtain ⟨v, rfl, -⟩ := decodeU16_ok h; exact ⟨rfl, rfl⟩
    split at h
    · cases h; exact ⟨rfl, rfl⟩
    split at h
    · unfold decodeCodebook at h
      split at h <;> cases h <;> exact ⟨rfl, rfl⟩
    split at h
    · unfold decodeLiteral at h
      split at h
      · obtain ⟨_, _, _, _, rfl, -⟩ := decodePixels_ok h; exact ⟨rfl, rfl⟩
      · obtain ⟨_, _, _, rfl, -⟩ := decodeGlyph_ok h; exact ⟨rfl, rfl⟩
      · obtain ⟨_, _, _, rfl, -⟩ := decodeGlyph_ok h; exact ⟨rfl, rfl⟩
    split at h
    · cases h; exact ⟨rfl, rfl⟩
    split at h
    · cases h; exact ⟨rfl, rfl⟩
    split at h
    · cases h; exact ⟨rfl, rfl⟩
    split at h
    · cases h; exact ⟨rfl, rfl⟩
    split at h
    · obtain ⟨v, rfl, -⟩ := decodeU8_ok h; exact ⟨rfl, rfl⟩
    split at h
    · obtain ⟨v, rfl, -⟩ := decodeU16_ok h; exact ⟨rfl, rfl⟩
    · unfold decodeSplit at h
      split at h
      · obtain ⟨_, _, _, _, rfl, -⟩ := decodePixels_ok h; exact ⟨rfl, rfl⟩
      · cases h; exact ⟨rfl, rfl⟩
      · cases h; exact ⟨rfl, rfl⟩

/-- Everything a step can do. -/
theorem step_cases {s t : State} (h : step s = .next t) : StepTo s t := by
  unfold step fetch at h
  cases hp : s.phase with
  | idle =>
    simp only [hp, fetchCommand] at h
    cases hq : s.inbox with
    | nil =>
      simp only [hq] at h
      cases h
      exact .waits hp hq
    | cons c cs =>
      simp only [hq] at h
      cases c with
      | init w hh =>
        simp only [HostCommand.toInstr, exec, execInit] at h
        have h2 := (hostCommand_cases h).2
        split at h2
        · next hl =>
          split at h2
          · next hd =>
            cases h2
            rw [Bool.and_eq_true] at hd
            exact .inits cs w hh hp hq hl hd.1 hd.2
          · cases h2
        · cases h2
      | deinit =>
        simp only [HostCommand.toInstr, exec, execDeinit] at h
        have h2 := (hostCommand_cases h).2
        split at h2
        · cases h2
        · next hl => cases h2; exact .deinits cs hp hq hl
      | decode dst compressed size =>
        simp only [HostCommand.toInstr, exec, execDecode] at h
        have h2 := (hostCommand_cases h).2
        split at h2
        · cases h2
        next hl =>
        split at h2
        · cases h2
        next hc =>
        split at h2
        · cases h2
        next hd =>
          cases h2
          exact .decodes cs dst compressed size hp hq hl (Nat.not_lt.1 hc) (Nat.not_lt.1 hd)
  | dispatch =>
    simp only [hp] at h
    refine exec_cases ?_ (by simp [hp]) h
    unfold decodeSubcodec
    split <;> first | rfl | skip
    have := s.subc.isLt
    simp only [Instr.wellFormed, decide_eq_true_eq]
    by_contra hlt
    have : s.subc.toNat = 0 ∨ s.subc.toNat = 1 ∨ s.subc.toNat = 2 ∨ s.subc.toNat = 3 ∨ s.subc.toNat = 4 ∨
      s.subc.toNat = 5 ∨ s.subc.toNat = 6 ∨ s.subc.toNat = 7 ∨ s.subc.toNat = 8 := by omega
    rcases this with h | h | h | h | h | h | h | h | h <;> simp_all
  | blocks =>
    simp only [hp, fetchBlock] at h
    cases hq : s.pend with
    | nil =>
      simp only [hq] at h
      cases h
      exact .endsBlocks hp hq
    | cons b rest =>
      simp only [hq] at h
      cases hd : decodeBytes (.block b.bs) s.rest with
      | error e =>
        simp only [hd] at h
        cases h
        exact .fails _ s (by simp [hp]) (by simp) (by simp) rfl
      | ok r =>
        simp only [hd] at h
        exact exec_cases (decodeBlock_validIn hd).2 (by simp [hp]) h
  | runs =>
    simp only [hp, fetchRun] at h
    split at h
    · next i u hf =>
      split at hf
      · cases hd : decodeBytes .rle s.rest with
        | error e => simp [hd] at hf
        | ok r =>
          simp only [hd, Fetched.instr.injEq] at hf
          obtain ⟨rfl, rfl⟩ := hf
          exact exec_cases (decodeRle_wellFormed hd) (by simp [hp]) h
      · cases hf
    · next u hf =>
      cases h
      split at hf
      · cases hd : decodeBytes .rle s.rest with
        | error e =>
          simp only [hd, Fetched.sequencer.injEq] at hf
          subst hf
          unfold State.failRunFetch
          split
          · exact .fails _ s (by simp [hp]) (by simp) (by simp) rfl
          · split
            · exact .fails _ s (by simp [hp]) (by simp) (by simp) rfl
            · exact .fails _ s (by simp [hp]) (by simp) (by simp) rfl
        | ok r => simp [hd] at hf
      · next hk =>
        simp only [Fetched.sequencer.injEq] at hf
        subst hf
        unfold State.endRuns
        split
        · next hs => exact .endsRuns hp (Nat.not_lt.1 hk) hs
        · next hs => exact .endsScratchRuns hp (Nat.not_lt.1 hk) hs
  | finish =>
    simp only [hp] at h
    cases h
    exact .finishes hp

end Sys2Proof.Machine
end

