-- ==== Sys2Proof/Tests/Slice0.lean ====
section
/-! SUPPORT. The model's own tests: ill-formed terms are refused, words from the spec's encodings decode, one small step
for each instruction from spec/95_test_vectors.md, and a witness that meets the hypotheses of each statement. -/

namespace Sys2Proof.Tests

open Sys2Proof.Machine

set_option maxRecDepth 8000

/- Helpers. -/

def nextOf (o : Host.Outcome State Fault Refusal) : Option State :=
  match o with
  | .next s => some s
  | .fault _ => none
  | .refused _ => none

/-- One field of the next state. -/
def after {α : Type} (o : Host.Outcome State Fault Refusal) (f : State → α) : Option α := (nextOf o).map f

def refusalOf (o : Host.Outcome State Fault Refusal) : Option Refusal :=
  match o with
  | .refused r => some r
  | .next _ => none
  | .fault _ => none

/-- A running command of a 1 × 1 instance with an 8 × 8 frame: `CUR`, `PREV`, `REF` are `0x1111`, `0x2222`, `0x3333`. -/
def demo (phase : Phase) (inp : List Byte) (pend : List Block) : State :=
  { State.reset with
    life := .ready, w := 1, h := 1, aw := 8, ah := 8,
    fb := ⟨List.replicate 64 0x1111, List.replicate 64 0x2222, List.replicate 64 0x3333⟩,
    scr := [0], inp := inp, size := inp.length, hw := 1, hh := 1, status := .busy, dst := [0, 0], rleN := 2,
    scb := ⟨#[0xAAAA, 0xBBBB, 0xCCCC, 0xDDDD], rfl⟩, cb := Vector.ofFn fun i => BitVec.ofNat 16 (0x0100 + i.val),
    phase := phase, pend := pend }

/-- The same with an image as large as the frame, so that both divisors of `mvabs` are 8. -/
def wide (inp : List Byte) (pend : List Block) : State :=
  { demo .blocks inp pend with w := 8, h := 8, scr := List.replicate 64 0 }

/-- The RLE engine with `n` bytes to produce into `SCR` (95_test_vectors.md, RL1 to RL16). -/
def rleDemo (n : Nat) (inp : List Byte) : State :=
  { demo .runs inp [] with w := n, scr := List.replicate n 0, rleN := n, rleSink := .scr }

/-- The instance between commands. -/
def resting : State := { demo .idle [] [] with status := .ok }

/-- A frame of the 2 × 2 instance of SC1 and SC7. -/
def square (subc : Byte) (inp : List Byte) : State :=
  { demo .dispatch inp [] with w := 2, h := 2, scr := List.replicate 4 0, dst := List.replicate 8 0, subc := subc }

/- WellFormed refuses an ill-formed term of each kind. -/

theorem test_mv_index_too_large : (Instr.mv 0xF5).wellFormed = false := by decide
theorem test_copy_empty : (Instr.copy []).wellFormed = false := by decide
theorem test_copy_too_long : (Instr.copy (List.replicate 129 0)).wellFormed = false := by simp [Instr.wellFormed]
theorem test_run_empty : (Instr.run 0 5).wellFormed = false := by decide
theorem test_run_too_long : (Instr.run 129 5).wellFormed = false := by decide
theorem test_invalid_id_too_small : (Instr.invalid 8).wellFormed = false := by decide
theorem test_bounds_are_wellFormed :
    (Instr.mv 0xF4).wellFormed && (Instr.copy [0]).wellFormed && (Instr.copy (List.replicate 128 0)).wellFormed
      && (Instr.run 1 0).wellFormed && (Instr.run 128 0).wellFormed && (Instr.invalid 9).wellFormed = true := by simp [Instr.wellFormed]

/- Every constructor that has an encoding, from words written out from 30_encoding.md R54, R55, R59. -/

theorem test_decode_mv :
    decodeBytes (.block .s8) [0x00] = .ok (.mv 0x00, []) ∧ decodeBytes (.block .s2) [0xF4, 7] = .ok (.mv 0xF4, [7]) :=
  ⟨rfl, rfl⟩
theorem test_decode_mvabs : decodeBytes (.block .s8) [0xF5, 0xF0, 0xFF] = .ok (.mvabs 0xFFF0, []) := rfl
theorem test_decode_prev : decodeBytes (.block .s4) [0xF6] = .ok (.prev, []) := rfl
theorem test_decode_pix4c : decodeBytes (.block .s2) [0xF7, 0, 1, 0xFE, 0xFF] = .ok (.pix4c 0 1 0xFE 0xFF, []) := rfl
theorem test_decode_glyphc :
    decodeBytes (.block .s4) [0xF7, 7, 2, 3] = .ok (.glyphc 7 2 3, []) ∧
      decodeBytes (.block .s8) [0xF7, 7, 2, 3] = .ok (.glyphc 7 2 3, []) := ⟨rfl, rfl⟩
theorem test_decode_pix4 :
    decodeBytes (.block .s2) [0xF8, 1, 0, 2, 0, 3, 0, 4, 0] = .ok (.pix4 1 2 3 4, []) := rfl
theorem test_decode_glyph :
    decodeBytes (.block .s8) [0xF8, 0x00, 0x34, 0x12, 0x78, 0x56] = .ok (.glyph 0 0x1234 0x5678, []) := rfl
theorem test_decode_fills :
    [0xF9, 0xFA, 0xFB, 0xFC].map (fun op => (decodeBytes (.block .s4) [op]).toOption)
      = [some (.fills 0, []), some (.fills 1, []), some (.fills 2, []), some (.fills 3, [])] := by decide
theorem test_decode_fillc : decodeBytes (.block .s8) [0xFD, 0xFF] = .ok (.fillc 0xFF, []) := rfl
theorem test_decode_fill : decodeBytes (.block .s2) [0xFE, 0x00, 0x80] = .ok (.fill 0x8000, []) := rfl
theorem test_decode_split :
    decodeBytes (.block .s8) [0xFF] = .ok (.split, []) ∧ decodeBytes (.block .s4) [0xFF] = .ok (.split, []) :=
  ⟨rfl, rfl⟩
theorem test_decode_pix4f :
    decodeBytes (.block .s2) [0xFF, 0x0A, 0, 0x0B, 0, 0x0C, 0, 0x0D, 0] = .ok (.pix4f 0x0A 0x0B 0x0C 0x0D, []) := rfl
theorem test_decode_copy : decodeBytes .rle [0x04, 1, 2, 3, 9] = .ok (.copy [1, 2, 3], [9]) := rfl
theorem test_decode_run : decodeBytes .rle [0x1D, 0xAB] = .ok (.run 15 0xAB, []) := rfl
theorem test_decode_longest_runs :
    (decodeBytes .rle [0xFF, 0]).toOption = some (.run 128 0, []) ∧
      (decodeBytes .rle (0xFE :: List.replicate 128 5)).toOption = some (.copy (List.replicate 128 5), []) := by
  decide
theorem test_decode_subcodecs :
    [0, 1, 2, 3, 4, 5, 6, 7, 8, 9, 255].map (fun id => (decodeBytes .subcodec [id]).toOption.map (·.1))
      = [some .raw, some .subc1, some .block, some .copyref, some .copyprev, some .rle16, some .cbmap, some .subc7,
         some .rlecb, some (.invalid 9), some (.invalid 255)] := by decide
theorem test_decode_truncated :
    decodeBytes (.block .s8) [] = .error .noOpcode ∧
      decodeBytes (.block .s8) [0xF7, 1, 2] = .error (.truncatedOperands 0xF7) ∧
      decodeBytes (.block .s2) [0xF7, 1, 2, 3] = .error (.truncatedOperands 0xF7) ∧
      decodeBytes .rle [0x06, 1, 2] = .error (.truncatedOperands 0x06) := ⟨rfl, rfl, rfl, rfl⟩

/- The host's probe. -/

theorem test_table_words :
    decodeTableWord 24 0x0000F5 = some (.mvabs 0) ∧ decodeTableWord 40 0xF7 = some (.pix4c 0 0 0 0) ∧
      decodeTableWord 32 0xF7 = some (.glyphc 0 0 0) ∧ decodeTableWord 8 0xFF = some .split ∧
      decodeTableWord 72 0xFF = some (.pix4f 0 0 0 0) ∧ decodeTableWord 16 0x01 = some (.run 1 0) ∧
      decodeTableWord 8 0x08 = some .rlecb := by decide
theorem test_placed_words_run :
    ((nextOf (step (State.reset.withFetchWord 24 0xFE))).isSome &&
      (nextOf (step (State.reset.withFetchWord 16 0x01))).isSome &&
      (nextOf (step (State.reset.withFetchWord 8 0x00))).isSome) = true := by decide

/- The reader (RD1 to RD11). -/

theorem test_read_u16 :
    ((demo .dispatch [0x34, 0x12] []).readU16LE.map fun r => (r.1, r.2.pos)) = some (0x1234, 2) := by decide
theorem test_read_u32 :
    ((demo .dispatch [0x78, 0x56, 0x34, 0x12] []).readU32LE.map fun r => (r.1, r.2.pos)) = some (0x12345678, 4) := by
  decide
theorem test_skip_past_end : (demo .dispatch [1] []).skip 2 = none := by decide

/- Block opcodes (BK1 to BK23), on the 8 × 8 frame. -/

/-- BK1 with its assumption on the table; a displacement of `(1, 1)` reaches past the frame from an 8 × 8 block (MV3). -/
theorem test_mv (h : Config.mvTable 0 = (0, 0)) :
    (after (exec (.mv 0) (demo .blocks [0x00] [⟨0, 0, .s8⟩])) fun t => (t.pixel .b0 7 7, t.pos)) = some (0x3333, 1) := by
  have e : mvLookup 0 = (0, 0) := by
    unfold mvLookup
    rw [show (0 : Byte).toFin = 0 from rfl, h]
    rfl
  simp only [exec, execMv, e]
  decide
theorem test_mv_out_of_bounds (h : Config.mvTable 1 = (1, 0)) :
    (after (exec (.mv 1) (demo .blocks [0x01] [⟨0, 0, .s8⟩])) fun t => (t.pixel .b0 0 0, t.diag)) =
      some (0x1111, [⟨.mvSkip, 0, 0, 8, .vector 1 0⟩]) := by
  have e : mvLookup 1 = (1, 0) := by
    unfold mvLookup
    rw [show (1 : Byte).toFin = 1 from rfl, h]
    rfl
  simp only [exec, execMv, e]
  decide
/-- BK5, BK6, BK7, BK8: the split of the offset under each parameter. -/
theorem test_f5_split :
    f5Split (f5Index false 0x0010) 16 = (0, 1) ∧ f5Split (f5Index false 0xFFF0) 16 = (0, 4095) ∧
      f5Split (f5Index true 0xFFF0) 16 = (0, -1) ∧ f5Split (f5Index false 0x000C) (f5Width .w 12 16) = (0, 1) ∧
      f5Split (f5Index false 0x000C) (f5Width .aw 12 16) = (12, 0) := by decide
theorem test_mvabs :
    (after (exec (.mvabs 0) (wide [0xF5, 0, 0] [⟨6, 6, .s2⟩])) fun t => (t.pos, t.op, t.pend)) =
      some (3, 0xF5, []) := by
  have e : ∀ t : State, t.w = 8 → t.aw = 8 → t.f5Vector 0 = (0, 0) := by
    intro t hw ha
    unfold State.f5Vector
    rw [hw, ha]
    cases Config.f5Signed <;> cases Config.f5Divisor <;> rfl
  have h := blockInstr_next (s := wide [0xF5, 0, 0] [⟨6, 6, .s2⟩]) (op := opMvabs) (len := 3) (sizes := anySize)
    (fun t => t.mcCopy t.cx t.cy t.bs.toNat (t.f5Vector 0)) rfl rfl (by decide) rfl (by decide +kernel)
  simp only [exec, execMvabs, h, after, nextOf, Option.map_some]
  rw [e _ rfl rfl]
  decide
theorem test_prev :
    (after (exec .prev (demo .blocks [0xF6] [⟨4, 4, .s4⟩])) fun t => (t.pixel .b0 4 4, t.pixel .b0 3 4)) =
      some (0x2222, 0x1111) := by decide
theorem test_pix4c :
    (after (exec (.pix4c 0 1 0xFE 0xFF) (demo .blocks [0xF7, 0, 1, 0xFE, 0xFF] [⟨2, 0, .s2⟩])) fun t =>
      [t.pixel .b0 2 0, t.pixel .b0 3 0, t.pixel .b0 2 1, t.pixel .b0 3 1]) =
      some [0x0100, 0x0101, 0x01FE, 0x01FF] := by decide
/-- BK11: the mask's left column is foreground. -/
theorem test_glyphc (h : ∀ e : Fin 16, Config.glyph4 7 e = decide (e.val % 4 = 0)) :
    glyphMask .s4 7 0 0 = true ∧ glyphMask .s4 7 1 0 = false ∧ glyphMask .s4 7 0 3 = true := by
  refine ⟨?_, ?_, ?_⟩ <;> exact (h _).trans (by decide)
/-- BL2: with one colour, `CB[3]`, the mask does not matter. -/
theorem test_glyphc_one_colour :
    (after (exec (.glyphc 7 3 3) (demo .blocks [0xF7, 7, 3, 3] [⟨0, 0, .s4⟩])) fun t =>
      (t.pixel .b0 3 3, t.pixel .b0 4 3)) = some (0x0103, 0x1111) := by
  simp only [exec, execGlyphc, State.drawGlyph, ite_self]
  decide
theorem test_pix4 :
    (after (exec (.pix4 1 2 3 4) (demo .blocks [0xF8, 1, 0, 2, 0, 3, 0, 4, 0] [⟨6, 2, .s2⟩])) fun t =>
      [t.pixel .b0 6 2, t.pixel .b0 7 2, t.pixel .b0 6 3, t.pixel .b0 7 3]) = some [1, 2, 3, 4] := by decide
/-- BL2: with one colour the mask does not matter. -/
theorem test_glyph :
    (after (exec (.glyph 9 0x5678 0x5678) (demo .blocks [0xF8, 9, 0x78, 0x56, 0x78, 0x56] [⟨0, 0, .s8⟩])) fun t =>
      (t.pixel .b0 7 7, t.pos)) = some (0x5678, 6) := by
  simp only [exec, execGlyph, State.drawGlyph, ite_self]
  decide
theorem test_fills :
    (after (exec (.fills 2) (demo .blocks [0xFB] [⟨0, 0, .s4⟩])) fun t => (t.pixel .b0 3 3, t.pixel .b0 4 3)) =
      some (0xCCCC, 0x1111) := by decide
theorem test_fillc :
    (after (exec (.fillc 0xFF) (demo .blocks [0xFD, 0xFF] [⟨0, 0, .s8⟩])) fun t => t.pixel .b0 7 0) =
      some 0x01FF := by decide
theorem test_fill :
    (after (exec (.fill 0x8000) (demo .blocks [0xFE, 0, 0x80] [⟨0, 0, .s2⟩])) fun t =>
      (t.pixel .b0 1 1, t.pixel .b0 2 1)) = some (0x8000, 0x1111) := by decide
theorem test_split :
    (after (exec .split (demo .blocks [0xFF] [⟨4, 4, .s4⟩, ⟨0, 0, .s8⟩])) fun t => t.pend) =
      some [⟨4, 4, .s2⟩, ⟨6, 4, .s2⟩, ⟨4, 6, .s2⟩, ⟨6, 6, .s2⟩, ⟨0, 0, .s8⟩] := by decide
theorem test_pix4f :
    (after (exec (.pix4f 10 11 12 13) (demo .blocks [0xFF, 10, 0, 11, 0, 12, 0, 13, 0] [⟨6, 6, .s2⟩])) fun t =>
      (t.pixel .b0 7 6, t.pixel .b0 6 7)) = some (11, 12) := by decide
/-- BK20: no pixel is promised, the outcome is. -/
theorem test_truncated_block :
    (after (step (demo .blocks [0xF8, 1, 0, 2] [⟨0, 0, .s2⟩])) fun t => (t.status, t.cause, t.phase)) =
      some (.fail, .truncated, .idle) := by decide

/- Runs (RL2, RL4, RL10, RL13, RL14, P4). -/

theorem test_copy :
    (after (step (rleDemo 3 [0x04, 1, 2, 3])) fun t => (t.scr, t.pos, t.rleK)) = some ([1, 2, 3], 4, 3) := by
  decide
theorem test_run :
    (after (step (rleDemo 4 [0x05, 0xAA, 0, 0xBB])) fun t => (t.scr, t.pos)) = some ([0xAA, 0xAA, 0xAA, 0], 2) := by
  decide
theorem test_run_overrun :
    (after (step (rleDemo 4 [0x09])) fun t => t.cause) = some .rleOverrun ∧
      (after (step (rleDemo 4 [0x09, 0xAA])) fun t => t.cause) = some .rleOverrun ∧
      (after (step (rleDemo 4 [0x07])) fun t => t.cause) = some .truncated := by decide
/-- P4: a run that starts at the high byte of pixel 0. -/
theorem test_emit_inside_pixel : u16 (emitted 1 [0xAB] 0 0xCD) (emitted 1 [0xAB] 1 0x00) = 0xABCD := by decide

/- Subcodecs (SC1 to SC9). -/

/-- SC1 under both pixel maps: `DST` does not depend on the map. -/
theorem test_pixmap :
    [0, 1, 2, 3].map (pixmap .window 2 8) = [(0, 0), (1, 0), (0, 1), (1, 1)] ∧
      [0, 1, 2, 3].map (pixmap .linear 2 8) = [(0, 0), (1, 0), (2, 0), (3, 0)] := by decide
theorem test_raw :
    (after (exec .raw (square 0 [1, 0, 2, 0, 3, 0, 4, 0])) fun t => [t.imagePixel .b0 0, t.imagePixel .b0 1, t.imagePixel .b0 2, t.imagePixel .b0 3]) =
      some [1, 2, 3, 4] := by
  simp only [exec, execRaw, State.writeImage, State.imagePixel]
  generalize Config.pixelMap = m
  cases m <;> decide
theorem test_raw_truncated :
    (after (exec .raw (square 0 [1, 2, 3, 4, 5, 6, 7])) fun t => t.cause) = some .truncated := by decide
theorem test_cbmap :
    (after (exec .cbmap (square 6 [0, 1, 1, 0])) fun t => [t.imagePixel .b0 0, t.imagePixel .b0 1, t.imagePixel .b0 2, t.imagePixel .b0 3]) =
      some [0x0100, 0x0101, 0x0101, 0x0100] := by
  simp only [exec, execCbmap, State.writeImage, State.imagePixel]
  generalize Config.pixelMap = m
  cases m <;> decide
theorem test_copyref :
    (after (exec .copyref (square 3 [])) fun t => (t.pixel .b0 7 7, t.pos)) = some (0x3333, 0) := by decide
theorem test_copyprev :
    (after (exec .copyprev (square 4 [])) fun t => (t.pixel .b0 7 7, t.phase)) = some (0x2222, .finish) := by
  decide
theorem test_block :
    (after (exec .block { demo .dispatch [] [] with aw := 24, ah := 16 }) fun t => t.pend.map fun b => (b.cx, b.cy)) =
      some [(0, 0), (8, 0), (16, 0), (0, 8), (8, 8), (16, 8)] := by decide
theorem test_rle16 :
    (after (exec .rle16 (square 5 [])) fun t => (t.rleN, t.rleSink, t.phase)) = some (8, .curpix, .runs) := by
  decide
theorem test_rlecb : (after (exec .rlecb (square 8 [])) fun t => (t.rleN, t.rleSink)) = some (4, .scr) := by
  decide
theorem test_reserved :
    (Config.subcodec17 = .fail → after (exec .subc1 (square 1 [])) (fun t => t.cause) = some .badSubcodec) ∧
      (Config.subcodec17 = .noop → after (exec .subc7 (square 7 [])) (fun t => t.phase) = some .finish) := by
  constructor <;> intro h <;> simp only [exec, execSubc1, execSubc7, State.reservedSubcodec, h] <;> decide
theorem test_invalid :
    (after (exec (.invalid 255) (square 255 [])) fun t => (t.status, t.cause)) = some (.fail, .badSubcodec) := by
  decide

/- The frame sequencer (SC17, RT1 to RT5). -/

theorem test_init :
    (after (exec (.init 1 1) State.reset) fun t => t.life).isSome = decide (1 ≤ Config.maxDim) := by
  simp only [exec, execInit, hostCommand, after, nextOf, dimensionOk]
  have h : 1 ≤ Config.maxDim := Nat.le_add_left 1 _
  simp [h, State.reset]
theorem test_init_twice : refusalOf (exec (.init 8 8) resting) = some .alreadyInitialised := by decide
theorem test_deinit : (after (exec .deinit resting) fun t => (t.life, t.scr)) = some (.uninit, []) := by decide
theorem test_deinit_uninit : refusalOf (exec .deinit State.reset) = some .notInitialised := by decide
theorem test_decode_uninit : refusalOf (exec (.decode [] [] 0) State.reset) = some .notInitialised := by decide
/-- SC10: a fatal instance fails whatever the bytes. -/
theorem test_decode_fatal :
    (after (exec (.decode [0, 0] [] 0) { resting with life := .fatal }) fun t => (t.cause, t.life)) =
      some (.instanceFatal, .fatal) := by decide
theorem test_rotation :
    ([0, 1, 2, 3, 255].map fun r => after (step { demo .finish [] [] with rot := r }) fun t => (t.cur, t.prev, t.ref)) =
      [some (.b0, .b1, .b2), some (.b2, .b1, .b0), some (.b1, .b2, .b0), some (.b2, .b1, .b0),
       some (.b2, .b1, .b0)] := by decide
theorem test_copyOut_bytes :
    [0, 1].map (fun i => dstByte .little i 0xABCD) = [0xCD, 0xAB] ∧
      [0, 1].map (fun i => dstByte .big i 0xABCD) = [0xAB, 0xCD] := by decide
/-- SC14: the keyframe clear. -/
theorem test_keyframe :
    let t := State.keyframeClear { demo .dispatch [] [] with seq := 0, bg := 0x0F0F }
    (t.pixel .b1 7 7, t.pixel .b2 0 0) = (0x0F0F, 0x0F0F) := by
  simp only [State.keyframeClear]
  generalize Config.keyframeClearsCurrent = k
  cases k <;> decide

/- Witnesses: for each statement with hypotheses, states and operands that meet them, clause by clause. -/

theorem demo_buffers (phase : Phase) (inp : List Byte) (pend : List Block) (b : BufId) :
    ((demo phase inp pend).fb.get b).length = (demo phase inp pend).aw * (demo phase inp pend).ah := by cases b <;> rfl

theorem demo_blockReady (inp : List Byte) (b : Block) (rest : List Block) (h : b.cx + b.bs.toNat ≤ 8)
    (h' : b.cy + b.bs.toNat ≤ 8) : BlockReady (demo .blocks inp (b :: rest)) b rest :=
  ⟨rfl, rfl, ⟨h, h'⟩, demo_buffers _ _ _⟩

theorem demo_imageReady (phase : Phase) (inp : List Byte) (pend : List Block) : ImageReady (demo phase inp pend) :=
  ⟨(by decide : 1 ≤ 8), (by decide : 1 ≤ 8), demo_buffers _ _ _⟩

theorem one_le_maxDim : dimensionOk 1 = true := by
  have h : 1 ≤ Config.maxDim := Nat.le_add_left 1 _
  simp [h]

/-- A running demo state has the invariant when its cursor, its run engine and its pending blocks do. -/
theorem demo_inv (phase : Phase) (inp : List Byte) (pend : List Block) (hp : phase ≠ .idle)
    (hq : (demo phase inp pend).pendOk = true) : (demo phase inp pend).Inv where
  memory := by
    have hi : (demo phase inp pend).inp.length = (demo phase inp pend).size := rfl
    exact (memoryWf_iff _).2 ⟨⟨demo_buffers _ _ _, rfl⟩, hi⟩
  dimensions := fun _ => (dimensionsOk_iff _).2 ⟨one_le_maxDim, one_le_maxDim, show 8 = align8 1 by decide, show 8 = align8 1 by decide⟩
  roles := fun _ => rfl
  cursor := fun _ => Nat.zero_le _
  input := fun h => absurd h hp
  rle := (rleOk_iff _).2 ⟨Nat.zero_le _, fun _ => ⟨fun _ => rfl, nofun⟩⟩
  pending := hq
  running := fun _ => rfl
  resting := fun h => absurd h hp

theorem witness_ReaderOperations :
    (2 ≤ (demo .dispatch [1, 2] []).bytesLeft ∧ (demo .dispatch [1] []).bytesLeft < 2) ∧
      (4 ≤ (demo .dispatch [1, 2, 3, 4] []).bytesLeft ∧ (demo .dispatch [1, 2, 3] []).bytesLeft < 4) ∧
      (0 ≤ (demo .dispatch [] []).bytesLeft ∧ (demo .dispatch [] []).bytesLeft < 1) := by decide

theorem witness_DecodeOfEncode :
    (Instr.mv 0xF4).wellFormed = true ∧ (Instr.mv 0xF4).validIn (.block .s2) = true ∧ encode (.mv 0xF4) = some [0xF4] :=
  ⟨rfl, rfl, rfl⟩

theorem witness_EncodeOfDecode : decodeBytes .rle [0x01, 7, 8] = .ok (.run 1 7, [8]) := rfl

theorem witness_EveryOpcodeByteDecodes :
    8 ≤ (List.replicate 8 (0 : Byte)).length ∧ 128 ≤ (List.replicate 128 (0 : Byte)).length := by simp

theorem witness_BlockInstructionLengths :
    decodeBytes (.block .s4) [0xFF, 9] = .ok (.split, [9]) ∧
      decodeBytes (.block .s2) [0xFF, 1, 0, 2, 0, 3, 0, 4, 0] = .ok (.pix4f 1 2 3 4, []) ∧
      decodeBytes (.block .s2) [0xF4] = .ok (.mv 0xF4, []) := ⟨rfl, rfl, rfl⟩

theorem witness_StepRunsDecodedInstruction :
    decodeBytes (.block .s8) (demo .blocks [0xF6, 1] [⟨0, 0, .s8⟩]).rest = .ok (.prev, [1]) ∧
      (rleDemo 4 [0x05, 0xAA]).rleK < (rleDemo 4 [0x05, 0xAA]).rleN ∧
      decodeBytes .rle (rleDemo 4 [0x05, 0xAA]).rest = .ok (.run 3 0xAA, []) ∧
      (resting.withInbox [.init 1 1]).phase = .idle ∧ (resting.withInbox [.deinit]).inbox = [.deinit] ∧
      (resting.withInbox [.decode [0, 0] [] 0]).inbox = .decode [0, 0] [] 0 :: [] := ⟨rfl, by decide, rfl, rfl, rfl, rfl⟩

theorem witness_DispatchBySubcodecId :
    (square 0 []).phase = .dispatch ∧ (square 0 []).subc = 0 ∧ (square 1 []).subc = 1 ∧ (square 2 []).subc = 2 ∧
      (square 3 []).subc = 3 ∧ (square 4 []).subc = 4 ∧ (square 5 []).subc = 5 ∧ (square 6 []).subc = 6 ∧
      (square 7 []).subc = 7 ∧ (square 8 []).subc = 8 ∧ 9 ≤ (square 9 []).subc.toNat ∧
      9 ≤ (square 255 []).subc.toNat := by decide

theorem witness_IdleEngineWaits : resting.phase = .idle ∧ resting.inbox = [] := ⟨rfl, rfl⟩

theorem witness_MissingBytesFailInOrder :
    decodeBytes (.block .s8) (demo .blocks [] [⟨0, 0, .s8⟩]).rest = .error .noOpcode ∧
      ((rleDemo 4 []).rleK < (rleDemo 4 []).rleN ∧ (rleDemo 4 []).rest = []) ∧
      ((rleDemo 4 [0x09]).rest = [0x09] ∧ decodeBytes .rle (rleDemo 4 [0x09]).rest = .error (.truncatedOperands 0x09) ∧
        (rleDemo 4 [0x09]).rleN - (rleDemo 4 [0x09]).rleK < (0x09 : Byte).toNat / 2 + 1) ∧
      ((rleDemo 4 [0x07]).rest = [0x07] ∧ decodeBytes .rle (rleDemo 4 [0x07]).rest = .error (.truncatedOperands 0x07) ∧
        (0x07 : Byte).toNat / 2 + 1 ≤ (rleDemo 4 [0x07]).rleN - (rleDemo 4 [0x07]).rleK) :=
  ⟨rfl, ⟨by decide, rfl⟩, ⟨rfl, rfl, by decide⟩, ⟨rfl, rfl, by decide⟩⟩

theorem witness_LoopsEnd :
    ((demo .blocks [] []).phase = .blocks ∧ (demo .blocks [] []).pend = []) ∧
      (State.countOutput (demo .runs [] []) 2).rleN ≤ (State.countOutput (demo .runs [] []) 2).rleK ∧
      ((rleDemo 0 []).rleN ≤ (rleDemo 0 []).rleK ∧ (rleDemo 0 []).rleSink = .scr ∧
        (rleDemo 0 []).scr.length = (rleDemo 0 []).w * (rleDemo 0 []).h) := by decide

theorem witness_LoopsEnd_scratch :
    ∃ s : State, s.phase = .runs ∧ s.rleN ≤ s.rleK ∧ s.rleSink = .scr ∧ ImageReady s ∧ s.scr.length = s.w * s.h ∧
      0 < s.w * s.h ∧ s.scr[0]? = some 0 :=
  ⟨{ demo .runs [] [] with rleN := 1, rleK := 1, rleSink := .scr }, rfl, by decide, rfl,
    ⟨(by decide : 1 ≤ 8), (by decide : 1 ≤ 8), fun b => by cases b <;> rfl⟩, rfl, by decide, rfl⟩

theorem witness_CopyOutThenRotation :
    (demo .finish [] []).phase = .finish ∧
      2 * ((demo .finish [] []).w * (demo .finish [] []).h) ≤ (demo .finish [] []).dst.length ∧
      (demo .finish [] []).rot = 0 ∧ State.rot { demo .finish [] [] with rot := 2 } = 2 ∧
      State.rot { demo .finish [] [] with rot := 1 } ≠ 0 ∧ State.rot { demo .finish [] [] with rot := 255 } ≠ 2 := by decide

theorem maxDim_bounds : 1 ≤ Config.maxDim ∧ Config.maxDim ≤ 2 ^ 32 - 1 := by
  unfold Config.maxDim
  omega

theorem witness_InitAllocates :
    State.reset.phase = .idle ∧ State.reset.life = .uninit ∧ 1 ≤ (1 : U32).toNat ∧ (1 : U32).toNat ≤ Config.maxDim ∧
      (BitVec.ofNat 32 Config.maxDim).toNat = Config.maxDim := by
  have h := maxDim_bounds
  refine ⟨rfl, rfl, by decide, h.1, ?_⟩
  rw [BitVec.toNat_ofNat]
  omega

theorem witness_DeinitReleases : resting.phase = .idle ∧ resting.life ≠ .uninit := by decide

theorem witness_HostCommandsRefused :
    (resting.phase = .idle ∧ resting.life ≠ .uninit) ∧ (State.reset.phase = .idle ∧ State.reset.life = .uninit) ∧
      (0 : U32).toNat = 0 ∧ ([] : List Byte).length < 1 ∧ ([0] : List Byte).length < 2 * (resting.w * resting.h) ∧
      (demo .dispatch [] []).phase ≠ .idle := by decide

/-- A header whose byte at each offset is given. -/
def headerBytes (g : Nat → Byte) : List Byte := (List.range Config.headerSize).map g

theorem headerBytes_getD (g : Nat → Byte) {p : Nat} (h : p < Config.headerSize) : (headerBytes g).getD p 0 = g p := by
  simp [headerBytes, h]

theorem headerBytes_length (g : Nat → Byte) : (headerBytes g).length = Config.headerSize := by simp [headerBytes]

theorem headerBytes_hw (g : Nat → Byte) :
    (readHeader (headerBytes g)).hw =
      u32 (g (Config.headerOffset .hw)) (g (Config.headerOffset .hw + 1)) (g (Config.headerOffset .hw + 2))
        (g (Config.headerOffset .hw + 3)) := by
  have h := headerOffset_chain
  simp only [readHeader, u32At]
  rw [headerBytes_getD, headerBytes_getD, headerBytes_getD, headerBytes_getD] <;> omega

theorem headerBytes_hh (g : Nat → Byte) :
    (readHeader (headerBytes g)).hh =
      u32 (g (Config.headerOffset .hh)) (g (Config.headerOffset .hh + 1)) (g (Config.headerOffset .hh + 2))
        (g (Config.headerOffset .hh + 3)) := by
  have h := headerOffset_chain
  simp only [readHeader, u32At]
  rw [headerBytes_getD, headerBytes_getD, headerBytes_getD, headerBytes_getD] <;> omega

/-- R39, R53: width bytes `34 12 00 00` are 0x1234. -/
theorem test_header_little_endian :
    (readHeader (headerBytes fun p => ([0x34, 0x12] : List Byte).getD (p - Config.headerOffset .hw) 0)).hw = 0x1234 := by
  simp only [headerBytes_hw, Nat.sub_self, Nat.add_sub_cancel_left]
  decide

/-- A header of width 1, height 1 and zeros elsewhere: a keyframe of the demo instance. -/
def oneByOne : List Byte :=
  headerBytes fun p => if p = Config.headerOffset .hw ∨ p = Config.headerOffset .hh then 1 else 0

theorem oneByOne_dimensions : (readHeader oneByOne).hw = 1 ∧ (readHeader oneByOne).hh = 1 := by
  have h := headerOffset_chain
  simp only [oneByOne, headerBytes_hw, headerBytes_hh]
  constructor
  · simp (disch := omega) only [true_or, if_true, if_neg]
    decide
  · simp (disch := omega) only [or_true, if_true, if_neg]
    decide

theorem witness_DecodeStartsFrame :
    resting.phase = .idle ∧ resting.life = .ready ∧ Config.headerSize ≤ oneByOne.length ∧
      2 * (resting.w * resting.h) ≤ resting.dst.length ∧
      (∀ b, (resting.fb.get b).length = resting.aw * resting.ah) ∧
      (readHeader (oneByOne.take Config.headerSize)).hw.toNat = resting.w ∧
      (readHeader (oneByOne.take Config.headerSize)).hh.toNat = resting.h ∧ 7 < resting.aw ∧ 7 < resting.ah := by
  have hl : oneByOne.length = Config.headerSize := headerBytes_length _
  refine ⟨rfl, rfl, by omega, by decide, fun b => by cases b <;> rfl, ?_, ?_, by decide, by decide⟩ <;>
    rw [List.take_of_length_le (by omega)]
  · rw [oneByOne_dimensions.1]; rfl
  · rw [oneByOne_dimensions.2]; rfl

theorem witness_DecodeFailsInOrder :
    State.life { resting with life := .fatal } = .fatal ∧ 2 * (resting.w * resting.h) ≤ resting.dst.length ∧
      (resting.life = .ready ∧ 0 < Config.headerSize ∧ 0 ≤ ([] : List Byte).length) ∧
      Config.headerSize ≤ (headerBytes fun _ => 0).length ∧
      (readHeader (headerBytes fun _ => 0)).hw.toNat ≠ resting.w := by
  refine ⟨rfl, by decide, ⟨rfl, ?_, by decide⟩, by rw [headerBytes_length], ?_⟩
  · have := headerOffset_chain
    omega
  · rw [headerBytes_hw]
    decide

/-- For RawFillsImage, CbmapFillsImage, ReservedSubcodecsFollowParameter, RleSubcodecsStartEngine: the state before the
dispatch, with and without the payload. -/
theorem witness_subcodecs :
    (demo .dispatch [1, 2] []).phase = .dispatch ∧ ImageReady (demo .dispatch [1, 2] []) ∧
      2 * ((demo .dispatch [1, 2] []).w * (demo .dispatch [1, 2] []).h) ≤ (demo .dispatch [1, 2] []).bytesLeft ∧
      (demo .dispatch [1] []).bytesLeft < 2 * ((demo .dispatch [1] []).w * (demo .dispatch [1] []).h) ∧
      (demo .dispatch [1] []).w * (demo .dispatch [1] []).h ≤ (demo .dispatch [1] []).bytesLeft ∧
      (demo .dispatch [] []).bytesLeft < (demo .dispatch [] []).w * (demo .dispatch [] []).h :=
  ⟨rfl, demo_imageReady _ _ _, by decide, by decide, by decide, by decide⟩

theorem witness_WholeFrameCopies :
    (demo .dispatch [] []).phase = .dispatch ∧
      ∀ b, ((demo .dispatch [] []).fb.get b).length = (demo .dispatch [] []).aw * (demo .dispatch [] []).ah :=
  ⟨rfl, demo_buffers _ _ _⟩

theorem witness_InvalidSubcodecsFail : (square 9 []).phase = .dispatch ∧ 9 ≤ (9 : Byte).toNat ∧ 9 ≤ (255 : Byte).toNat := by
  decide

theorem witness_BlockSubcodecLoadsTopLevelBlocks :
    (demo .dispatch [] []).phase = .dispatch ∧ 0 < (demo .dispatch [] []).aw / 8 ∧ 0 < (demo .dispatch [] []).ah / 8 := by
  decide

/-- For CopyEmitsLiteralBytes and RunEmitsFillByte, each clause of the run step: no byte, too long a run, a missing operand byte, a run that just fits. -/
theorem witness_runs :
    ImageReady (demo .runs [0x03, 5] []) ∧ (demo .runs [] []).bytesLeft = 0 ∧
      (0 < (demo .runs [0x05] []).bytesLeft ∧ (demo .runs [0x05] []).rleN - (demo .runs [0x05] []).rleK < 3) ∧
      (2 ≤ (demo .runs [0x03] []).rleN - (demo .runs [0x03] []).rleK ∧ (demo .runs [0x03] []).bytesLeft < 1 + 1) ∧
      1 + 1 ≤ (demo .runs [0x03, 5] []).bytesLeft ∧ 1 + 2 ≤ (demo .runs [0x02, 5, 6] []).bytesLeft :=
  ⟨demo_imageReady _ _ _, by decide, by decide, by decide, by decide, by decide⟩

/-- For MvCopiesFromReference, PrevCopiesFromPrevious, PixelFormsWriteRaster, GlyphFormsDrawMask, FillFormsPaintBlock and
SplitPushesQuadrants: the head block at the far corner of the frame, at each size, with and without its bytes. -/
theorem witness_blocks :
    BlockReady (demo .blocks [0xF4] [⟨0, 0, .s8⟩]) ⟨0, 0, .s8⟩ [] ∧
      BlockReady (demo .blocks [0xFE, 1, 2] [⟨4, 4, .s4⟩]) ⟨4, 4, .s4⟩ [] ∧
      BlockReady (demo .blocks [0xF7, 1, 2, 3, 4] [⟨6, 6, .s2⟩]) ⟨6, 6, .s2⟩ [] ∧
      (0xF4 : Byte).toNat ≤ 0xF4 ∧ 1 ≤ (demo .blocks [0xF4] [⟨0, 0, .s8⟩]).bytesLeft ∧
      (demo .blocks [] [⟨0, 0, .s8⟩]).bytesLeft < 1 ∧ BlockSize.s4 ≠ .s2 :=
  ⟨demo_blockReady _ _ _ (by decide) (by decide), demo_blockReady _ _ _ (by decide) (by decide),
    demo_blockReady _ _ _ (by decide) (by decide), by decide, by decide, by decide, by decide⟩

theorem witness_MvabsCopiesFromReference :
    BlockReady (wide [0xF5, 0x0B, 0] [⟨0, 0, .s2⟩]) ⟨0, 0, .s2⟩ [] ∧ 0 < (wide [0xF5, 0x0B, 0] [⟨0, 0, .s2⟩]).w ∧
      (8 : Int) = (if Config.f5Divisor = .w then 8 else 8 : Nat) ∧ (0 : Int) ≤ 3 ∧ (3 : Int) < 8 ∧
      (1 : Int) * 8 + 3 =
        (if Config.f5Signed = true ∧ 0x8000 ≤ (0x000B : BitVec 16).toNat then ((0x000B : BitVec 16).toNat : Int) - 0x10000
         else (0x000B : BitVec 16).toNat) := by
  refine ⟨⟨rfl, rfl, ⟨by decide, by decide⟩, fun b => by cases b <;> rfl⟩, by decide, ?_, by decide, by decide, ?_⟩
  · split <;> rfl
  · rw [if_neg (by simp)]
    rfl

theorem witness_EngineInstructionsStopOutOfPlace :
    Instr.prev.validIn (.block .s8) = true ∧ (demo .runs [] []).phase ≠ .blocks ∧
      ((demo .blocks [] []).phase = .blocks ∧ (demo .blocks [] []).pend = []) ∧
      (Instr.split.validIn (.block .s8) = true ∧ Instr.split.validIn (.block .s2) = false) ∧
      (demo .blocks [] [⟨8, 0, .s8⟩]).aw < (8 : Nat) + BlockSize.s8.toNat ∧
      (Instr.run 1 0).validIn .rle = true ∧ (demo .blocks [] []).phase ≠ .runs ∧
      Instr.raw.validIn .subcodec = true ∧ (demo .runs [] []).phase ≠ .dispatch := by decide

theorem witness_GlyphIndexOutsideTableSkips : 256 ≤ 256 := Nat.le_refl _

theorem witness_BlocksShareOutTheFrame :
    (8 % 8 = 0 ∧ 7 < 8) ∧ Block.bs ⟨0, 0, .s8⟩ ≠ .s2 ∧ blockCovers ⟨0, 0, .s8⟩ 7 7 = true ∧
      blockCovers ⟨0, 0, .s4⟩ 4 0 = false := by decide

theorem witness_PixelMapIsInjective :
    3 ≤ 8 ∧ 2 ≤ 8 ∧ 5 < 3 * 2 ∧ pixelSlot .window 3 2 8 2 1 = some 5 ∧ pixelSlot .linear 3 2 8 5 0 = some 5 := by decide

theorem witness_StepKeepsInvariant :
    (demo .blocks [0xF6] [⟨0, 0, .s8⟩]).Inv ∧ ∃ t, step (demo .blocks [0xF6] [⟨0, 0, .s8⟩]) = .next t :=
  ⟨demo_inv _ _ _ (by decide) (by decide), _, rfl⟩

/-- For RunningCommandAlwaysProgresses and EveryCommandTerminates: a state in each running phase has the invariant. -/
theorem witness_running :
    (demo .dispatch [] []).Inv ∧ (demo .blocks [] [⟨0, 0, .s8⟩]).Inv ∧ (demo .runs [] []).Inv ∧ (demo .finish [] []).Inv :=
  ⟨demo_inv _ _ _ (by decide) (by decide), demo_inv _ _ _ (by decide) (by decide),
    demo_inv _ _ _ (by decide) (by decide), demo_inv _ _ _ (by decide) (by decide)⟩

theorem witness_PendingListStaysShort :
    (demo .blocks [0xFF] [⟨0, 0, .s4⟩]).PendShape ∧ ∃ t, step (demo .blocks [0xFF] [⟨0, 0, .s4⟩]) = .next t := by
  refine ⟨⟨[], [⟨0, 0, .s4⟩], [], rfl, ?_⟩, _, rfl⟩
  refine ⟨by simp, by simp, by simp, by decide, by decide, by decide, by simp, fun _ => by decide⟩

theorem witness_PendingBlocksStayDisjoint :
    (demo .blocks [0xF6] [⟨0, 0, .s4⟩, ⟨4, 0, .s4⟩]).PendDisjoint ∧
      ∃ t, step (demo .blocks [0xF6] [⟨0, 0, .s4⟩, ⟨4, 0, .s4⟩]) = .next t := by
  refine ⟨?_, _, rfl⟩
  refine List.Pairwise.cons ?_ (List.pairwise_singleton _ _)
  intro b hb x y
  simp only [List.mem_singleton] at hb
  subst hb
  simp only [blockCovers_iff, BlockSize.toNat]
  omega

theorem witness_RawFrameRoundTrip :
    (demo .dispatch [7, 9] []).Inv ∧ (demo .dispatch [7, 9] []).phase = .dispatch ∧ (demo .dispatch [7, 9] []).subc = 0 ∧
      2 * ((demo .dispatch [7, 9] []).w * (demo .dispatch [7, 9] []).h) ≤ (demo .dispatch [7, 9] []).bytesLeft :=
  ⟨demo_inv _ _ _ (by decide) (by decide), rfl, rfl, by decide⟩

/-- For RunningCommandWritesOnlyCurrentBuffer, RunningCommandKeepsItsInput, CursorOnlyAdvances,
DiagnosticsOnlyFromSkippedVectors and FailedStepLeavesReferences: a step of a running command that does not fail, in each
loop, and one that fails. -/
theorem witness_running_steps :
    (∃ t, step (demo .blocks [0xF6] [⟨0, 0, .s8⟩]) = .next t ∧ t.status ≠ .fail ∧
      (demo .blocks [0xF6] [⟨0, 0, .s8⟩]).pend ≠ []) ∧
    (∃ t, step (demo .runs [0x01, 5] []) = .next t ∧ t.status ≠ .fail ∧
      (demo .runs [0x01, 5] []).rleK < (demo .runs [0x01, 5] []).rleN) ∧
    (∃ t, step (demo .blocks [] [⟨0, 0, .s8⟩]) = .next t ∧ t.status = .fail ∧
      (demo .blocks [] [⟨0, 0, .s8⟩]).status = .busy) ∧ BufId.b1 ≠ (demo .blocks [] []).cur :=
  ⟨⟨_, rfl, by decide, by decide⟩, ⟨_, rfl, by decide, by decide⟩, ⟨_, rfl, rfl, rfl⟩, by decide⟩

theorem witness_LifecycleTransitions :
    (step State.reset = .next State.reset ∧ State.reset.life = .uninit) ∧
      (step resting = .next resting ∧ resting.life = .ready) ∧
      (∃ s, step s = .next s ∧ s.life = .fatal) :=
  ⟨⟨rfl, rfl⟩, ⟨rfl, rfl⟩, { resting with life := .fatal }, rfl, rfl⟩

end Sys2Proof.Tests
end

section
/-! The whole-frame copies `copyref` and `copyprev` (R84, R109, R110). -/

namespace Sys2Proof.Machine

/-- At its place in the sequence a subcodec runs its effect (R105), the converse of `subcodecInstr_cases`. -/
theorem subcodecInstr_next {s : State} (effect : State → State) (hp : s.phase = .dispatch) :
    subcodecInstr effect s = .next (effect s) := if_pos hp

theorem exec_copyref (s : State) :
    exec .copyref s = subcodecInstr (fun s => (s.copyFrame s.ref).endSubcodec) s := rfl

theorem exec_copyprev (s : State) :
    exec .copyprev s = subcodecInstr (fun s => (s.copyFrame s.prev).endSubcodec) s := rfl

/-- A whole-frame copy and the end of its subcodec write the frame buffers and the phase alone. -/
theorem copyFrame_endSubcodec_eq (s : State) (src : BufId) :
    (s.copyFrame src).endSubcodec =
      { s with fb := (s.copyFrame src).endSubcodec.fb, phase := .finish } := rfl

/-- One pixel after a whole-frame copy and the end of its subcodec, which moves no pixel. -/
theorem pixel_copyFrame_endSubcodec (s : State) (src c : BufId) {x y : Nat}
    (hlen : (s.fb.get s.cur).length = s.aw * s.ah) (hx : x < s.aw) (hy : y < s.ah) :
    (s.copyFrame src).endSubcodec.pixel c x y = if c = s.cur then s.pixel src x y else s.pixel c x y :=
  calc (s.copyFrame src).endSubcodec.pixel c x y
    _ = (s.copyFrame src).pixel c x y := pixel_congr (State.endSubcodec_fb _) (State.endSubcodec_aw _) c x y
    _ = if c = s.cur then s.pixel src x y else s.pixel c x y := pixel_copyFrame s src c hlen hx hy

/-- Settles O20: both subcodecs are one `copyFrame`, from `REF` and from `PREV`, whose pixels are known. -/
theorem wholeFrameCopies : Obligations.WholeFrameCopies := by
  intro s hp hlen
  constructor
  · exact ⟨(s.copyFrame s.ref).endSubcodec, by rw [exec_copyref, subcodecInstr_next _ hp],
      copyFrame_endSubcodec_eq s s.ref, fun i _ _ => pixel_copyFrame_endSubcodec s s.ref i (hlen s.cur)⟩
  · exact ⟨(s.copyFrame s.prev).endSubcodec, by rw [exec_copyprev, subcodecInstr_next _ hp],
      copyFrame_endSubcodec_eq s s.prev, fun i _ _ => pixel_copyFrame_endSubcodec s s.prev i (hlen s.cur)⟩

end Sys2Proof.Machine
end

section
/-! The start of the RLE engine by `rle16` and `rlecb` (R87, R111, R113). -/

namespace Sys2Proof.Machine

theorem exec_rle16 (s : State) :
    exec .rle16 s = subcodecInstr (fun s => s.startRle (2 * (s.w * s.h)) .curpix) s := rfl

theorem exec_rlecb (s : State) :
    exec .rlecb s = subcodecInstr (fun s => s.startRle (s.w * s.h) .scr) s := rfl

/-- What starting the engine writes (R87): the size, the output count, the sink and the phase, and nothing else. -/
theorem startRle_eq (s : State) (outSize : Nat) (sink : Sink) :
    s.startRle outSize sink = { s with rleN := outSize, rleK := 0, rleSink := sink, phase := .runs } := rfl

/-- Settles O24: both subcodecs run at the dispatch and are one `startRle`, with the size and the sink of each. -/
theorem rleSubcodecsStartEngine : Obligations.RleSubcodecsStartEngine := by
  intro s hp
  constructor
  · rw [exec_rle16, subcodecInstr_next _ hp, startRle_eq]
  · rw [exec_rlecb, subcodecInstr_next _ hp, startRle_eq]

end Sys2Proof.Machine
end

section
/-! The start of the block decoder by `block`: every top-level block is pending, in raster order (R108, R120). -/

namespace Sys2Proof.Machine

/-- Rows of equal width, laid one behind another, hold `height * width` entries. -/
theorem length_flatMap_range {α : Type} {row : Nat → List α} {width : Nat} (hrow : ∀ y, (row y).length = width)
    (height : Nat) : ((List.range height).flatMap row).length = height * width := by
  simp [List.length_flatMap, hrow]

/-- The raster order of such rows: place `x` of row `r` stands behind `r` whole rows. -/
theorem getElem?_flatMap_range {α : Type} {row : Nat → List α} {width x r height : Nat}
    (hrow : ∀ y, (row y).length = width) (hx : x < width) (hr : r < height) :
    ((List.range height).flatMap row)[r * width + x]? = (row r)[x]? := by
  induction height with
  | zero => omega
  | succ n ih =>
    have hlen := length_flatMap_range hrow n
    have hsplit : (List.range (n + 1)).flatMap row = (List.range n).flatMap row ++ row n := by
      simp [List.range_succ]
    rw [hsplit]
    obtain hlt | rfl : r < n ∨ r = n := by omega
    · have hbefore : r * width + x < n * width :=
        calc r * width + x
          _ < (r + 1) * width := by rw [Nat.succ_mul]; omega
          _ ≤ n * width := Nat.mul_le_mul_right width hlt
      rw [List.getElem?_append_left (hlen ▸ hbefore), ih hlt]
    · rw [List.getElem?_append_right (by omega), hlen, Nat.add_sub_cancel_left]

/-- One block for each 8×8 square of the aligned frame (R120). -/
theorem length_topLevelBlocks (aw ah : Nat) : (topLevelBlocks aw ah).length = aw / 8 * (ah / 8) :=
  (length_flatMap_range (by simp) (ah / 8)).trans (Nat.mul_comm ..)

/-- The block at each place of the raster order (R120). -/
theorem getElem?_topLevelBlocks {aw ah bx r : Nat} (hx : bx < aw / 8) (hr : r < ah / 8) :
    (topLevelBlocks aw ah)[r * (aw / 8) + bx]? = some ⟨8 * bx, 8 * r, .s8⟩ := by
  unfold topLevelBlocks
  rw [getElem?_flatMap_range (by simp) hx hr, List.getElem?_map, List.getElem?_range hx, Option.map_some]

theorem exec_block (s : State) :
    exec .block s = subcodecInstr (fun s => (s.withPend (topLevelBlocks s.aw s.ah)).enter .blocks) s := rfl

/-- Settles O23: `block` loads `PEND` with `topLevelBlocks`, whose length and places are known. -/
theorem blockSubcodecLoadsTopLevelBlocks : Obligations.BlockSubcodecLoadsTopLevelBlocks := by
  intro s hp
  refine ⟨(s.withPend (topLevelBlocks s.aw s.ah)).enter .blocks, ?runs, rfl, ?count, ?places⟩
  case runs => rw [exec_block, subcodecInstr_next _ hp]
  case count => exact length_topLevelBlocks s.aw s.ah
  case places => exact fun _ _ => getElem?_topLevelBlocks

end Sys2Proof.Machine
end

section
/-! The byte-coded languages: what is encoded decodes to the instruction again, what is decoded encodes to the bytes
read, and every opcode byte has a meaning and a length (R54 to R61). -/

namespace Sys2Proof

/- The operand readers on the bytes the encoder writes (R57). -/

theorem decodeU16_u16Bytes (op : Byte) (make : BitVec 16 → Instr) (v : BitVec 16) (rest : List Byte) :
    decodeU16 op make (u16Bytes v ++ rest) = .ok (make v, rest) := by
  simp [u16Bytes, decodeU16]

theorem decodePixels_u16Bytes (op : Byte) (make : Pixel → Pixel → Pixel → Pixel → Instr) (a b c d : Pixel)
    (rest : List Byte) :
    decodePixels op make (u16Bytes a ++ u16Bytes b ++ u16Bytes c ++ u16Bytes d ++ rest)
      = .ok (make a b c d, rest) := by
  simp [u16Bytes, decodePixels]

theorem decodeGlyph_u16Bytes (g : Byte) (bg fg : Pixel) (rest : List Byte) :
    decodeGlyph (g :: (u16Bytes bg ++ u16Bytes fg) ++ rest) = .ok (.glyph g bg fg, rest) := by
  simp [u16Bytes, decodeGlyph]

/-- An encoding is the opcode byte and the operand bytes behind it. -/
theorem encode_eq_some {i : Instr} {bytes : List Byte} :
    encode i = some bytes ↔ ∃ op, i.opcode = some op ∧ op :: i.operandBytes = bytes := Option.map_eq_some_iff

/- The run byte of a run of `n` bytes (R59): twice `n - 1`, and one more for a fill run. -/

theorem runLength_fillByte {n : Nat} (h1 : 1 ≤ n) (h128 : n ≤ 128) :
    runLength (BitVec.ofNat 8 (2 * (n - 1) + 1)) = n := by
  rw [runLength_toNat, BitVec.toNat_ofNat]
  omega

theorem isFillRun_fillByte (n : Nat) : isFillRun (BitVec.ofNat 8 (2 * (n - 1) + 1)) = true := by
  rw [isFillRun_iff, BitVec.toNat_ofNat]
  omega

theorem runLength_copyByte {n : Nat} (h1 : 1 ≤ n) (h128 : n ≤ 128) : runLength (BitVec.ofNat 8 (2 * (n - 1))) = n := by
  rw [runLength_toNat, BitVec.toNat_ofNat]
  omega

theorem isFillRun_copyByte (n : Nat) : isFillRun (BitVec.ofNat 8 (2 * (n - 1))) = false := by
  rw [Bool.eq_false_iff, ne_eq, isFillRun_iff, BitVec.toNat_ofNat]
  omega

/-- The ids above 8 name no subcodec (R54). -/
theorem decodeSubcodec_invalid {id : Byte} (h : 9 ≤ id.toNat) : decodeSubcodec id = .invalid id := by
  obtain ⟨k, hk⟩ := Nat.exists_eq_add_of_le' h
  unfold decodeSubcodec
  rw [hk]
  rfl

/- Decoding an encoding, in each language. -/

theorem decodeBlock_encode {i : Instr} {bs : BlockSize} {op : Byte} (rest : List Byte) (hw : i.wellFormed = true)
    (hv : i.validIn (.block bs) = true) (ho : i.opcode = some op) :
    decodeBlock bs (op :: (i.operandBytes ++ rest)) = .ok (i, rest) := by
  cases i with
  | mv k =>
    cases ho
    have hk : op.toNat ≤ opMvLast := decide_eq_true_iff.1 hw
    exact if_pos hk
  | mvabs v => cases ho; exact decodeU16_u16Bytes opMvabs .mvabs v rest
  | prev => cases ho; rfl
  | pix4c i0 i1 i2 i3 => cases ho; obtain rfl : bs = .s2 := eq_of_beq hv; rfl
  | glyphc g bgi fgi =>
    cases ho
    cases bs with
    | s2 => cases hv
    | s4 => rfl
    | s8 => rfl
  | pix4 p0 p1 p2 p3 =>
    cases ho
    obtain rfl : bs = .s2 := eq_of_beq hv
    exact decodePixels_u16Bytes opLiteral .pix4 p0 p1 p2 p3 rest
  | glyph g bg fg =>
    cases ho
    have hg := decodeGlyph_u16Bytes g bg fg rest
    cases bs with
    | s2 => cases hv
    | s4 => exact hg
    | s8 => exact hg
  | fills k => cases ho; fin_cases k <;> rfl
  | fillc k => cases ho; rfl
  | fill v => cases ho; exact decodeU16_u16Bytes opFill .fill v rest
  | split =>
    cases ho
    cases bs with
    | s2 => cases hv
    | s4 => rfl
    | s8 => rfl
  | pix4f p0 p1 p2 p3 =>
    cases ho
    obtain rfl : bs = .s2 := eq_of_beq hv
    exact decodePixels_u16Bytes opSplit .pix4f p0 p1 p2 p3 rest
  | _ => cases hv

theorem decodeRle_encode {i : Instr} {op : Byte} (rest : List Byte) (hw : i.wellFormed = true)
    (hv : i.validIn .rle = true) (ho : i.opcode = some op) :
    decodeRle (op :: (i.operandBytes ++ rest)) = .ok (i, rest) := by
  cases i with
  | copy bytes =>
    cases ho
    simp only [Instr.wellFormed, Bool.and_eq_true, decide_eq_true_eq] at hw
    have hn := runLength_copyByte hw.1 hw.2
    simp [decodeRle, isFillRun_copyByte, hn, Instr.operandBytes]
  | run n b =>
    cases ho
    simp only [Instr.wellFormed, Bool.and_eq_true, decide_eq_true_eq] at hw
    have hn := runLength_fillByte hw.1 hw.2
    simp [decodeRle, isFillRun_fillByte, hn, Instr.operandBytes, decodeU8]
  | _ => cases hv

theorem decodeSubcodec_encode {i : Instr} {op : Byte} (hw : i.wellFormed = true) (hv : i.validIn .subcodec = true)
    (ho : i.opcode = some op) : decodeSubcodec op = i ∧ i.operandBytes = [] := by
  cases i with
  | raw | subc1 | block | copyref | copyprev | rle16 | cbmap | subc7 | rlecb => cases ho; exact ⟨rfl, rfl⟩
  | invalid id => cases ho; exact ⟨decodeSubcodec_invalid (decide_eq_true_iff.1 hw), rfl⟩
  | _ => cases hv

/-- Settles O2: an encoding is an opcode byte and operand bytes, which each language's decoder reads back. -/
theorem decodeOfEncode : Obligations.DecodeOfEncode := by
  intro i l bytes rest hw hv he
  obtain ⟨op, ho, rfl⟩ := encode_eq_some.1 he
  cases l with
  | block bs => exact decodeBlock_encode rest hw hv ho
  | rle => exact decodeRle_encode rest hw hv ho
  | subcodec =>
    obtain ⟨hd, hnil⟩ := decodeSubcodec_encode hw hv ho
    rw [hnil]
    exact congrArg (fun j => Except.ok (j, rest)) hd

/- What is decoded is what its encoding says. -/

/- What each operand reader reads is the encoding of what it answers (R127 to R130, R134, R135). -/

theorem decodeCodebook_ok {bs : BlockSize} {t rest : List Byte} {i : Instr} (h : decodeCodebook bs t = .ok (i, rest)) :
    i.opcode = some opCodebook ∧ i.operandBytes ++ rest = t := by
  unfold decodeCodebook at h
  split at h <;> cases h <;> exact ⟨rfl, rfl⟩

theorem decodeLiteral_ok {bs : BlockSize} {t rest : List Byte} {i : Instr} (h : decodeLiteral bs t = .ok (i, rest)) :
    i.opcode = some opLiteral ∧ i.operandBytes ++ rest = t := by
  cases bs with
  | s2 => obtain ⟨_, _, _, _, rfl, rfl⟩ := decodePixels_ok h; exact ⟨rfl, rfl⟩
  | s4 => obtain ⟨_, _, _, rfl, rfl⟩ := decodeGlyph_ok h; exact ⟨rfl, rfl⟩
  | s8 => obtain ⟨_, _, _, rfl, rfl⟩ := decodeGlyph_ok h; exact ⟨rfl, rfl⟩

theorem decodeSplit_ok {bs : BlockSize} {t rest : List Byte} {i : Instr} (h : decodeSplit bs t = .ok (i, rest)) :
    i.opcode = some opSplit ∧ i.operandBytes ++ rest = t := by
  cases bs with
  | s2 => obtain ⟨_, _, _, _, rfl, rfl⟩ := decodePixels_ok h; exact ⟨rfl, rfl⟩
  | s4 => cases h; exact ⟨rfl, rfl⟩
  | s8 => cases h; exact ⟨rfl, rfl⟩

/-- The last opcode byte is the one no check names (R55). -/
theorem eq_opSplit {op : Byte} (hmv : ¬op.toNat ≤ opMvLast) (h5 : op ≠ opMvabs) (h6 : op ≠ opPrev)
    (h7 : op ≠ opCodebook) (h8 : op ≠ opLiteral) (h9 : op ≠ opFills) (ha : op ≠ opFills + 1) (hb : op ≠ opFills + 2)
    (hc : op ≠ opFills + 3) (hd : op ≠ opFillc) (he : op ≠ opFill) : op = opSplit := by
  simp only [opMvLast, opMvabs, opPrev, opCodebook, opLiteral, opFills, opFillc, opFill, opSplit] at *
  bv_omega

theorem decodeBlockOperands_ok {bs : BlockSize} {op : Byte} {t rest : List Byte} {i : Instr}
    (h : decodeBlockOperands bs op t = .ok (i, rest)) : i.opcode = some op ∧ i.operandBytes ++ rest = t := by
  unfold decodeBlockOperands at h
  obtain ⟨-, h⟩ | ⟨hmv, h⟩ := ite_eq_iff.1 h
  · cases h; exact ⟨rfl, rfl⟩
  obtain ⟨rfl, h⟩ | ⟨h5, h⟩ := ite_eq_iff.1 h
  · obtain ⟨v, rfl, rfl⟩ := decodeU16_ok h; exact ⟨rfl, rfl⟩
  obtain ⟨rfl, h⟩ | ⟨h6, h⟩ := ite_eq_iff.1 h
  · cases h; exact ⟨rfl, rfl⟩
  obtain ⟨rfl, h⟩ | ⟨h7, h⟩ := ite_eq_iff.1 h
  · exact decodeCodebook_ok h
  obtain ⟨rfl, h⟩ | ⟨h8, h⟩ := ite_eq_iff.1 h
  · exact decodeLiteral_ok h
  obtain ⟨rfl, h⟩ | ⟨h9, h⟩ := ite_eq_iff.1 h
  · cases h; exact ⟨rfl, rfl⟩
  obtain ⟨rfl, h⟩ | ⟨ha, h⟩ := ite_eq_iff.1 h
  · cases h; exact ⟨rfl, rfl⟩
  obtain ⟨rfl, h⟩ | ⟨hb, h⟩ := ite_eq_iff.1 h
  · cases h; exact ⟨rfl, rfl⟩
  obtain ⟨rfl, h⟩ | ⟨hc, h⟩ := ite_eq_iff.1 h
  · cases h; exact ⟨rfl, rfl⟩
  obtain ⟨rfl, h⟩ | ⟨hd, h⟩ := ite_eq_iff.1 h
  · obtain ⟨v, rfl, rfl⟩ := decodeU8_ok h; exact ⟨rfl, rfl⟩
  obtain ⟨rfl, h⟩ | ⟨he, h⟩ := ite_eq_iff.1 h
  · obtain ⟨v, rfl, rfl⟩ := decodeU16_ok h; exact ⟨rfl, rfl⟩
  · rw [eq_opSplit hmv h5 h6 h7 h8 h9 ha hb hc hd he]
    exact decodeSplit_ok h

theorem decodeRle_ok {r : Byte} {t rest : List Byte} {i : Instr} (h : decodeRle (r :: t) = .ok (i, rest)) :
    i.validIn .rle = true ∧ i.opcode = some r ∧ i.operandBytes ++ rest = t := by
  have hr := r.isLt
  simp only [decodeRle] at h
  split at h
  next hf =>
    obtain ⟨b, rfl, rfl⟩ := decodeU8_ok h
    refine ⟨rfl, congrArg some (BitVec.eq_of_toNat_eq ?_), rfl⟩
    rw [isFillRun_iff] at hf
    rw [BitVec.toNat_ofNat, runLength_toNat]
    omega
  next hf =>
  split at h
  next => cases h
  next hlen =>
    cases h
    refine ⟨rfl, congrArg some (BitVec.eq_of_toNat_eq ?_), List.take_append_drop ..⟩
    rw [isFillRun_iff] at hf
    rw [List.length_take, Nat.min_eq_left (Nat.not_lt.1 hlen), BitVec.toNat_ofNat, runLength_toNat]
    omega

/-- Every id names a subcodec, whose encoding is the id alone (R54). -/
theorem decodeSubcodec_spec (id : Byte) :
    (decodeSubcodec id).wellFormed = true ∧ (decodeSubcodec id).validIn .subcodec = true ∧
      (decodeSubcodec id).opcode = some id ∧ (decodeSubcodec id).operandBytes = [] := by
  obtain h | h : 9 ≤ id.toNat ∨ id.toNat < 9 := Nat.lt_or_ge .. |>.symm
  · rw [decodeSubcodec_invalid h]
    exact ⟨decide_eq_true h, rfl, rfl, rfl⟩
  · obtain ⟨n, hn, rfl⟩ : ∃ n, n < 9 ∧ id = BitVec.ofNat 8 n := ⟨id.toNat, h, by simp⟩
    interval_cases n <;> exact ⟨rfl, rfl, rfl, rfl⟩

/-- Settles O3: in each language the opcode and the operand bytes of what is read stand at the front of the bytes. -/
theorem encodeOfDecode : Obligations.EncodeOfDecode := by
  intro l bytes rest i h
  cases l with
  | block bs =>
    obtain ⟨hv, hw⟩ := Machine.decodeBlock_validIn h
    cases bytes with
    | nil => cases h
    | cons op t =>
      obtain ⟨ho, ht⟩ := decodeBlockOperands_ok h
      exact ⟨hw, hv, op :: i.operandBytes, encode_eq_some.2 ⟨op, ho, rfl⟩, congrArg (op :: ·) ht⟩
  | rle =>
    have hw := Machine.decodeRle_wellFormed h
    cases bytes with
    | nil => cases h
    | cons r t =>
      obtain ⟨hv, ho, ht⟩ := decodeRle_ok h
      exact ⟨hw, hv, r :: i.operandBytes, encode_eq_some.2 ⟨r, ho, rfl⟩, congrArg (r :: ·) ht⟩
  | subcodec =>
    cases bytes with
    | nil => cases h
    | cons id t =>
      cases h
      obtain ⟨hw, hv, ho, hnil⟩ := decodeSubcodec_spec id
      exact ⟨hw, hv, [id], encode_eq_some.2 ⟨id, ho, by rw [hnil]⟩, rfl⟩

/- Every opcode byte and every run byte has a meaning (R60, R61). -/

/-- A decoder that asks one question reads an instruction when it does so for both answers. -/
theorem exists_ok_ite {ε α : Type} {c : Prop} [Decidable c] {x y : Except ε α} (hx : ∃ r, x = .ok r)
    (hy : ∃ r, y = .ok r) : ∃ r, (if c then x else y) = .ok r := by
  split
  · exact hx
  · exact hy

/-- Eight operand bytes are enough for every block opcode at every size: the longest form is four literal pixels. -/
theorem decodeBlockOperands_total (bs : BlockSize) (op a0 a1 a2 a3 a4 a5 a6 a7 : Byte) (t : List Byte) :
    ∃ r, decodeBlockOperands bs op (a0 :: a1 :: a2 :: a3 :: a4 :: a5 :: a6 :: a7 :: t) = .ok r := by
  unfold decodeBlockOperands
  repeat' refine exists_ok_ite ?_ ?_
  all_goals cases bs <;> exact ⟨_, rfl⟩

theorem decodeRle_total (r : Byte) {t : List Byte} (h : 128 ≤ t.length) : ∃ d, decodeRle (r :: t) = .ok d := by
  have hr := runLength_bounds r
  simp only [decodeRle]
  split
  · cases t with
    | nil => simp at h
    | cons b t => exact ⟨_, rfl⟩
  · rw [if_neg (by omega)]
    exact ⟨_, rfl⟩

/-- Settles O4: the longest operands of a block opcode and of a run are there. -/
theorem everyOpcodeByteDecodes : Obligations.EveryOpcodeByteDecodes := by
  refine ⟨fun bs op t ht => ?_, fun r t ht => decodeRle_total r ht⟩
  match t, ht with
  | a0 :: a1 :: a2 :: a3 :: a4 :: a5 :: a6 :: a7 :: t, _ =>
    exact decodeBlockOperands_total bs op a0 a1 a2 a3 a4 a5 a6 a7 t

/- The length of a block instruction (R56). -/

/-- The length table of R56 by opcode and block size. -/
def blockOpcodeLength (op : Byte) (bs : BlockSize) : Nat :=
  if op.toNat ≤ 0xF4 ∨ op = 0xF6 ∨ (0xF9 ≤ op.toNat ∧ op.toNat ≤ 0xFC) ∨ (op = 0xFF ∧ bs ≠ .s2) then 1
  else if op = 0xFD then 2
  else if op = 0xF5 ∨ op = 0xFE then 3
  else if op = 0xF7 then (if bs = .s2 then 5 else 4)
  else if bs = .s2 then 9 else 6

/-- The bytes of a well-formed block instruction are as many as the table says of its opcode. -/
theorem length_eq_blockOpcodeLength {i : Instr} {bs : BlockSize} {op : Byte} (hw : i.wellFormed = true)
    (hv : i.validIn (.block bs) = true) (ho : i.opcode = some op) : i.length = blockOpcodeLength op bs := by
  cases i with
  | mv k =>
    cases ho
    have hk : op.toNat ≤ 0xF4 := decide_eq_true_iff.1 hw
    exact (if_pos (.inl hk)).symm
  | mvabs v | prev | fillc k | fill v => cases ho; rfl
  | pix4c i0 i1 i2 i3 | pix4 p0 p1 p2 p3 | pix4f p0 p1 p2 p3 => cases ho; obtain rfl : bs = .s2 := eq_of_beq hv; rfl
  | glyphc g bgi fgi | glyph g bg fg | split =>
    cases ho
    cases bs with
    | s2 => cases hv
    | s4 => rfl
    | s8 => rfl
  | fills k => cases ho; fin_cases k <;> rfl
  | _ => cases hv

/-- Settles O5: what is read is its opcode and operand bytes, as many as the table says. -/
theorem blockInstructionLengths : Obligations.BlockInstructionLengths := by
  intro bs op t rest i h
  obtain ⟨hv, hw⟩ := Machine.decodeBlock_validIn h
  obtain ⟨ho, rfl⟩ := decodeBlockOperands_ok h
  have hread : (op :: (i.operandBytes ++ rest)).length - rest.length = i.length := by
    simp only [Instr.length, ho, List.length_cons, List.length_append]
    omega
  exact ⟨hread.trans (length_eq_blockOpcodeLength hw hv ho), hread.symm⟩

/-- Settles O6: each word is a literal on which the decoder evaluates to the instruction. -/
theorem specWordsDecode : Obligations.SpecWordsDecode :=
  ⟨rfl, rfl, rfl, rfl, rfl, rfl, rfl, rfl, rfl⟩

end Sys2Proof
end

section
/-! What the step of a running command can do (R99), from `StepTo`: it fails, it ends the command with copy-out and
rotation, or the command goes on and leaves all but a few registers and one buffer as they were. -/

namespace Sys2Proof.Machine

/-- From `s` to `t` a command goes on: of all registers only those of the cursor, the RLE engine, the block decoder, the
scratch buffer, `DIAG` and the phase may change, of the frame buffers only `CUR`, and the cursor moves within the
input. -/
structure GoesOn (s t : State) : Prop where
  phase : t.phase ≠ .idle
  frame : t = { s with
    fb := t.fb, scr := t.scr, pos := t.pos, rleN := t.rleN, rleK := t.rleK, rleSink := t.rleSink, op := t.op,
    cx := t.cx, cy := t.cy, bs := t.bs, pend := t.pend, diag := t.diag, phase := t.phase }
  otherBuffers : ∀ b, b ≠ s.cur → t.fb.get b = s.fb.get b
  memory : s.memoryWf = true → t.memoryWf = true
  cursor : s.pos ≤ t.pos ∧ t.pos ≤ s.pos + s.bytesLeft

/-- Only the buffer that is rewritten changes. -/
theorem get_rewrite_ne (s : State) {b c : BufId} (f : Nat → Nat → Pixel → Pixel) (h : c ≠ b) :
    (s.rewrite b f).fb.get c = s.fb.get c := FrameBuffers.get_set_ne _ _ h

/-- A run's output changes the scratch buffer or the current frame buffer alone (R88). -/
theorem emitBytes_eq (s : State) (bytes : List Byte) :
    s.emitBytes bytes = { s with fb := (s.emitBytes bytes).fb, scr := (s.emitBytes bytes).scr } := by
  unfold State.emitBytes
  split <;> rfl

theorem get_emitBytes_ne (s : State) (bytes : List Byte) {b : BufId} (h : b ≠ s.cur) :
    (s.emitBytes bytes).fb.get b = s.fb.get b := by
  unfold State.emitBytes
  split
  · rfl
  · exact get_rewrite_ne s _ h

/-- A step that moves no cursor and writes no buffer. -/
theorem GoesOn.of_registers {s t : State} (hp : t.phase ≠ .idle)
    (ht : t = { s with rleN := t.rleN, rleK := t.rleK, rleSink := t.rleSink, pend := t.pend, phase := t.phase }) :
    GoesOn s t where
  phase := hp
  frame := by rw [ht]
  otherBuffers := fun b _ => by rw [ht]
  memory := fun h => by rw [ht]; exact h
  cursor := by rw [ht]; exact ⟨Nat.le_refl _, Nat.le_add_right ..⟩

/-- A step after which the cursor stands `n` bytes further on. -/
theorem cursor_of_advance {s t : State} {n : Nat} (hn : n ≤ s.bytesLeft) (ht : t.pos = s.pos + n) :
    s.pos ≤ t.pos ∧ t.pos ≤ s.pos + s.bytesLeft := by omega

/-- The bound of R29 holds after a failure, whatever count is drawn (log 10). -/
theorem raiseFail_rleK_le (s : State) (c : Cause) : (s.raiseFail c).rleK ≤ (s.raiseFail c).rleN :=
  Nat.le_of_lt_succ (Nat.mod_lt _ (Nat.succ_pos _))

/-- Everything a step of a running command can do. -/
theorem StepTo.running_cases {s t : State} (h : StepTo s t) (hp : s.phase ≠ .idle) :
    (∃ c : Cause, c ≠ .none ∧ FailedWith c s t ∧ t.rleK ≤ t.rleN) ∨ GoesOn s t ∨
      (s.phase = .finish ∧ t = s.completeDecode) := by
  cases h with
  | waits hi | inits _ _ _ hi | deinits _ hi | decodes _ _ _ _ hi => exact absurd hi hp
  | fails c s' _ hc _ hs => 
    exact .inl ⟨c, hc, (raiseFail_failedWith s' c).of_registers (by rw [hs]), raiseFail_rleK_le s' c⟩
  | writesImage n val hd hn =>
    refine .inr (.inl ⟨nofun, rfl, fun b hb => get_rewrite_ne _ _ hb, fun hm => ?_, cursor_of_advance hn rfl⟩)
    exact writeImage_memoryWf (s := s.advance n) hm val
  | copiesFrame src hd =>
    exact .inr (.inl ⟨nofun, rfl, fun b hb => get_rewrite_ne _ _ hb, fun hm => copyFrame_memoryWf hm src,
      cursor_of_advance (Nat.zero_le _) rfl⟩)
  | skipsSubcodec | startsBlocks | startsRuns16 | startsRunsCb | endsBlocks | endsRuns =>
    exact .inr (.inl (.of_registers nofun rfl))
  | paintsBlock b rest op len val hb hq hf hl hn =>
    refine .inr (.inl ⟨hp, rfl, fun c hc => get_rewrite_ne _ _ hc, fun hm => ?_, cursor_of_advance hn rfl⟩)
    exact writeBlock_memoryWf (s := (s.takeBlock b rest op).advance len) hm _ _ _ val
  | skipsVector b rest op len v hb hq hl hn =>
    exact .inr (.inl ⟨hp, rfl, fun _ _ => rfl, fun hm => hm, cursor_of_advance hn rfl⟩)
  | splitsBlock b rest hb hq hs hf hn =>
    exact .inr (.inl ⟨hp, rfl, fun _ _ => rfl, fun hm => hm, cursor_of_advance hn rfl⟩)
  | runs n bytes hr hl hn hb hk =>
    have hpos : ((s.advance n).emitBytes bytes).pos = s.pos + n := by rw [emitBytes_eq]; rfl
    refine .inr (.inl ⟨?_, ?_, fun b hb => get_emitBytes_ne (s.advance n) bytes hb, fun hm => ?_,
      cursor_of_advance hn hpos⟩)
    · rw [emitBytes_eq]; exact hp
    · rw [emitBytes_eq]; rfl
    · exact emitBytes_memoryWf (s := s.advance n) hm bytes
  | endsScratchRuns hr hk hs =>
    exact .inr (.inl ⟨nofun, rfl, fun b hb => get_rewrite_ne _ _ hb, fun hm => writeImage_memoryWf hm _,
      cursor_of_advance (Nat.zero_le _) rfl⟩)
  | finishes hf => exact .inr (.inr ⟨hf, rfl⟩)

end Sys2Proof.Machine
end

section
/-! The invariant at reset and after every step (R20 to R34, R42). -/

namespace Sys2Proof.Machine

/-- Everything a step can do when no command runs: wait, or take the host's next command. -/
theorem StepTo.idle_cases {s t : State} (h : StepTo s t) (hp : s.phase = .idle) :
    t = s ∨
    (∃ cs w h, s.life = .uninit ∧ dimensionOk w = true ∧ dimensionOk h = true ∧ t = (s.withInbox cs).allocate w h) ∨
    (∃ cs, s.life ≠ .uninit ∧ t = (s.withInbox cs).release) ∨
    (∃ cs dst compressed size, s.life ≠ .uninit ∧ size ≤ compressed.length ∧ 2 * (s.w * s.h) ≤ dst.length ∧
      t = (s.withInbox cs).beginDecode dst compressed size) := by
  cases h with
  | waits _ _ => exact .inl rfl
  | inits cs w h _ _ hl hw hh => exact .inr (.inl ⟨cs, _, _, hl, hw, hh, rfl⟩)
  | deinits cs _ _ hl => exact .inr (.inr (.inl ⟨cs, hl, rfl⟩))
  | decodes cs dst c n _ _ hl hc hd => exact .inr (.inr (.inr ⟨cs, dst, c, n, hl, hc, hd, rfl⟩))
  | _ => simp [*] at hp

/- The invariant after each way a step can end. -/

/-- A failure keeps the form of the memories, which R144 leaves at any contents of the same sizes. -/
theorem FailedWith.memoryWf {c : Cause} {s t : State} (h : FailedWith c s t) (hm : s.memoryWf = true) :
    t.memoryWf = true := by
  refine memoryWf_of_sizes hm h.life (fun b => ?_) h.sizes.2.1 h.dimensions (by rw [h.input.1, h.input.2]; rfl)
  by_cases hb : b = s.cur
  · rw [hb]; exact h.sizes.1
  · rw [h.otherBuffers b hb]

/-- The bounds of the dimensions ask of them alone. -/
theorem dimensionsOk_congr {s t : State} (h : t.w = s.w ∧ t.h = s.h ∧ t.aw = s.aw ∧ t.ah = s.ah) :
    t.dimensionsOk = s.dimensionsOk := by
  obtain ⟨hw, hh, haw, hah⟩ := h
  simp only [State.dimensionsOk, hw, hh, haw, hah]

theorem rolesOk_congr {s t : State} (h : t.cur = s.cur ∧ t.prev = s.prev ∧ t.ref = s.ref) : t.rolesOk = s.rolesOk := by
  obtain ⟨hc, hp, hr⟩ := h
  simp only [State.rolesOk, hc, hp, hr]

/-- The invariant after a failure from a state whose decoder is in order. -/
theorem FailedWith.inv {c : Cause} {s t : State} (h : FailedWith c s t) (hc : c ≠ .none) (hm : s.memoryWf = true)
    (hd : s.life ≠ .uninit → s.dimensionsOk = true) (hr : s.life ≠ .uninit → s.rolesOk = true) (hk : t.rleK ≤ t.rleN) :
    t.Inv where
  memory := h.memoryWf hm
  dimensions hl := (dimensionsOk_congr h.dimensions).trans (hd (h.life ▸ hl))
  roles hl := (rolesOk_congr h.roles).trans (hr (h.life ▸ hl))
  cursor hp := absurd h.phase hp
  input _ := (inputAbsent_iff t).2 h.input
  rle := (rleOk_iff t).2 ⟨hk, fun hp => by cases h.phase.symm.trans hp⟩
  pending := (pendOk_iff t).2 ⟨.inr h.pend, by simp [h.pend]⟩
  running hp := absurd h.phase hp
  resting _ _ := by simp [restingOk_iff, h.status, h.cause, hc]

/-- The invariant after a step with which the command goes on, when the RLE count and the pending blocks are in
order. -/
theorem GoesOn.inv {s t : State} (hg : GoesOn s t) (h : s.Inv) (hp : s.phase ≠ .idle) (hr : t.rleOk = true)
    (hq : t.pendOk = true) : t.Inv where
  memory := hg.memory h.memory
  dimensions hl := by
    rw [hg.frame] at hl ⊢
    exact h.dimensions hl
  roles hl := by
    rw [hg.frame] at hl ⊢
    exact h.roles hl
  cursor _ := by
    have hs : t.size = s.size := by rw [hg.frame]
    have hc := h.cursor hp
    have hb : s.bytesLeft = s.size - s.pos := rfl
    have hm := hg.cursor
    omega
  input hi := absurd hi hg.phase
  rle := hr
  pending := hq
  running _ := by
    rw [hg.frame]
    exact h.running hp
  resting hi := absurd hi hg.phase

theorem allocate_inv (s : State) {w h : Nat} (hp : s.phase = .idle) (hw : dimensionOk w = true)
    (hh : dimensionOk h = true) : (s.allocate w h).Inv where
  memory := allocate_memoryWf s w h
  dimensions _ := (dimensionsOk_iff _).2 ⟨hw, hh, rfl, rfl⟩
  roles _ := rfl
  cursor hi := absurd hp hi
  input _ := rfl
  rle := (rleOk_iff _).2 ⟨raiseFail_rleK_le s .none, fun hi => by cases hp.symm.trans hi⟩
  pending := (pendOk_iff _).2 ⟨.inr rfl, nofun⟩
  running hi := absurd hp hi
  resting _ _ := rfl

theorem release_inv (s : State) (hp : s.phase = .idle) : s.release.Inv where
  memory := release_memoryWf s
  dimensions hl := absurd rfl hl
  roles hl := absurd rfl hl
  cursor hi := absurd hp hi
  input _ := rfl
  rle := (rleOk_iff _).2 ⟨raiseFail_rleK_le s .none, fun hi => by cases hp.symm.trans hi⟩
  pending := (pendOk_iff _).2 ⟨.inr rfl, nofun⟩
  running hi := absurd hp hi
  resting _ hl := absurd rfl hl

/-- Outside the block decoder's loop no block is pending (R34). -/
theorem pend_nil {s : State} (h : s.pendOk = true) (hp : s.phase ≠ .blocks) : s.pend = [] :=
  ((pendOk_iff s).1 h).1.resolve_left hp

/-- The buffer that is current after a successful command (R118). -/
@[simp] theorem State.completeDecode_cur (s : State) :
    s.completeDecode.cur = if s.rot = 0 then s.cur else if s.rot = 2 then s.prev else s.ref := rfl

/-- The buffer that is the reference after a successful command (R118). -/
@[simp] theorem State.completeDecode_ref (s : State) :
    s.completeDecode.ref = if s.rot = 0 then s.ref else s.cur := by
  show (if s.rot = 0 then (if s.rot = 2 then s.prev else s.ref) else s.cur) = _
  by_cases h0 : s.rot = 0
  · rw [if_pos h0, if_pos h0, if_neg (by rw [h0]; decide)]
  · rw [if_neg h0, if_neg h0]

/-- Rotation by `ROT = 0` keeps the roles (R118). -/
theorem completeDecode_roles_keep {s : State} (h : s.rot = 0) :
    s.completeDecode.cur = s.cur ∧ s.completeDecode.prev = s.prev ∧ s.completeDecode.ref = s.ref := by
  have h2 : s.rot ≠ 2 := by rw [h]; decide
  simp only [State.completeDecode_cur, State.completeDecode_prev, State.completeDecode_ref,
    if_pos h, if_neg h2, and_self]

/-- Rotation by `ROT = 2` moves each role on by one (R118). -/
theorem completeDecode_roles_cycle {s : State} (h : s.rot = 2) :
    s.completeDecode.cur = s.prev ∧ s.completeDecode.prev = s.ref ∧ s.completeDecode.ref = s.cur := by
  have h0 : s.rot ≠ 0 := by rw [h]; decide
  simp only [State.completeDecode_cur, State.completeDecode_prev, State.completeDecode_ref,
    if_pos h, if_neg h0, and_self]

/-- Rotation by any other `ROT` swaps `CUR` and `REF` (R118). -/
theorem completeDecode_roles_swap {s : State} (h0 : s.rot ≠ 0) (h2 : s.rot ≠ 2) :
    s.completeDecode.cur = s.ref ∧ s.completeDecode.prev = s.prev ∧ s.completeDecode.ref = s.cur := by
  simp only [State.completeDecode_cur, State.completeDecode_prev, State.completeDecode_ref,
    if_neg h0, if_neg h2, and_self]

/-- Rotation permutes the roles, so they name three buffers when the old ones do (R27). -/
theorem completeDecode_rolesOk {s : State} (h : s.rolesOk = true) : s.completeDecode.rolesOk = true := by
  rw [rolesOk_iff] at h ⊢
  obtain ⟨hcp, hcr, hpr⟩ := h
  by_cases h0 : s.rot = 0
  · obtain ⟨hc, hp, hr⟩ := completeDecode_roles_keep h0
    rw [hc, hp, hr]
    exact ⟨hcp, hcr, hpr⟩
  by_cases h2 : s.rot = 2
  · obtain ⟨hc, hp, hr⟩ := completeDecode_roles_cycle h2
    rw [hc, hp, hr]
    exact ⟨hpr, hcp.symm, hcr.symm⟩
  · obtain ⟨hc, hp, hr⟩ := completeDecode_roles_swap h0 h2
    rw [hc, hp, hr]
    exact ⟨hpr.symm, hcr.symm, hcp.symm⟩

theorem completeDecode_inv {s : State} (h : s.Inv) (hp : s.phase = .finish) : s.completeDecode.Inv := by
  have hrun := (runningOk_iff s).1 (h.running (by simp [hp]))
  have hq := pend_nil h.pending (by simp [hp])
  exact {
    memory := completeDecode_memoryWf h.memory
    dimensions := by simpa using h.dimensions
    roles := fun hl => completeDecode_rolesOk (h.roles (by simpa using hl))
    cursor := by simp
    input := by simp
    rle := by simp [rleOk_iff, ((rleOk_iff s).1 h.rle).1]
    pending := by simp [pendOk_iff, hq]
    running := by simp
    resting := by simp [restingOk_iff, hrun] }

theorem withInbox_inv {s : State} (h : s.Inv) (cs : List HostCommand) : (s.withInbox cs).Inv :=
  ⟨h.memory, h.dimensions, h.roles, h.cursor, h.input, h.rle, h.pending, h.running, h.resting⟩

/-- The form of the memories asks of `LIFE` only whether there is a decoder. -/
theorem withLife_memoryWf {s : State} (h : s.memoryWf = true) (hl : s.life ≠ .uninit) {l : Life} (hl' : l ≠ .uninit) :
    (s.withLife l).memoryWf = true := by
  rw [memoryWf_iff, if_neg hl] at h
  rw [memoryWf_iff, State.withLife_life, if_neg hl']
  exact h

/-- A failure in a decoder that is in order. -/
theorem raiseFail_inv {s : State} {c : Cause} (hc : c ≠ .none) (hm : s.memoryWf = true) (hd : s.dimensionsOk = true)
    (hr : s.rolesOk = true) : (s.raiseFail c).Inv :=
  (raiseFail_failedWith s c).inv hc hm (fun _ => hd) (fun _ => hr) (raiseFail_rleK_le s c)

theorem failDimensions_inv {s : State} (hl : s.life ≠ .uninit) (hm : s.memoryWf = true) (hd : s.dimensionsOk = true)
    (hr : s.rolesOk = true) : s.failDimensions.Inv := by
  have hl' : (if Config.dimMismatchSticky then .fatal else s.life) ≠ Life.uninit := by
    split
    · nofun
    · exact hl
  unfold State.failDimensions
  exact raiseFail_inv nofun (withLife_memoryWf hm hl hl') hd hr

/-- A command that reaches its dispatch, from the state behind the header (R103, R105). -/
theorem dispatch_inv {s : State} (hm : s.memoryWf = true) (hd : s.dimensionsOk = true) (hr : s.rolesOk = true)
    (hc : s.pos ≤ s.size) (hk : s.rleK ≤ s.rleN) (hq : s.pend = []) (hrun : s.runningOk = true) :
    (s.keyframeClear.enter .dispatch).Inv where
  memory := keyframeClear_memoryWf hm
  dimensions _ := by simpa using (dimensionsOk_iff s).1 hd
  roles _ := by simpa using (rolesOk_iff s).1 hr
  cursor _ := by simpa using hc
  input := nofun
  rle := by simpa [rleOk_iff] using hk
  pending := by simp [pendOk_iff, hq]
  running _ := by simpa using (runningOk_iff s).1 hrun
  resting := nofun

/- Reading the header (R101) touches neither the memories nor the dimensions nor the roles. -/

theorem loadHeader_memoryWf {s : State} (h : s.memoryWf = true) (n : Nat) (f : Header) :
    ((s.advance n).loadHeader f).memoryWf = true := h

theorem loadHeader_dimensionsOk {s : State} (h : s.dimensionsOk = true) (n : Nat) (f : Header) :
    ((s.advance n).loadHeader f).dimensionsOk = true := h

theorem loadHeader_rolesOk {s : State} (h : s.rolesOk = true) (n : Nat) (f : Header) :
    ((s.advance n).loadHeader f).rolesOk = true := h

/-- What `decode` leaves before its dispatch, in each order of R99 to R102. -/
theorem beginDecode_inv {s : State} (h : s.Inv) (hp : s.phase = .idle) (hl : s.life ≠ .uninit) {dst c : List Byte}
    {n : Nat} (hn : n ≤ c.length) (hd : 2 * (s.w * s.h) ≤ dst.length) : (s.beginDecode dst c n).Inv := by
  have hdim := h.dimensions hl
  have hrol := h.roles hl
  have hwrap : ((s.beginStatus.withDst dst).wrapReader c n).memoryWf = true :=
    wrapReader_memoryWf (s := s.beginStatus.withDst dst) h.memory c n hn
  have hdimWrap : ((s.beginStatus.withDst dst).wrapReader c n).dimensionsOk = true :=
    (dimensionsOk_congr ⟨rfl, rfl, rfl, rfl⟩).trans hdim
  have hrolWrap : ((s.beginStatus.withDst dst).wrapReader c n).rolesOk = true :=
    (rolesOk_congr ⟨rfl, rfl, rfl⟩).trans hrol
  obtain ⟨-, he⟩ | ⟨-, -, he⟩ | ⟨hready, -, f, -, he⟩ | ⟨hready, hsize, f, hf, he⟩ := beginDecode_cases s dst c n hl
  · rw [he]
    exact raiseFail_inv nofun h.memory hdim hrol
  · rw [he]
    exact raiseFail_inv nofun hwrap hdimWrap hrolWrap
  · rw [he]
    exact failDimensions_inv (by simpa using hl) (loadHeader_memoryWf hwrap _ f) (loadHeader_dimensionsOk hdimWrap _ f)
      (loadHeader_rolesOk hrolWrap _ f)
  · have hq := pend_nil h.pending (by simp [hp])
    rw [he]
    exact dispatch_inv (loadHeader_memoryWf hwrap _ f) (loadHeader_dimensionsOk hdimWrap _ f)
      (loadHeader_rolesOk hrolWrap _ f) (by simpa using hsize) (by simpa using ((rleOk_iff s).1 h.rle).1)
      (by simpa using hq) (by simp [hready, hf, hd])

/- The RLE count and the pending blocks after every step. -/

/-- The RLE count is in order when neither it nor its target changed and the engine is not in its loop. -/
theorem rleOk_of_kept {s t : State} (h : s.rleOk = true) (hk : t.rleK = s.rleK) (hn : t.rleN = s.rleN)
    (hp : t.phase ≠ .runs) : t.rleOk = true :=
  (rleOk_iff t).2 ⟨by rw [hk, hn]; exact ((rleOk_iff s).1 h).1, fun hr => absurd hr hp⟩

theorem StepTo.rleOk {s t : State} (h : StepTo s t) (hp : s.phase ≠ .idle) (hr : s.rleOk = true) : t.rleOk = true := by
  cases h with
  | waits hi | inits _ _ _ hi | deinits _ hi | decodes _ _ _ _ hi => exact absurd hi hp
  | fails c s' => exact (rleOk_iff _).2 ⟨raiseFail_rleK_le s' c, nofun⟩
  | writesImage | copiesFrame | skipsSubcodec | startsBlocks | endsBlocks | endsRuns | endsScratchRuns =>
    exact rleOk_of_kept hr rfl rfl nofun
  | startsRuns16 | startsRunsCb => simp [rleOk_iff]
  | paintsBlock _ _ _ _ _ hb | skipsVector _ _ _ _ _ hb | splitsBlock _ _ hb =>
    exact rleOk_of_kept hr rfl rfl (by simp [hb])
  | runs n bytes hr' _ _ _ hk =>
    obtain ⟨hle, hsink⟩ := (rleOk_iff s).1 hr
    refine (rleOk_iff _).2 ⟨?_, ?_⟩
    · simp only [State.countOutput_rleK, State.countOutput_rleN, State.emitBytes_rleK, State.emitBytes_rleN,
        State.advance_rleK, State.advance_rleN]
      omega
    · simpa using hsink
  | finishes hf => exact rleOk_of_kept hr (by simp) (by simp) (by simp)

/-- No block is pending after a step outside the block decoder's loop that leaves the list as it was. -/
theorem pendOk_of_nil {s t : State} (h : s.pendOk = true) (hp : s.phase ≠ .blocks) (ht : t.pend = s.pend) :
    t.pendOk = true := by
  have hq := ht.trans (pend_nil h hp)
  simp [pendOk_iff, hq]

/-- The blocks behind the head stay in order when the head is taken. -/
theorem pendOk_of_tail {s t : State} {b : Block} {rest front : List Block} (h : s.pendOk = true)
    (hq : s.pend = b :: rest) (hp : t.phase = .blocks) (hd : t.aw = s.aw ∧ t.ah = s.ah) (ht : t.pend = front ++ rest)
    (hf : ∀ q ∈ front, blockOk s.aw s.ah q = true) : t.pendOk = true := by
  have hall := ((pendOk_iff s).1 h).2
  rw [pendOk_iff, hd.1, hd.2, ht]
  refine ⟨.inl hp, fun q hmem => ?_⟩
  obtain hmem | hmem := List.mem_append.1 hmem
  · exact hf q hmem
  · exact hall q (hq ▸ List.mem_cons_of_mem b hmem)

theorem StepTo.pendOk {s t : State} (h : StepTo s t) (hp : s.phase ≠ .idle) (hq : s.pendOk = true) :
    t.pendOk = true := by
  cases h with
  | waits hi | inits _ _ _ hi | deinits _ hi | decodes _ _ _ _ hi => exact absurd hi hp
  | fails => exact (pendOk_iff _).2 ⟨.inr rfl, nofun⟩
  | writesImage _ _ hd | copiesFrame _ hd | skipsSubcodec hd | startsRuns16 hd | startsRunsCb hd =>
    exact pendOk_of_nil hq (by simp [hd]) rfl
  | startsBlocks => exact (pendOk_iff _).2 ⟨.inl rfl, fun b hb => topLevelBlocks_ok hb⟩
  | paintsBlock _ _ _ _ _ hb hpend | skipsVector _ _ _ _ _ hb hpend =>
    exact pendOk_of_tail (front := []) hq hpend hb ⟨rfl, rfl⟩ rfl nofun
  | splitsBlock b rest hb hpend hs =>
    have hhead : blockOk s.aw s.ah b = true := ((pendOk_iff s).1 hq).2 b (by simp [hpend])
    exact pendOk_of_tail (front := quadrants b) hq hpend hb ⟨rfl, rfl⟩ rfl (quadrants_ok hhead hs)
  | endsBlocks _ hpend => simp [pendOk_iff, hpend]
  | runs _ _ hr => exact pendOk_of_nil hq (by simp [hr]) (by simp)
  | endsRuns hr | endsScratchRuns hr => exact pendOk_of_nil hq (by simp [hr]) rfl
  | finishes hf => exact pendOk_of_nil hq (by simp [hf]) (by simp)

/-- Settles O39: at reset there is no decoder, no command and no input. -/
theorem invariantAtReset : Obligations.InvariantAtReset where
  memory := memoryWf_reset
  dimensions h := absurd rfl h
  roles h := absurd rfl h
  cursor h := absurd rfl h
  input _ := rfl
  rle := rfl
  pending := rfl
  running h := absurd rfl h
  resting _ h := absurd rfl h

/-- Settles O40: an idle engine waits or runs a host command, a running one fails, goes on or ends, and each of these
keeps the invariant. -/
theorem stepKeepsInvariant : Obligations.StepKeepsInvariant := by
  intro s t h hstep
  have hto := step_cases hstep
  by_cases hp : s.phase = .idle
  · obtain rfl | ⟨cs, w, h', -, hw, hh, rfl⟩ | ⟨cs, -, rfl⟩ | ⟨cs, dst, c, n, hl, hn, hd, rfl⟩ := hto.idle_cases hp
    · exact h
    · exact allocate_inv _ hp hw hh
    · exact release_inv _ hp
    · exact beginDecode_inv (withInbox_inv h cs) hp hl hn hd
  · obtain ⟨c, hc, hf, hk⟩ | hg | ⟨hfin, rfl⟩ := hto.running_cases hp
    · exact hf.inv hc h.memory h.dimensions h.roles hk
    · exact hg.inv h hp (hto.rleOk hp h.rle) (hto.pendOk hp h.pending)
    · exact completeDecode_inv h hfin

end Sys2Proof.Machine
end

section
/-! What a running command keeps and what it may change (R19, R21, R23, R73, R140, R142, R144), from
`StepTo.running_cases`. -/

namespace Sys2Proof.Machine

/-- Settles O46: a failure keeps the other buffers, a command that goes on too, and copy-out moves no pixel. -/
theorem runningCommandWritesOnlyCurrentBuffer : Obligations.RunningCommandWritesOnlyCurrentBuffer := by
  intro s t hp hstep b hb
  obtain ⟨c, -, hf, -⟩ | hg | ⟨-, rfl⟩ := (step_cases hstep).running_cases hp
  · exact hf.otherBuffers b hb
  · exact hg.otherBuffers b hb
  · rw [State.completeDecode_fb]

/-- Settles O47: a failure keeps the decoder, a command that goes on also the input and the header registers, and one
that ends the header registers. -/
theorem runningCommandKeepsItsInput : Obligations.RunningCommandKeepsItsInput := by
  intro s t hp hstep
  obtain ⟨c, -, hf, -⟩ | hg | ⟨-, rfl⟩ := (step_cases hstep).running_cases hp
  · obtain ⟨hw, hh, haw, hah⟩ := hf.dimensions
    exact ⟨fun h => absurd hf.phase h, fun _ => hf.input, hw, hh, haw, hah, hf.life, hf.inbox,
      fun h => absurd hf.status h⟩
  · refine ⟨fun _ => ?_, fun h => absurd h hg.phase, ?_⟩
    · rw [hg.frame]; exact ⟨rfl, rfl⟩
    · rw [hg.frame]; exact ⟨rfl, rfl, rfl, rfl, rfl, rfl, fun _ => ⟨rfl, rfl, rfl, rfl, rfl, rfl, rfl, rfl⟩⟩
  · simp

/-- A failure of the dimension check makes the decoder fatal when mismatches are sticky (R102, D20). -/
theorem failDimensions_life (s : State) :
    s.failDimensions.life = if Config.dimMismatchSticky then .fatal else s.life := rfl

theorem failDimensions_status (s : State) : s.failDimensions.status = .fail := rfl

theorem failDimensions_cause (s : State) : s.failDimensions.cause = .dimMismatch := rfl

/-- An accepted `decode` keeps `LIFE` but for a sticky dimension mismatch (R100, R102). -/
theorem beginDecode_life (s : State) (dst c : List Byte) (n : Nat) (hl : s.life ≠ .uninit) :
    (s.beginDecode dst c n).life = s.life ∨
      (s.life = .ready ∧ Config.dimMismatchSticky = true ∧ (s.beginDecode dst c n).life = .fatal ∧
        (s.beginDecode dst c n).status = .fail ∧ (s.beginDecode dst c n).cause = .dimMismatch) := by
  obtain ⟨-, he⟩ | ⟨-, -, he⟩ | ⟨hready, -, f, -, he⟩ | ⟨-, -, f, -, he⟩ := beginDecode_cases s dst c n hl
  · left; rw [he]; simp
  · left; rw [he]; simp
  · rw [he, failDimensions_life]
    by_cases hs : Config.dimMismatchSticky = true
    · exact .inr ⟨hready, hs, if_pos hs, failDimensions_status _, failDimensions_cause _⟩
    · left; rw [if_neg hs]; simp
  · rw [he]; left; simp

/-- Settles O48: only host commands change `LIFE`, and each changes it as R19 says. -/
theorem lifecycleTransitions : Obligations.LifecycleTransitions := by
  intro s t hstep
  have hto := step_cases hstep
  by_cases hp : s.phase = .idle
  · obtain rfl | ⟨cs, w, h', hl, -, -, rfl⟩ | ⟨cs, hl, rfl⟩ | ⟨cs, dst, c, n, hl, -, -, rfl⟩ := hto.idle_cases hp
    · exact ⟨.inl, .inl, .inl⟩
    · exact ⟨fun _ => .inr rfl, by simp [hl], by simp [hl]⟩
    · exact ⟨fun h => absurd h hl, fun _ => .inr (.inl rfl), fun _ => .inr rfl⟩
    · obtain hkeep | ⟨hready, hsticky, hfatal, hstatus, hcause⟩ := beginDecode_life (s.withInbox cs) dst c n hl
      · have hkeep : ((s.withInbox cs).beginDecode dst c n).life = s.life := hkeep
        exact ⟨fun h => absurd h hl, fun h => .inl (hkeep.trans h), fun h => .inl (hkeep.trans h)⟩
      · have hready : s.life = .ready := hready
        exact ⟨fun h => absurd h hl, fun _ => .inr (.inr ⟨hfatal, hsticky, hstatus, hcause⟩), by simp [hready]⟩
  · have hkeep : t.life = s.life := by
      obtain ⟨c, -, hf, -⟩ | hg | ⟨-, rfl⟩ := hto.running_cases hp
      · exact hf.life
      · rw [hg.frame]
      · simp
    exact ⟨fun h => .inl (hkeep.trans h), fun h => .inl (hkeep.trans h), fun h => .inl (hkeep.trans h)⟩

/-- The instruction of a loop that does not fail consumes at least one byte (R137). -/
theorem StepTo.loop_consumes {s t : State} (h : StepTo s t) (ht : t.status ≠ .fail)
    (hloop : (s.phase = .blocks ∧ s.pend ≠ []) ∨ (s.phase = .runs ∧ s.rleK < s.rleN)) : s.pos < t.pos := by
  cases h with
  | fails c s' _ _ _ _ => exact absurd rfl ht
  | paintsBlock _ _ _ _ _ _ _ _ hl | skipsVector _ _ _ _ _ _ _ hl => exact Nat.lt_add_of_pos_right hl
  | splitsBlock => exact Nat.lt_succ_self _
  | runs n bytes _ hl _ _ _ => simp; omega
  | endsBlocks hp hq => simp [hp, hq] at hloop
  | endsRuns hp hk | endsScratchRuns hp hk => simp [hp, Nat.not_lt.2 hk] at hloop
  | _ => simp [*] at hloop

/-- Settles O49: a command that goes on moves the cursor within the input, and copy-out leaves it. -/
theorem cursorOnlyAdvances : Obligations.CursorOnlyAdvances := by
  intro s t hp hstep ht
  have hto := step_cases hstep
  refine ⟨?_, ?_, fun hb hq => hto.loop_consumes ht (.inl ⟨hb, hq⟩), fun hr hk => hto.loop_consumes ht (.inr ⟨hr, hk⟩)⟩
  all_goals obtain ⟨c, -, hf, -⟩ | hg | ⟨-, rfl⟩ := hto.running_cases hp
  · exact absurd hf.status ht
  · exact hg.cursor.1
  · simp
  · exact absurd hf.status ht
  · intro hle
    have hm := hg.cursor.2
    unfold State.bytesLeft at hm
    omega
  · simp

/-- Settles O50: only a skipped vector appends a record, and it is a block step. -/
theorem diagnosticsOnlyFromSkippedVectors : Obligations.DiagnosticsOnlyFromSkippedVectors := by
  intro s t hp hstep
  cases step_cases hstep with
  | skipsVector b rest op len v hb _ _ _ => exact .inr ⟨hb, _, rfl, rfl⟩
  | fails c s' _ _ _ hs => left; rw [State.raiseFail_diag, hs]
  | waits hi _ | inits _ _ _ hi | deinits _ hi | decodes _ _ _ _ hi => exact absurd hi hp
  | _ => left; simp

/-- Settles O51: the step failed, since a command that goes on keeps `STATUS` and one that ends has it OK. -/
theorem failedStepLeavesReferences : Obligations.FailedStepLeavesReferences := by
  intro s t hp hbusy hstep hfail
  obtain ⟨c, -, hf, -⟩ | hg | ⟨-, rfl⟩ := (step_cases hstep).running_cases hp
  · rw [hf.cause]; exact hf
  · have hkeep : t.status = s.status := by rw [hg.frame]
    simp [hkeep, hbusy] at hfail
  · simp at hfail

end Sys2Proof.Machine
end

section
/-! What one step does at each place of R99's sequence: the fetch, the instructions' places, the ends of the loops,
copy-out with rotation (R89 to R91, R105, R113 to R122). -/

namespace Sys2Proof.Machine

/- The step at each place. -/

theorem step_idle_nil {s : State} (hp : s.phase = .idle) (hq : s.inbox = []) : step s = .next s := by
  simp only [step, fetch, hp, fetchCommand, hq]

theorem step_idle_cons {s : State} {c : HostCommand} {cs : List HostCommand} (hp : s.phase = .idle)
    (hq : s.inbox = c :: cs) : step s = exec c.toInstr (s.withInbox cs) := by
  simp only [step, fetch, hp, fetchCommand, hq]

theorem step_dispatch {s : State} (hp : s.phase = .dispatch) : step s = exec (decodeSubcodec s.subc) s := by
  simp only [step, fetch, hp]

theorem step_blocks_nil {s : State} (hp : s.phase = .blocks) (hq : s.pend = []) : step s = .next s.endSubcodec := by
  simp only [step, fetch, hp, fetchBlock, hq]

theorem step_blocks_ok {s : State} {b : Block} {rest : List Block} {i : Instr} {tail : List Byte}
    (hp : s.phase = .blocks) (hq : s.pend = b :: rest) (hd : decodeBytes (.block b.bs) s.rest = .ok (i, tail)) :
    step s = exec i s := by
  simp only [step, fetch, hp, fetchBlock, hq, hd]

theorem step_blocks_error {s : State} {b : Block} {rest : List Block} {e : DecodeError} (hp : s.phase = .blocks)
    (hq : s.pend = b :: rest) (hd : decodeBytes (.block b.bs) s.rest = .error e) :
    step s = .next s.failBlockFetch := by
  simp only [step, fetch, hp, fetchBlock, hq, hd]

theorem step_runs_ok {s : State} {i : Instr} {tail : List Byte} (hp : s.phase = .runs) (hk : s.rleK < s.rleN)
    (hd : decodeBytes .rle s.rest = .ok (i, tail)) : step s = exec i s := by
  simp only [step, fetch, hp, fetchRun, hk, if_true, hd]

theorem step_runs_error {s : State} {e : DecodeError} (hp : s.phase = .runs) (hk : s.rleK < s.rleN)
    (hd : decodeBytes .rle s.rest = .error e) : step s = .next s.failRunFetch := by
  simp only [step, fetch, hp, fetchRun, hk, if_true, hd]

theorem step_runs_end {s : State} (hp : s.phase = .runs) (hk : s.rleN ≤ s.rleK) : step s = .next s.endRuns := by
  simp only [step, fetch, hp, fetchRun, Nat.not_lt.2 hk, if_false]

theorem step_finish {s : State} (hp : s.phase = .finish) : step s = .next s.completeDecode := by
  simp only [step, fetch, hp]

/-- Settles O7: in both loops the instruction decoded at the cursor runs, between commands the next host command. -/
theorem stepRunsDecodedInstruction : Obligations.StepRunsDecodedInstruction :=
  ⟨fun _ _ _ _ _ => step_blocks_ok, fun _ _ _ => step_runs_ok, fun _ _ _ _ => step_idle_cons,
    fun _ _ => step_idle_cons, fun _ _ _ _ _ => step_idle_cons⟩

/-- Settles O8: the dispatch runs the subcodec that `decodeSubcodec` reads from `SUBC`. -/
theorem dispatchBySubcodecId : Obligations.DispatchBySubcodecId := by
  intro s hp
  rw [step_dispatch hp]
  refine ⟨?_, ?_, ?_, ?_, ?_, ?_, ?_, ?_, ?_, fun h => by rw [decodeSubcodec_invalid h]⟩
  all_goals
    intro h
    rw [h]
    rfl

/-- Settles O9: with an empty inbox the fetch finds the state itself. -/
theorem idleEngineWaits : Obligations.IdleEngineWaits := fun _ => step_idle_nil

/-- Settles O38: the reset state is idle with an empty inbox, so a step waits. -/
theorem resetIsUninitialised : Obligations.ResetIsUninitialised := ⟨rfl, rfl, rfl, step_idle_nil rfl rfl⟩

/- The failures of a loop's fetch (R90, R122, R146). -/

theorem failRunFetch_nil {s : State} (h : s.rest = []) : s.failRunFetch = s.raiseFail .truncated := by
  simp only [State.failRunFetch, h]

theorem failRunFetch_cons {s : State} {r : Byte} {tail : List Byte} (h : s.rest = r :: tail) :
    s.failRunFetch = s.raiseFail (if s.rleN - s.rleK < runLength r then .rleOverrun else .truncated) := by
  simp only [State.failRunFetch, h]
  split <;> rfl

/-- Settles O10: the fetch of either loop fails in the state it stands in, the run's with the cause of R90's order. -/
theorem missingBytesFailInOrder : Obligations.MissingBytesFailInOrder := by
  refine ⟨fun s b rest e hp hq hd => ?_, fun s hp hk hr => ?_, fun s r tail e hp hk hr hd => ?_⟩
  · exact ⟨_, step_blocks_error hp hq hd, raiseFail_failedWith s .truncated⟩
  · have hd : decodeBytes .rle s.rest = .error .noOpcode := by rw [hr]; rfl
    refine ⟨_, step_runs_error hp hk hd, ?_⟩
    rw [failRunFetch_nil hr]
    exact raiseFail_failedWith s _
  · refine ⟨_, step_runs_error hp hk hd, ?_⟩
    rw [failRunFetch_cons hr, runLength_toNat]
    constructor
    · intro h
      rw [if_pos h]
      exact raiseFail_failedWith s _
    · intro h
      rw [if_neg (Nat.not_lt.2 h)]
      exact raiseFail_failedWith s _

/- The ends of the loops (R89, R113, R121). -/

theorem endRuns_curpix {s : State} (h : s.rleSink = .curpix) : s.endRuns = s.endSubcodec := by
  simp only [State.endRuns, h]

theorem endRuns_scr {s : State} (h : s.rleSink = .scr) :
    s.endRuns = (s.writeImage fun j => s.codebook (s.scr.getD j 0)).endSubcodec := by
  simp only [State.endRuns, h]

/-- Settles O11: a loop without work ends its subcodec, and for the scratch sink the image is written first. -/
theorem loopsEnd : Obligations.LoopsEnd := by
  refine ⟨fun s hp hq => step_blocks_nil hp hq, fun s hp hk hs => ?_, fun s hp hk hs hi hlen => ?_⟩
  · rw [step_runs_end hp hk, endRuns_curpix hs]
    rfl
  · obtain ⟨honly, hpix⟩ := writeImage_paints (t := (s.writeImage fun j => s.codebook (s.scr.getD j 0)).endSubcodec) hi
      (fun j => s.codebook (s.scr.getD j 0)) rfl
    refine ⟨_, by rw [step_runs_end hp hk, endRuns_scr hs], rfl, honly, fun j i hj hscr => ?_⟩
    refine (hpix j hj).trans ?_
    dsimp only
    rw [List.getD_eq_getElem?_getD, hscr]
    rfl

/- Copy-out and rotation (R115 to R118). -/

/-- `DST` after copy-out: the image's bytes at the front, the old bytes behind them. -/
theorem getElem?_copyOut_dst (s : State) (k : Nat) :
    s.copyOut.dst[k]? = s.dst[k]?.map fun old =>
      if k < 2 * (s.w * s.h) then dstByte Config.dstByteOrder k (s.imagePixel s.cur (k / 2)) else old := by
  simp only [State.copyOut, List.getElem?_mapIdx]

/-- A byte of the image in `DST`, when there is room for the whole image. -/
theorem getElem?_copyOut_image {s : State} {k : Nat} (hk : k < 2 * (s.w * s.h))
    (hd : 2 * (s.w * s.h) ≤ s.dst.length) :
    s.copyOut.dst[k]? = some (dstByte Config.dstByteOrder k (s.imagePixel s.cur (k / 2))) := by
  rw [getElem?_copyOut_dst, List.getElem?_eq_getElem (by omega), Option.map_some, if_pos hk]

/-- Bytes `2j` and `2j + 1` of a pixel in either order (R41). -/
theorem dstByte_even (o : ByteOrder) (j : Nat) (v : Pixel) :
    dstByte o (2 * j) v = match o with | .little => loByte v | .big => hiByte v := by
  cases o <;> simp [dstByte]

theorem dstByte_odd (o : ByteOrder) (j : Nat) (v : Pixel) :
    dstByte o (2 * j + 1) v = match o with | .little => hiByte v | .big => loByte v := by
  cases o <;> simp [dstByte]

/-- The end of a successful command writes `DST`, the roles, `STATUS`, the input and the phase alone (R99, R23). -/
theorem completeDecode_eq (s : State) :
    s.completeDecode = { s with
      dst := s.completeDecode.dst, cur := s.completeDecode.cur, prev := s.completeDecode.prev,
      ref := s.completeDecode.ref, status := .ok, inp := [], size := 0, phase := .idle } := by
  apply State.ext <;> simp

/-- Settles O12: copy-out writes the image's bytes to `DST`, and the three cases of `ROT` are rotation's table. -/
theorem copyOutThenRotation : Obligations.CopyOutThenRotation := by
  intro s hp
  refine ⟨_, step_finish hp, completeDecode_eq s, by simp, fun k hk => ?beyond, fun j hj hd => ?image,
    completeDecode_roles_keep, completeDecode_roles_cycle, completeDecode_roles_swap⟩
  case beyond => simp [getElem?_copyOut_dst, Nat.not_lt.2 hk]
  case image =>
    have heven := getElem?_copyOut_image (k := 2 * j) (by omega) hd
    have hodd := getElem?_copyOut_image (k := 2 * j + 1) (by omega) hd
    rw [dstByte_even, show 2 * j / 2 = j by omega] at heven
    rw [dstByte_odd, show (2 * j + 1) / 2 = j by omega] at hodd
    rw [State.completeDecode_dst, heven, hodd]
    exact ⟨fun ho => by rw [ho]; exact ⟨rfl, rfl⟩, fun ho => by rw [ho]; exact ⟨rfl, rfl⟩⟩

end Sys2Proof.Machine
end

section
/-! The places of the engine's instructions, and the progress of a running command up to its end (R95, R137, R159). -/

namespace Sys2Proof.Machine

/- Each instruction of the three languages runs over the shared operation of its language. -/

/-- A block instruction runs over the block step (R122), at the sizes it is written in. -/
theorem exec_eq_blockInstr {i : Instr} {bs : BlockSize} (h : i.validIn (.block bs) = true) :
    ∃ op len sizes effect,
      (∀ s, exec i s = blockInstr op len sizes effect s) ∧ ∀ b, sizes b = i.validIn (.block b) := by
  cases i with
  | mv | mvabs | prev | pix4c | glyphc | pix4 | glyph | fills | fillc | fill | split | pix4f =>
    exact ⟨_, _, _, _, fun _ => rfl, fun _ => rfl⟩
  | _ => cases h

/-- A run runs over the run step (R90). -/
theorem exec_eq_runInstr {i : Instr} (h : i.validIn .rle = true) :
    ∃ operands bytes, ∀ s, exec i s = runInstr operands bytes s := by
  cases i with
  | copy | run => exact ⟨_, _, fun _ => rfl⟩
  | _ => cases h

/-- A subcodec runs at the dispatch (R105). -/
theorem exec_eq_subcodecInstr {i : Instr} (h : i.validIn .subcodec = true) :
    ∃ effect, ∀ s, exec i s = subcodecInstr effect s := by
  cases i with
  | raw | subc1 | block | copyref | copyprev | rle16 | cbmap | subc7 | rlecb | invalid => exact ⟨_, fun _ => rfl⟩
  | _ => cases h

/-- Settles O34: the shared operation of the instruction's language makes the check that stops it. -/
theorem engineInstructionsStopOutOfPlace : Obligations.EngineInstructionsStopOutOfPlace := by
  refine ⟨fun s i bs hv hp => ?_, fun s i bs hv hp hq => ?_, fun s i bs b rest hv hp hq hw => ?_,
    fun s i b rest hv hp hq hout => ?_, fun s i hv hp => ?_, fun s i hv hp => ?_⟩
  · obtain ⟨op, len, sizes, effect, hx, -⟩ := exec_eq_blockInstr hv
    rw [hx, blockInstr, if_neg hp]
  · obtain ⟨op, len, sizes, effect, hx, -⟩ := exec_eq_blockInstr hv
    simp only [hx, blockInstr, hp, if_true, hq]
  · obtain ⟨op, len, sizes, effect, hx, hsz⟩ := exec_eq_blockInstr hv
    have hs : sizes b.bs = false := (hsz b.bs).trans hw
    simp [hx, blockInstr, hp, hq, hs]
  · obtain ⟨op, len, sizes, effect, hx, hsz⟩ := exec_eq_blockInstr hv
    have hs : sizes b.bs = true := (hsz b.bs).trans hv
    have hf : ¬blockInFrame s.aw s.ah b = true := by rw [blockInFrame_iff]; omega
    simp [hx, blockInstr, hp, hq, hs, hf]
  · obtain ⟨operands, bytes, hx⟩ := exec_eq_runInstr hv
    rw [hx, runInstr, if_neg hp]
  · obtain ⟨effect, hx⟩ := exec_eq_subcodecInstr hv
    rw [hx, subcodecInstr, if_neg hp]

/- While a command runs every step answers a next state. -/

theorem blockInstr_answers {s : State} {b : Block} {rest : List Block} {op : Byte} {len : Nat}
    {sizes : BlockSize → Bool} (effect : State → State) (hp : s.phase = .blocks) (hq : s.pend = b :: rest)
    (hf : blockInFrame s.aw s.ah b = true) (hs : sizes b.bs = true) :
    ∃ t, blockInstr op len sizes effect s = .next t := by
  obtain hl | hl := Nat.lt_or_ge s.bytesLeft len
  · exact ⟨_, blockInstr_truncated effect hp hq hf hs hl⟩
  · exact ⟨_, blockInstr_next effect hp hq hf hs hl⟩

theorem runInstr_answers {s : State} (operands : Nat) (bytes : List Byte) (hp : s.phase = .runs) :
    ∃ t, runInstr operands bytes s = .next t := by
  unfold runInstr
  rw [if_pos hp]
  exact ⟨_, rfl⟩

theorem running_step_answers {s : State} (h : s.Inv) (hp : s.phase ≠ .idle) : ∃ t, step s = .next t := by
  cases hph : s.phase with
  | idle => exact absurd hph hp
  | dispatch =>
    obtain ⟨effect, hx⟩ := exec_eq_subcodecInstr (decodeSubcodec_spec s.subc).2.1
    rw [step_dispatch hph, hx, subcodecInstr_next effect hph]
    exact ⟨_, rfl⟩
  | blocks =>
    cases hq : s.pend with
    | nil => exact ⟨_, step_blocks_nil hph hq⟩
    | cons b rest =>
      cases hd : decodeBytes (.block b.bs) s.rest with
      | error e => exact ⟨_, step_blocks_error hph hq hd⟩
      | ok r =>
        have hv := (decodeBlock_validIn hd).1
        obtain ⟨op, len, sizes, effect, hx, hsz⟩ := exec_eq_blockInstr hv
        have hf : blockInFrame s.aw s.ah b = true := by
          have hok := ((pendOk_iff s).1 h.pending).2 b (by simp [hq])
          exact (blockInFrame_iff ..).2 ((blockOk_iff ..).1 hok).1
        rw [step_blocks_ok hph hq hd, hx]
        exact blockInstr_answers effect hph hq hf ((hsz b.bs).trans hv)
  | runs =>
    obtain hk | hk := Nat.lt_or_ge s.rleK s.rleN
    · cases hd : decodeBytes .rle s.rest with
      | error e => exact ⟨_, step_runs_error hph hk hd⟩
      | ok r =>
        obtain ⟨operands, bytes, hx⟩ := exec_eq_runInstr (encodeOfDecode _ _ _ _ hd).2.1
        rw [step_runs_ok hph hk hd, hx]
        exact runInstr_answers operands bytes hph
    · exact ⟨_, step_runs_end hph hk⟩
  | finish => exact ⟨_, step_finish hph⟩

/- The work left decreases (R95, R137). -/

theorem work_of_idle {s : State} (h : s.phase = .idle) : s.work = 0 := by simp only [State.work, h]

theorem work_pos {s : State} (h : s.phase ≠ .idle) : 0 < s.work := by
  unfold State.work
  split
  · next hi => exact absurd hi h
  all_goals omega

theorem work_of_finish {s : State} (h : s.phase = .finish) : s.work = 1 := by simp only [State.work, h]

theorem work_of_blocks {s : State} (h : s.phase = .blocks) : s.work = pendWork s.pend + 2 := by
  simp only [State.work, h]

theorem work_of_runs {s : State} (h : s.phase = .runs) : s.work = s.rleN - s.rleK + 2 := by simp only [State.work, h]

theorem work_of_dispatch {s : State} (h : s.phase = .dispatch) :
    s.work = 21 * (s.aw / 8 * (s.ah / 8)) + 2 * (s.w * s.h) + 3 := by simp only [State.work, h]

theorem pendWork_cons (b : Block) (rest : List Block) : pendWork (b :: rest) = blockWork b.bs + pendWork rest := rfl

theorem pendWork_append (p q : List Block) : pendWork (p ++ q) = pendWork p + pendWork q := by
  simp [pendWork]

theorem blockWork_pos (bs : BlockSize) : 0 < blockWork bs := by cases bs <;> decide

/-- The four quadrants and the split itself are the work of the block (R136). -/
theorem pendWork_quadrants {b : Block} (h : b.bs ≠ .s2) : pendWork (quadrants b) + 1 = blockWork b.bs := by
  cases hb : b.bs with
  | s8 => simp [quadrants, hb, halfSize, pendWork, blockWork]
  | s4 => simp [quadrants, hb, halfSize, pendWork, blockWork]
  | s2 => exact absurd hb h

/-- Each top-level block is 21 block steps at most. -/
theorem pendWork_topLevelBlocks (aw ah : Nat) : pendWork (topLevelBlocks aw ah) = 21 * (aw / 8 * (ah / 8)) := by
  have hall : ∀ n ∈ (topLevelBlocks aw ah).map (fun b => blockWork b.bs), n = 21 := by
    intro n hn
    obtain ⟨b, hb, rfl⟩ := List.mem_map.1 hn
    obtain ⟨x, y, -, -, rfl⟩ := mem_topLevelBlocks.1 hb
    rfl
  rw [pendWork, List.sum_eq_card_nsmul _ 21 hall, List.length_map, length_topLevelBlocks, smul_eq_mul, Nat.mul_comm]

/-- A block step leaves less work when what it puts in front is less work than the block it took. -/
theorem work_lt_of_tail {s t : State} {b : Block} {rest front : List Block} (hp : s.phase = .blocks)
    (hq : s.pend = b :: rest) (hp' : t.phase = .blocks) (ht : t.pend = front ++ rest)
    (hf : pendWork front < blockWork b.bs) : t.work < s.work := by
  rw [work_of_blocks hp', work_of_blocks hp, hq, ht, pendWork_cons, pendWork_append]
  omega

theorem StepTo.work_lt {s t : State} (h : StepTo s t) (hp : s.phase ≠ .idle) : t.work < s.work := by
  cases h with
  | waits hi _ | inits _ _ _ hi | deinits _ hi | decodes _ _ _ _ hi => exact absurd hi hp
  | fails c s' _ _ _ _ => rw [work_of_idle rfl]; exact work_pos hp
  | writesImage _ _ hd | copiesFrame _ hd | skipsSubcodec hd =>
    rw [work_of_finish rfl, work_of_dispatch hd]; omega
  | startsBlocks hd =>
    rw [work_of_blocks rfl, work_of_dispatch hd, State.enter_pend, State.withPend_pend, pendWork_topLevelBlocks]
    omega
  | startsRuns16 hd | startsRunsCb hd =>
    rw [work_of_runs rfl, work_of_dispatch hd, State.startRle_rleN, State.startRle_rleK]; omega
  | paintsBlock b _ _ _ _ hb hq | skipsVector b _ _ _ _ hb hq =>
    exact work_lt_of_tail (front := []) hb hq hb rfl (blockWork_pos b.bs)
  | splitsBlock b rest hb hq hs _ _ =>
    exact work_lt_of_tail (front := quadrants b) hb hq hb rfl (by have := pendWork_quadrants hs; omega)
  | endsBlocks hb _ => rw [work_of_finish rfl, work_of_blocks hb]; omega
  | runs n bytes hr _ _ hb hk =>
    rw [work_of_runs (by simpa using hr), work_of_runs hr]
    simp
    omega
  | endsRuns hr | endsScratchRuns hr => rw [work_of_finish rfl, work_of_runs hr]; omega
  | finishes hf => rw [work_of_idle (by simp)]; exact work_pos hp

/-- Settles O41: the step of a running command answers, and each of its cases leaves less work. -/
theorem runningCommandAlwaysProgresses : Obligations.RunningCommandAlwaysProgresses := by
  intro s h hp
  obtain ⟨t, ht⟩ := running_step_answers h hp
  exact ⟨t, ht, (step_cases ht).work_lt hp⟩

/- The end of a command (R159). -/

/-- A step that ends a running command leaves `STATUS` OK without a cause or FAIL with one. -/
theorem ended_status {s t : State} (h : s.Inv) (hp : s.phase ≠ .idle) (hstep : step s = .next t)
    (ht : t.phase = .idle) :
    t.status = .ok ∧ t.cause = .none ∨ t.status = .fail ∧ t.cause ≠ .none := by
  obtain ⟨c, hc, hf, -⟩ | hg | ⟨-, rfl⟩ := (step_cases hstep).running_cases hp
  · exact .inr ⟨hf.status, hf.cause ▸ hc⟩
  · exact absurd ht hg.phase
  · have hrun := (runningOk_iff s).1 (h.running hp)
    exact .inl ⟨by simp, by simp [hrun]⟩

/-- A run of one step more takes that step first. -/
theorem run_succ {s t : State} (n : Nat) (h : step s = .next t) : core.run (n + 1) s = core.run n t := by
  have hc : core.step s = .next t := h
  simp only [Host.Core.run, hc]

/-- Settles O42: by induction on the work left, which the next step makes less. -/
theorem everyCommandTerminates : Obligations.EveryCommandTerminates := by
  intro s h hp
  induction hw : s.work using Nat.strong_induction_on generalizing s with
  | _ w ih =>
    subst hw
    obtain ⟨u, hu, hlt⟩ := runningCommandAlwaysProgresses s h hp
    by_cases hi : u.phase = .idle
    · exact ⟨1, u, work_pos hp, run_succ 0 hu, hi, ended_status h hp hu hi⟩
    · obtain ⟨n, t, hn, hrun, hrest⟩ := ih u.work hlt u (stepKeepsInvariant s u h hu) hi rfl
      exact ⟨n + 1, t, by omega, (run_succ n hu).trans hrun, hrest⟩

end Sys2Proof.Machine
end

section
/-! Places: the blocks share out the frame and the pixel map the image (R104, R120, R134), and what every step does to
the pending blocks (R136, R138). -/

namespace Sys2Proof.Machine

/-- Settles O37: the slots undo the pixel map, so no two pixels of the image have one place. -/
theorem pixelMapIsInjective : Obligations.PixelMapIsInjective := by
  intro m w h aw ah hw hh
  refine ⟨fun j hj => pixmap_range m hw hh hj, fun j k hj hk he => ?_, fun x y j hx => ⟨pixmap_pixelSlot m hx, ?_⟩⟩
  · have hslot := pixelSlot_pixmap (aw := aw) m hj
    rw [he, pixelSlot_pixmap m hk] at hslot
    exact (Option.some.inj hslot).symm
  · rintro ⟨hj, he⟩
    have hslot := pixelSlot_pixmap (aw := aw) m hj
    rwa [he] at hslot

/- Blocks that share no pixel. -/

/-- Of blocks that share no pixel exactly one has a pixel that one of them has. -/
theorem exactlyOneCovers_of_disjoint {blocks : List Block} {b : Block} {x y : Nat}
    (hd : blocks.Pairwise BlocksDisjoint) (hb : b ∈ blocks) (hc : blockCovers b x y = true) :
    ExactlyOneCovers blocks x y := by
  induction blocks with
  | nil => cases hb
  | cons a rest ih =>
    obtain ⟨ha, hrest⟩ := List.pairwise_cons.1 hd
    unfold ExactlyOneCovers
    by_cases hac : blockCovers a x y = true
    · have hnil : rest.filter (fun b => blockCovers b x y) = [] :=
        List.filter_eq_nil_iff.2 fun c hmem hcc => ha c hmem x y ⟨hac, hcc⟩
      rw [List.filter_cons_of_pos (p := fun c => blockCovers c x y) hac, hnil]
      rfl
    · obtain rfl | hmem := List.mem_cons.1 hb
      · exact absurd hc hac
      · rw [List.filter_cons_of_neg (p := fun c => blockCovers c x y) hac]
        exact ih hrest hmem

/-- Two top-level blocks in different columns or rows share no pixel. -/
theorem topLevel_disjoint {x y x' y' : Nat} (h : x < x' ∨ y < y') :
    BlocksDisjoint ⟨8 * x, 8 * y, .s8⟩ ⟨8 * x', 8 * y', .s8⟩ := by
  rintro u v ⟨ha, hb⟩
  rw [blockCovers_iff] at ha hb
  simp only [BlockSize.toNat] at ha hb
  omega

theorem topLevelBlocks_disjoint (aw ah : Nat) : (topLevelBlocks aw ah).Pairwise BlocksDisjoint := by
  refine List.pairwise_flatMap.2 ⟨fun y _ => ?row, ?rows⟩
  case row => exact List.pairwise_map.2 (List.pairwise_lt_range.imp fun hx => topLevel_disjoint (.inl hx))
  case rows =>
    refine List.pairwise_lt_range.imp fun hy a ha b hb => ?_
    obtain ⟨x, -, rfl⟩ := List.mem_map.1 ha
    obtain ⟨x', -, rfl⟩ := List.mem_map.1 hb
    exact topLevel_disjoint (.inr hy)

/-- The block of the aligned frame that has a pixel (R120). -/
theorem topLevelBlocks_cover {aw ah x y : Nat} (hw : aw % 8 = 0) (hh : ah % 8 = 0) (hx : x < aw) (hy : y < ah) :
    ∃ b ∈ topLevelBlocks aw ah, blockCovers b x y = true := by
  refine ⟨⟨8 * (x / 8), 8 * (y / 8), .s8⟩, mem_topLevelBlocks.2 ⟨x / 8, y / 8, by omega, by omega, rfl⟩, ?_⟩
  rw [blockCovers_iff]
  simp only [BlockSize.toNat]
  omega

/-- The pixels of a block that can be split are those of its quadrants (R134). -/
theorem quadrants_cover {b : Block} (hs : b.bs ≠ .s2) (x y : Nat) :
    (∃ q ∈ quadrants b, blockCovers q x y = true) ↔ blockCovers b x y = true := by
  cases hb : b.bs with
  | s2 => exact absurd hb hs
  | s8 | s4 =>
    simp only [quadrants, hb, halfSize, BlockSize.toNat, List.mem_cons, List.not_mem_nil, or_false, exists_eq_or_imp,
      exists_eq_left, blockCovers_iff]
    omega

theorem quadrants_disjoint {b : Block} (hs : b.bs ≠ .s2) : (quadrants b).Pairwise BlocksDisjoint := by
  cases hb : b.bs with
  | s2 => exact absurd hb hs
  | s8 | s4 =>
    simp only [quadrants, hb, halfSize, BlocksDisjoint, BlockSize.toNat, List.pairwise_cons, List.mem_cons,
      List.not_mem_nil, or_false, forall_eq_or_imp, forall_eq, blockCovers_iff]
    refine ⟨⟨?_, ?_, ?_⟩, ⟨?_, ?_⟩, ?_, nofun, .nil⟩
    all_goals
      intro u v
      omega

/-- Settles O36: in each list the blocks share no pixel, and the one that has the pixel is named. -/
theorem blocksShareOutTheFrame : Obligations.BlocksShareOutTheFrame := by
  refine ⟨fun aw ah x y hw hh hx hy => ?_, fun b x y hs => ⟨fun hc => ?_, fun hc q hq => ?_⟩⟩
  · obtain ⟨b, hb, hc⟩ := topLevelBlocks_cover hw hh hx hy
    exact exactlyOneCovers_of_disjoint (topLevelBlocks_disjoint aw ah) hb hc
  · obtain ⟨q, hq, hqc⟩ := (quadrants_cover hs x y).2 hc
    exact exactlyOneCovers_of_disjoint (quadrants_disjoint hs) hq hqc
  · rw [Bool.eq_false_iff] at hc ⊢
    exact fun hqc => hc ((quadrants_cover hs x y).1 ⟨q, hq, hqc⟩)

/- The pending blocks after any step. -/

/-- An accepted `decode` leaves the pending blocks or, on a failure, none; the frame keeps its size. -/
theorem beginDecode_pend (s : State) (dst c : List Byte) (n : Nat) (hl : s.life ≠ .uninit) :
    (s.beginDecode dst c n).pend = [] ∨
      (s.beginDecode dst c n).pend = s.pend ∧ (s.beginDecode dst c n).ntop = s.ntop := by
  obtain ⟨-, he⟩ | ⟨-, -, he⟩ | ⟨-, -, f, -, he⟩ | ⟨-, -, f, -, he⟩ := beginDecode_cases s dst c n hl
  · rw [he]; exact .inl rfl
  · rw [he]; exact .inl rfl
  · rw [he]; exact .inl rfl
  · rw [he]; right; simp [State.ntop]

/-- All that a step does to the pending blocks: it clears them, leaves them, loads the top-level blocks, takes the head
or splits the head. -/
theorem StepTo.pend_cases {s t : State} (h : StepTo s t) :
    t.pend = [] ∨ t.ntop = s.ntop ∧
      (t.pend = s.pend ∨ t.pend = topLevelBlocks s.aw s.ah ∨
        ∃ b rest, s.pend = b :: rest ∧ (t.pend = rest ∨ b.bs ≠ .s2 ∧ t.pend = quadrants b ++ rest)) := by
  cases h with
  | inits | deinits | fails => exact .inl rfl
  | decodes cs dst c n _ _ hl _ _ =>
    obtain h | ⟨h, hn⟩ := beginDecode_pend (s.withInbox cs) dst c n hl
    · exact .inl h
    · exact .inr ⟨hn, .inl h⟩
  | startsBlocks => exact .inr ⟨rfl, .inr (.inl rfl)⟩
  | paintsBlock b rest _ _ _ _ hq => exact .inr ⟨rfl, .inr (.inr ⟨b, rest, hq, .inl rfl⟩)⟩
  | skipsVector b rest _ _ _ _ hq => exact .inr ⟨rfl, .inr (.inr ⟨b, rest, hq, .inl rfl⟩)⟩
  | splitsBlock b rest _ hq hs => exact .inr ⟨rfl, .inr (.inr ⟨b, rest, hq, .inr ⟨hs, rfl⟩⟩)⟩
  | _ => right; simp [State.ntop]

/-- Settles O44: the blocks that come in share no pixel with each other, and quadrants lie in the block they replace. -/
theorem pendingBlocksStayDisjoint : Obligations.PendingBlocksStayDisjoint := by
  intro s t h hstep
  unfold State.PendDisjoint at h ⊢
  obtain ht | ⟨-, ht | ht | ⟨b, rest, hq, ht | ⟨hs, ht⟩⟩⟩ := (step_cases hstep).pend_cases
  · rw [ht]; exact .nil
  · rw [ht]; exact h
  · rw [ht]; exact topLevelBlocks_disjoint s.aw s.ah
  all_goals
    rw [hq] at h
    obtain ⟨hhead, hrest⟩ := List.pairwise_cons.1 h
  · rw [ht]; exact hrest
  · rw [ht]
    refine List.pairwise_append.2 ⟨quadrants_disjoint hs, hrest, fun q hqm c hc x y hboth => ?_⟩
    exact hhead c hc x y ⟨(quadrants_cover hs x y).1 ⟨q, hqm, hboth.1⟩, hboth.2⟩

/- The shape of the pending list (R136). -/

/-- The shape of a pending list of a frame with `ntop` top-level blocks, in its three parts. -/
structure ListShape (ntop : Nat) (twos fours tops : List Block) : Prop where
  sizes : (∀ b ∈ twos, b.bs = .s2) ∧ (∀ b ∈ fours, b.bs = .s4) ∧ (∀ b ∈ tops, b.bs = .s8)
  lengths : twos.length ≤ 4 ∧ fours.length ≤ 4 ∧ tops.length ≤ ntop
  splitFour : twos ≠ [] → fours.length ≤ 3
  splitTop : twos ≠ [] ∨ fours ≠ [] → tops.length + 1 ≤ ntop

theorem pendShape_iff (s : State) :
    s.PendShape ↔ ∃ twos fours tops, s.pend = twos ++ fours ++ tops ∧ ListShape s.ntop twos fours tops := by
  constructor
  · rintro ⟨twos, fours, tops, he, h2, h4, h8, n2, n4, n8, hf, ht⟩
    exact ⟨twos, fours, tops, he, ⟨h2, h4, h8⟩, ⟨n2, n4, n8⟩, hf, ht⟩
  · rintro ⟨twos, fours, tops, he, ⟨h2, h4, h8⟩, ⟨n2, n4, n8⟩, hf, ht⟩
    exact ⟨twos, fours, tops, he, h2, h4, h8, n2, n4, n8, hf, ht⟩

/-- The bound of R136. -/
theorem ListShape.length_le {ntop : Nat} {twos fours tops : List Block} (h : ListShape ntop twos fours tops) :
    (twos ++ fours ++ tops).length ≤ ntop + 6 := by
  obtain ⟨-, ⟨n2, n4, n8⟩, hf, ht⟩ := h
  rw [List.length_append, List.length_append]
  cases twos with
  | cons b twos =>
    have := hf nofun
    have := ht (.inl nofun)
    omega
  | nil =>
    cases fours with
    | cons b fours =>
      have := ht (.inr nofun)
      simp only [List.length_nil]
      omega
    | nil => simp only [List.length_nil]; omega

/-- The list of the top-level blocks has the shape (R120). -/
theorem listShape_topLevelBlocks (aw ah : Nat) : ListShape (aw / 8 * (ah / 8)) [] [] (topLevelBlocks aw ah) where
  sizes := ⟨nofun, nofun, fun b hb => by obtain ⟨x, y, -, -, rfl⟩ := mem_topLevelBlocks.1 hb; rfl⟩
  lengths := ⟨by simp, by simp, (length_topLevelBlocks aw ah).le⟩
  splitFour h := absurd rfl h
  splitTop h := by simp at h

/-- Taking the head keeps the shape. -/
theorem ListShape.tail {ntop : Nat} {twos fours tops rest : List Block} {b : Block} (h : ListShape ntop twos fours tops)
    (he : b :: rest = twos ++ fours ++ tops) :
    ∃ twos' fours' tops', rest = twos' ++ fours' ++ tops' ∧ ListShape ntop twos' fours' tops' := by
  obtain ⟨⟨h2, h4, h8⟩, ⟨n2, n4, n8⟩, hf, ht⟩ := h
  match twos, fours, tops, he with
  | c :: twos, fours, tops, he =>
    cases he
    refine ⟨twos, fours, tops, rfl, ⟨fun q hq => h2 q (List.mem_cons_of_mem _ hq), h4, h8⟩, ⟨?_, n4, n8⟩,
      fun _ => hf nofun, fun _ => ht (.inl nofun)⟩
    exact Nat.le_of_succ_le n2
  | [], c :: fours, tops, he =>
    cases he
    refine ⟨[], fours, tops, rfl, ⟨nofun, fun q hq => h4 q (List.mem_cons_of_mem _ hq), h8⟩, ⟨Nat.zero_le _, ?_, n8⟩,
      fun hne => absurd rfl hne, fun _ => ht (.inr nofun)⟩
    exact Nat.le_of_succ_le n4
  | [], [], c :: tops, he =>
    cases he
    refine ⟨[], [], rest, rfl, ⟨nofun, nofun, fun q hq => h8 q (List.mem_cons_of_mem _ hq)⟩,
      ⟨Nat.zero_le _, Nat.zero_le _, ?_⟩, fun hne => absurd rfl hne, fun hne => by simp at hne⟩
    exact Nat.le_of_succ_le n8

/-- Splitting the head keeps the shape: a block of size 4 can only be at the head when none of size 2 is before it. -/
theorem ListShape.split {ntop : Nat} {twos fours tops rest : List Block} {b : Block}
    (h : ListShape ntop twos fours tops) (he : b :: rest = twos ++ fours ++ tops) (hs : b.bs ≠ .s2) :
    ∃ twos' fours' tops', quadrants b ++ rest = twos' ++ fours' ++ tops' ∧ ListShape ntop twos' fours' tops' := by
  obtain ⟨⟨h2, h4, h8⟩, ⟨n2, n4, n8⟩, hf, ht⟩ := h
  match twos, fours, tops, he with
  | c :: twos, fours, tops, he =>
    cases he
    exact absurd (h2 b List.mem_cons_self) hs
  | [], c :: fours, tops, he =>
    cases he
    have hb := h4 b List.mem_cons_self
    refine ⟨quadrants b, fours, tops, by simp, ⟨?_, fun q hq => h4 q (List.mem_cons_of_mem _ hq), h8⟩,
      ⟨Nat.le_refl 4, Nat.le_of_succ_le n4, n8⟩, fun _ => Nat.le_of_succ_le_succ n4, fun _ => ht (.inr nofun)⟩
    simp [quadrants, hb, halfSize]
  | [], [], c :: tops, he =>
    cases he
    have hb := h8 b List.mem_cons_self
    refine ⟨[], quadrants b, rest, by simp, ⟨nofun, ?_, fun q hq => h8 q (List.mem_cons_of_mem _ hq)⟩,
      ⟨Nat.zero_le _, Nat.le_refl 4, Nat.le_of_succ_le n8⟩, fun hne => absurd rfl hne, fun _ => n8⟩
    simp [quadrants, hb, halfSize]

theorem StepTo.pendShape {s t : State} (h : StepTo s t) (hs : s.PendShape) : t.PendShape := by
  rw [pendShape_iff] at hs ⊢
  obtain ⟨twos, fours, tops, he, hl⟩ := hs
  obtain ht | ⟨hn, ht | ht | ⟨b, rest, hq, ht | ⟨hb, ht⟩⟩⟩ := h.pend_cases
  · exact ⟨[], [], [], ht, ⟨nofun, nofun, nofun⟩, ⟨by simp, by simp, by simp⟩, fun hne => absurd rfl hne, by simp⟩
  · exact ⟨twos, fours, tops, ht.trans he, hn ▸ hl⟩
  · exact ⟨[], [], _, ht, hn ▸ listShape_topLevelBlocks s.aw s.ah⟩
  · rw [hn, ht]; exact hl.tail (hq.symm.trans he)
  · rw [hn, ht]; exact hl.split (hq.symm.trans he) hb

/-- Settles O43: every step keeps the shape, and the shape bounds the length. -/
theorem pendingListStaysShort : Obligations.PendingListStaysShort := by
  intro s t hs hstep
  have ht := (step_cases hstep).pendShape hs
  refine ⟨ht, ?_⟩
  obtain ⟨twos, fours, tops, he, hl⟩ := (pendShape_iff t).1 ht
  exact he ▸ hl.length_le

end Sys2Proof.Machine
end

section
/-! The block instructions: what each writes to its block (R124 to R135). -/

namespace Sys2Proof.Machine

/- Motion vectors (R77 to R79, R124, R125). -/

/-- The copy of a block from `REF`, or its record, after the block is taken (R78, R79). -/
theorem mcCopy_copies {s : State} {b : Block} {rest : List Block} {op : Byte} {len : Nat} (hr : BlockReady s b rest)
    (dx dy : Int) :
    CopiesFromReference s (((s.takeBlock b rest op).advance len).mcCopy b.cx b.cy b.bs.toNat (dx, dy)) b dx dy := by
  unfold CopiesFromReference State.mcCopy
  simp only [inBounds_iff, State.advance_aw, State.advance_ah, State.takeBlock_aw, State.takeBlock_ah]
  split
  next hin =>
    refine ⟨rfl, ?_⟩
    convert writeBlock_paints (op := op) (len := len) hr rfl _ using 1
    funext x y
    show s.pixel s.ref (b.cx + dx + x).toNat (b.cy + dy + y).toNat
      = s.pixel s.ref ((b.cx + dx).toNat + x) ((b.cy + dy).toNat + y)
    rw [Int.toNat_add hin.1 (Int.natCast_nonneg x), Int.toNat_add hin.2.2.1 (Int.natCast_nonneg y), Int.toNat_natCast,
      Int.toNat_natCast]
  next => exact ⟨rfl, rfl⟩

/-- A block copied from `REF` by a displacement is a block step (R122). -/
theorem blockStepIs_mcCopy {s : State} {b : Block} {rest : List Block} {op : Byte} {len : Nat} {i : Instr}
    {vector : State → Int × Int} {dx dy : Int} (hr : BlockReady s b rest)
    (hx : exec i s = blockInstr op len anySize (fun t => t.mcCopy t.cx t.cy t.bs.toNat (vector t)) s)
    (hv : vector ((s.takeBlock b rest op).advance len) = (dx, dy)) :
    BlockStepIs i op len s b rest fun t => CopiesFromReference s t b dx dy := by
  refine blockStepIs_of hr rfl hx ?_ ?_
  · exact mcCopy_eq ((s.takeBlock b rest op).advance len) b.cx b.cy b.bs.toNat _
  · have hcopy := mcCopy_copies (op := op) (len := len) hr dx dy
    rw [← hv] at hcopy
    exact hcopy

/-- Settles O27: the displacement is the table's entry. -/
theorem mvCopiesFromReference : Obligations.MvCopiesFromReference := by
  intro s b rest k hk hr
  exact blockStepIs_mcCopy (vector := fun _ => mvLookup k) hr rfl rfl

/-- The offset of 0xF5 as R125 reads it: with `F5_SIGNED` the upper half of the range is negative. -/
theorem f5Index_eq (signed : Bool) (v : BitVec 16) :
    f5Index signed v = if signed = true ∧ 0x8000 ≤ v.toNat then (v.toNat : Int) - 0x10000 else v.toNat := by
  cases signed with
  | false => rfl
  | true =>
    have hv := v.isLt
    simp only [f5Index, if_true, BitVec.toInt_eq_toNat_cond, true_and]
    split <;> split <;> omega

/-- Floor division gives the only quotient with a remainder below the divisor (R125). -/
theorem f5Split_eq {idx dx dy : Int} {d : Nat} (h0 : 0 ≤ dx) (hlt : dx < d) (he : dy * d + dx = idx) :
    f5Split idx d = (dx, dy) := by
  have hpos : (0 : Int) < d := by omega
  have hsplit : dx + d * dy = idx := by rw [← he, Int.mul_comm, Int.add_comm]
  obtain ⟨hq, hm⟩ := (Int.ediv_emod_unique hpos).2 ⟨hsplit, h0, hlt⟩
  rw [f5Split, hm, hq]

theorem f5Width_eq (s : State) :
    f5Width Config.f5Divisor s.w s.aw = if Config.f5Divisor = .w then s.w else s.aw := by
  cases Config.f5Divisor <;> rfl

/-- Settles O28: the displacement is the offset's only split by the divisor. -/
theorem mvabsCopiesFromReference : Obligations.MvabsCopiesFromReference := by
  intro s b rest v dx dy d hr _ hd h0 hlt he
  rw [← f5Width_eq] at hd
  subst hd
  rw [← f5Index_eq] at he
  exact blockStepIs_mcCopy (vector := fun t => t.f5Vector v) hr rfl (f5Split_eq h0 hlt he)

/- Whole blocks (R80, R81, R126, R131 to R133). -/

/-- An instruction that writes its block with values known beforehand paints it and logs nothing. -/
theorem blockStepIs_writeBlock {s : State} {b : Block} {rest : List Block} {op : Byte} {len : Nat} {i : Instr}
    {effect : State → State} (hr : BlockReady s b rest) (val : Nat → Nat → Pixel)
    (hx : exec i s = blockInstr op len anySize effect s)
    (he : effect ((s.takeBlock b rest op).advance len) =
      ((s.takeBlock b rest op).advance len).writeBlock b.cx b.cy b.bs.toNat val) :
    BlockStepIs i op len s b rest fun t => t.diag = s.diag ∧ PaintsBlock s t b val := by
  refine blockStepIs_of hr rfl hx ?_ ?_
  · rw [he]; rfl
  · rw [he]; exact ⟨rfl, writeBlock_paints hr rfl val⟩

/-- Settles O29: the block is written with that of `PREV` at the same place. -/
theorem prevCopiesFromPrevious : Obligations.PrevCopiesFromPrevious :=
  fun s b _ hr => blockStepIs_writeBlock hr (fun x y => s.pixel s.prev (b.cx + x) (b.cy + y)) rfl rfl

/-- The opcodes of the four small-codebook fills (R131). -/
theorem opFills_add (i : Fin 4) : opFills + BitVec.ofNat 8 i.val = BitVec.ofNat 8 (0xF9 + i.val) :=
  (BitVec.ofNat_add ..).symm

/-- Settles O32: the block is written with one colour, whatever the place. -/
theorem fillFormsPaintBlock : Obligations.FillFormsPaintBlock := by
  intro s b rest hr
  refine ⟨fun i => ?_, fun i => ?_, fun v => ?_⟩
  · rw [← opFills_add]
    exact blockStepIs_writeBlock hr (fun _ _ => s.scb.get i) rfl rfl
  · exact blockStepIs_writeBlock hr (fun _ _ => s.cb.get i.toFin) rfl rfl
  · exact blockStepIs_writeBlock hr (fun _ _ => v) rfl rfl

/- Four pixels (R82, R127, R129, R135). -/

/-- Four pixels written at size 2 are a block step that shows them in raster order. -/
theorem blockStepIs_put4 {s : State} {b : Block} {rest : List Block} {op : Byte} {len : Nat} {i : Instr}
    {effect : State → State} (hr : BlockReady s b rest) (hs : b.bs = .s2) (v0 v1 v2 v3 : Pixel)
    (hx : exec i s = blockInstr op len pixelSize effect s)
    (he : effect ((s.takeBlock b rest op).advance len) =
      ((s.takeBlock b rest op).advance len).put4 b.cx b.cy v0 v1 v2 v3) :
    BlockStepIs i op len s b rest fun t => t.diag = s.diag ∧ WritesRaster s t b v0 v1 v2 v3 := by
  have h2 : b.bs.toNat = 2 := by rw [hs]; rfl
  refine blockStepIs_of hr (by rw [hs]; rfl) hx ?_ ?_
  · rw [he]; rfl
  · rw [he]
    obtain ⟨honly, hpix⟩ := writeBlock_paints (op := op) (len := len) hr h2.symm
      fun x y => if y = 0 then (if x = 0 then v0 else v1) else (if x = 0 then v2 else v3)
    rw [h2] at hpix
    exact ⟨rfl, honly, hpix 0 0 (by decide) (by decide), hpix 1 0 (by decide) (by decide),
      hpix 0 1 (by decide) (by decide), hpix 1 1 (by decide) (by decide)⟩

/-- Settles O30: the three forms are one `put4`, of codebook or literal pixels. -/
theorem pixelFormsWriteRaster : Obligations.PixelFormsWriteRaster := by
  intro s b rest hr hs
  refine ⟨fun i0 i1 i2 i3 => ?_, fun p0 p1 p2 p3 => ?_, fun p0 p1 p2 p3 => ?_⟩
  · exact blockStepIs_put4 hr hs (s.codebook i0) (s.codebook i1) (s.codebook i2) (s.codebook i3) rfl rfl
  · exact blockStepIs_put4 hr hs p0 p1 p2 p3 rfl rfl
  · exact blockStepIs_put4 hr hs p0 p1 p2 p3 rfl rfl

/- Glyphs (R75, R76, R128, R130). -/

/-- The mask of a glyph in row-major order (R75). -/
theorem glyphMask_of_element {bs : BlockSize} {g : Fin 256} {x y : Nat} {m : Bool} (h : MaskElement bs g x y m) :
    glyphMask bs g x y = m := by
  obtain ⟨rfl, e, he, rfl⟩ | ⟨rfl, e, he, rfl⟩ := h
  · have hlt : y * 4 + x < 16 := he ▸ e.isLt
    obtain rfl : e = ⟨y * 4 + x, hlt⟩ := Fin.ext he
    simp only [glyphMask, dif_pos hlt]
  · have hlt : y * 8 + x < 64 := he ▸ e.isLt
    obtain rfl : e = ⟨y * 8 + x, hlt⟩ := Fin.ext he
    simp only [glyphMask, dif_pos hlt]

/-- A glyph of the table is drawn by one block write. -/
theorem drawGlyph_of_lt (s : State) (cx cy : Nat) (bs : BlockSize) (g : Byte) (fg bg : Pixel) :
    s.drawGlyph cx cy bs g.toNat fg bg =
      s.writeBlock cx cy bs.toNat fun x y => if glyphMask bs g.toFin x y then fg else bg := dif_pos g.isLt

theorem glyphSize_of_ne {bs : BlockSize} (h : bs ≠ .s2) : glyphSize bs = true := bne_iff_ne.2 h

/-- A glyph drawn at size 4 or 8 is a block step that shows its mask. -/
theorem blockStepIs_drawGlyph {s : State} {b : Block} {rest : List Block} {op : Byte} {len : Nat} {i : Instr}
    {effect : State → State} (hr : BlockReady s b rest) (hs : b.bs ≠ .s2) (g : Byte) (fg bg : Pixel)
    (hx : exec i s = blockInstr op len glyphSize effect s)
    (he : effect ((s.takeBlock b rest op).advance len) =
      ((s.takeBlock b rest op).advance len).drawGlyph b.cx b.cy b.bs g.toNat fg bg) :
    BlockStepIs i op len s b rest fun t => t.diag = s.diag ∧ DrawsGlyph s t b g.toFin fg bg := by
  rw [drawGlyph_of_lt] at he
  refine blockStepIs_of hr (glyphSize_of_ne hs) hx ?_ ?_
  · rw [he]; rfl
  · rw [he]
    obtain ⟨honly, hpix⟩ := writeBlock_paints (op := op) (len := len) hr rfl
      fun x y => if glyphMask b.bs g.toFin x y then fg else bg
    refine ⟨rfl, honly, fun x y m hx hy hm => ?_⟩
    rw [hpix x y hx hy, ← glyphMask_of_element hm]

/-- Settles O31: both forms draw the glyph of their first operand, in codebook or literal colours. -/
theorem glyphFormsDrawMask : Obligations.GlyphFormsDrawMask := by
  intro s b rest hr hs
  refine ⟨fun g bgi fgi => ?_, fun g bg fg => ?_⟩
  · exact blockStepIs_drawGlyph hr hs g (s.codebook fgi) (s.codebook bgi) rfl rfl
  · exact blockStepIs_drawGlyph hr hs g fg bg rfl rfl

/-- Settles O35: the index is outside the table, so only the record is made. -/
theorem glyphIndexOutsideTableSkips : Obligations.GlyphIndexOutsideTableSkips :=
  fun _ _ _ _ _ _ _ hg => dif_neg (Nat.not_lt.2 hg)

/- Splits (R134). -/

theorem exec_split (s : State) : exec .split s = blockInstr opSplit 1 glyphSize (fun t => t.pushQuadrants) s := rfl

/-- Settles O33: the block step of a split puts the block's quadrants in front of the list. -/
theorem splitPushesQuadrants : Obligations.SplitPushesQuadrants := by
  intro s b rest hr
  have hf : blockInFrame s.aw s.ah b = true := (blockInFrame_iff ..).2 hr.inFrame
  refine ⟨fun hs hn => ?_, fun hs hn => ?_, fun hs hn => ?_⟩
  · rw [exec_split, blockInstr_next _ hr.phase hr.pend hf (by rw [hs]; rfl) hn]
    obtain ⟨cx, cy, bs⟩ := b
    cases hs
    rfl
  · rw [exec_split, blockInstr_next _ hr.phase hr.pend hf (by rw [hs]; rfl) hn]
    obtain ⟨cx, cy, bs⟩ := b
    cases hs
    rfl
  · rw [exec_split, blockInstr_truncated _ hr.phase hr.pend hf (glyphSize_of_ne hs) (by omega)]
    exact ⟨_, rfl, (raiseFail_failedWith _ _).of_takeBlock⟩

end Sys2Proof.Machine
end

section
/-! The Bitstream Reader, the header, the runs and the subcodecs that read a payload (R53, R67 to R72, R87 to R93,
R106 to R114). -/

namespace Sys2Proof.Machine

/- The reader (R66 to R72). -/

/-- The check of R66 and the cursor, written out. -/
theorem skip_eq_ite (s : State) (n : Nat) :
    s.skip n = if n ≤ s.bytesLeft then some { s with pos := s.pos + n } else none := by
  split
  next h => exact skip_some s h
  next h => exact skip_none s (Nat.not_le.1 h)

theorem readU8_eq_ite (s : State) :
    s.readU8 = if 1 ≤ s.bytesLeft then some (s.inByte s.pos, { s with pos := s.pos + 1 }) else none := by
  unfold State.readU8
  rw [skip_eq_ite]
  split <;> rfl

theorem readU16LE_some {s : State} (h : 2 ≤ s.bytesLeft) :
    s.readU16LE = some (u16 (s.inByte s.pos) (s.inByte (s.pos + 1)), { s with pos := s.pos + 2 }) := by
  rw [State.readU16LE, skip_some s h]
  rfl

theorem readU16LE_none {s : State} (h : s.bytesLeft < 2) : s.readU16LE = none := by
  rw [State.readU16LE, skip_none s h]
  rfl

theorem readU32LE_some {s : State} (h : 4 ≤ s.bytesLeft) :
    s.readU32LE = some (u32 (s.inByte s.pos) (s.inByte (s.pos + 1)) (s.inByte (s.pos + 2)) (s.inByte (s.pos + 3)),
      { s with pos := s.pos + 4 }) := by
  rw [State.readU32LE, skip_some s h]
  rfl

theorem readU32LE_none {s : State} (h : s.bytesLeft < 4) : s.readU32LE = none := by
  rw [State.readU32LE, skip_none s h]
  rfl

/-- The next `n` bytes of the input, which `readBuf` returns (R70). -/
def State.nextBytes (s : State) (n : Nat) : List Byte := (List.range n).map fun k => s.inByte (s.pos + k)

theorem readBuf_nextBytes {s : State} {n : Nat} (h : n ≤ s.bytesLeft) :
    s.readBuf n = some (s.nextBytes n, s.advance n) := readBuf_some s h

@[simp] theorem length_nextBytes (s : State) (n : Nat) : (s.nextBytes n).length = n := by simp [State.nextBytes]

theorem getElem?_nextBytes (s : State) {n k : Nat} (h : k < n) : (s.nextBytes n)[k]? = some (s.inByte (s.pos + k)) := by
  rw [State.nextBytes, List.getElem?_map, List.getElem?_range h, Option.map_some]

theorem getD_nextBytes (s : State) {n k : Nat} (h : k < n) : (s.nextBytes n).getD k 0 = s.inByte (s.pos + k) := by
  rw [List.getD_eq_getElem?_getD, getElem?_nextBytes s h, Option.getD_some]

/-- Settles O1: each operation is `skip` and the bytes at the old cursor, assembled little-endian. -/
theorem readerOperations : Obligations.ReaderOperations := by
  intro s
  refine ⟨rfl, readU8_eq_ite s, fun h => ⟨_, readU16LE_some h, u16_toNat _ _⟩, readU16LE_none,
    fun h => ⟨_, readU32LE_some h, u32_toNat _ _ _ _⟩, readU32LE_none, fun n h => ?_, fun n => readBuf_none s,
    skip_eq_ite s⟩
  exact ⟨_, readBuf_nextBytes h, length_nextBytes s n, fun k => getElem?_nextBytes s⟩

/-- Settles O52: every field is read little-endian at its offset, and the offsets are a chain of gaps. -/
theorem headerFieldsLittleEndianInOrder : Obligations.HeaderFieldsLittleEndianInOrder := by
  obtain ⟨-, hhh, hseq, hsubc, hrot, hscb, hbg, hcb, hsize⟩ := headerOffset_chain
  refine ⟨fun bytes => ⟨u32At_toNat _ _, u32At_toNat _ _, u16At_toNat _ _, rfl, rfl, fun i => ?_, u16At_toNat _ _,
    fun i => ?_⟩, by omega, by omega, by omega, by omega, by omega, by omega, by omega, by omega, by omega⟩
  · rw [readHeader_scb_get]; exact u16At_toNat _ _
  · rw [readHeader_cb_get]; exact u16At_toNat _ _

/- The runs (R90 to R93). -/

theorem advance_advance (s : State) (m n : Nat) : (s.advance m).advance n = s.advance (m + n) := by
  simp only [State.advance, Nat.add_assoc]

/-- What a run leaves with its bytes and the space there: the cursor, the count and the sink's memory (R90). -/
theorem run_frame (s : State) (operands : Nat) (bytes : List Byte) :
    (((s.advance 1).advance operands).emitBytes bytes).countOutput bytes.length = { s with
      pos := s.pos + 1 + operands, rleK := s.rleK + bytes.length,
      fb := ((((s.advance 1).advance operands).emitBytes bytes).countOutput bytes.length).fb,
      scr := ((((s.advance 1).advance operands).emitBytes bytes).countOutput bytes.length).scr } := by
  rw [emitBytes_eq]
  rfl

/-- An instruction over the run step answers as R90 orders its checks. -/
theorem runStepIs_of {i : Instr} {operands : Nat} {bytes : List Byte} {s : State} (hp : s.phase = .runs)
    (hi : ImageReady s) (hx : exec i s = runInstr operands bytes s) : RunStepIs i operands bytes s := by
  obtain ⟨t, ht⟩ := runInstr_answers operands bytes hp
  have hx := hx.trans ht
  obtain ⟨-, ⟨h0, rfl⟩ | ⟨h1, hover, rfl⟩ | ⟨h1, hroom, hlack, rfl⟩ | ⟨hall, hroom, rfl⟩⟩ := runInstr_cases ht
  · have hf := raiseFail_failedWith s .truncated
    exact ⟨fun _ => ⟨_, hx, hf⟩, fun h => by omega, fun h => by omega, fun h => by omega⟩
  · have hf := (raiseFail_failedWith (s.advance 1) .rleOverrun).of_advance
    exact ⟨fun h => by omega, fun _ _ => ⟨_, hx, hf⟩, fun _ h => by omega, fun _ h => by omega⟩
  · have hf := (raiseFail_failedWith (s.advance 1) .truncated).of_advance
    exact ⟨fun h => by omega, fun _ h => by omega, fun _ _ _ => ⟨_, hx, hf⟩, fun h => by omega⟩
  · refine ⟨fun h => by omega, fun _ h => by omega, fun _ _ h => by omega,
      fun _ _ => ⟨_, hx, run_frame s operands bytes, ?_⟩⟩
    rw [advance_advance]
    exact emitBytes_emits hi (1 + operands) bytes.length bytes

/-- Settles O25: a literal run has as many operand bytes as output bytes. -/
theorem copyEmitsLiteralBytes : Obligations.CopyEmitsLiteralBytes :=
  fun _ _ hp hi => runStepIs_of hp hi rfl

/-- Settles O26: a fill run has one operand byte and writes it `n` times. -/
theorem runEmitsFillByte : Obligations.RunEmitsFillByte :=
  fun _ _ _ hp hi => runStepIs_of hp hi rfl

/- The subcodecs that read a payload (R106, R112). -/

/-- Pixel `j` of the payload of `raw`: its `j`-th pair of bytes (R106). -/
def State.rawPixel (s : State) (j : Nat) : Pixel :=
  u16 ((s.nextBytes (2 * (s.w * s.h))).getD (2 * j) 0) ((s.nextBytes (2 * (s.w * s.h))).getD (2 * j + 1) 0)

theorem rawPixel_toNat (s : State) {j : Nat} (h : j < s.w * s.h) :
    (s.rawPixel j).toNat = (s.inByte (s.pos + 2 * j)).toNat + 256 * (s.inByte (s.pos + 2 * j + 1)).toNat := by
  rw [State.rawPixel, u16_toNat, getD_nextBytes s (by omega), getD_nextBytes s (by omega), Nat.add_assoc]

/-- Pixel `j` of the payload of `cbmap`: the codebook's colour of its `j`-th byte (R112). -/
def State.indexedPixel (s : State) (j : Nat) : Pixel := s.codebook ((s.nextBytes (s.w * s.h)).getD j 0)

theorem indexedPixel_eq (s : State) {j : Nat} (h : j < s.w * s.h) :
    s.indexedPixel j = s.cb.get (s.inByte (s.pos + j)).toFin := by
  rw [State.indexedPixel, getD_nextBytes s h]
  rfl

theorem exec_raw (s : State) : exec .raw s = execRaw s := rfl

theorem exec_cbmap (s : State) : exec .cbmap s = execCbmap s := rfl

theorem exec_raw_some {s : State} (hp : s.phase = .dispatch) (hn : 2 * (s.w * s.h) ≤ s.bytesLeft) :
    exec .raw s = .next ((s.advance (2 * (s.w * s.h))).writeImage s.rawPixel).endSubcodec := by
  rw [exec_raw, execRaw, subcodecInstr_next _ hp]
  simp only [readBuf_nextBytes hn]
  rfl

theorem exec_raw_none {s : State} (hp : s.phase = .dispatch) (hn : s.bytesLeft < 2 * (s.w * s.h)) :
    exec .raw s = .next (s.raiseFail .truncated) := by
  rw [exec_raw, execRaw, subcodecInstr_next _ hp]
  simp only [readBuf_none s hn]

theorem exec_cbmap_some {s : State} (hp : s.phase = .dispatch) (hn : s.w * s.h ≤ s.bytesLeft) :
    exec .cbmap s = .next ((s.advance (s.w * s.h)).writeImage s.indexedPixel).endSubcodec := by
  rw [exec_cbmap, execCbmap, subcodecInstr_next _ hp]
  simp only [readBuf_nextBytes hn]
  rfl

theorem exec_cbmap_none {s : State} (hp : s.phase = .dispatch) (hn : s.bytesLeft < s.w * s.h) :
    exec .cbmap s = .next (s.raiseFail .truncated) := by
  rw [exec_cbmap, execCbmap, subcodecInstr_next _ hp]
  simp only [readBuf_none s hn]

/-- A written image, after the cursor moved and before copy-out. -/
theorem writeImage_endSubcodec_paints {s : State} (hi : ImageReady s) (n : Nat) (val : Nat → Pixel) :
    PaintsImage s ((s.advance n).writeImage val).endSubcodec val := writeImage_paints hi val rfl

/-- Settles O18: the payload's byte pairs are the image's pixels. -/
theorem rawFillsImage : Obligations.RawFillsImage := by
  intro s hp hi
  obtain ⟨honly, hpix⟩ := writeImage_endSubcodec_paints hi (2 * (s.w * s.h)) s.rawPixel
  refine ⟨fun hn => ⟨_, exec_raw_some hp hn, rfl, honly, fun j hj => ?_⟩,
    fun hn => ⟨_, exec_raw_none hp hn, raiseFail_failedWith s _⟩⟩
  rw [hpix j hj, rawPixel_toNat s hj]

/-- Settles O19: the payload's bytes are the image's codebook indices. -/
theorem cbmapFillsImage : Obligations.CbmapFillsImage := by
  intro s hp hi
  obtain ⟨honly, hpix⟩ := writeImage_endSubcodec_paints hi (s.w * s.h) s.indexedPixel
  exact ⟨fun hn => ⟨_, exec_cbmap_some hp hn, rfl, honly, fun j hj => (hpix j hj).trans (indexedPixel_eq s hj)⟩,
    fun hn => ⟨_, exec_cbmap_none hp hn, raiseFail_failedWith s _⟩⟩

/- The subcodecs without a stream (R107, R114). -/

/-- Subcodecs 1 and 7 under the two values of `SUBCODEC_1_7` (D19). -/
theorem reservedSubcodec_spec (s : State) :
    (Config.subcodec17 = .fail → FailedWith .badSubcodec s s.reservedSubcodec) ∧
      (Config.subcodec17 = .noop → s.reservedSubcodec = { s with phase := .finish }) := by
  unfold State.reservedSubcodec
  cases Config.subcodec17 with
  | fail => exact ⟨fun _ => raiseFail_failedWith s _, nofun⟩
  | noop => exact ⟨nofun, fun _ => rfl⟩

/-- Settles O21: both ids run the reserved subcodec. -/
theorem reservedSubcodecsFollowParameter : Obligations.ReservedSubcodecsFollowParameter :=
  fun s hp => ⟨⟨_, subcodecInstr_next _ hp, reservedSubcodec_spec s⟩,
    ⟨_, subcodecInstr_next _ hp, reservedSubcodec_spec s⟩⟩

/-- Settles O22: every such id runs the one failure. -/
theorem invalidSubcodecsFail : Obligations.InvalidSubcodecsFail :=
  fun s _ hp _ => ⟨_, subcodecInstr_next (fun s => s.raiseFail .badSubcodec) hp, raiseFail_failedWith s _⟩

/- Subcodec 0 and copy-out (R106, R115). -/

/-- The image lies in the frame while a command runs (R20, R21). -/
theorem imageReady_of_inv {s : State} (h : s.Inv) (hl : s.life ≠ .uninit) : ImageReady s := by
  obtain ⟨-, -, haw, hah⟩ := (dimensionsOk_iff s).1 (h.dimensions hl)
  have hm := ((memoryWf_iff s).1 h.memory).1
  rw [if_neg hl] at hm
  exact ⟨haw ▸ (align8_spec s.w).2.1, hah ▸ (align8_spec s.h).2.1, hm.1⟩

/-- The bytes of a pixel whose value is assembled from two bytes (R39). -/
theorem bytes_of_toNat {v : Pixel} {lo hi : Byte} (h : v.toNat = lo.toNat + 256 * hi.toNat) :
    loByte v = lo ∧ hiByte v = hi := by
  obtain rfl : v = u16 lo hi := BitVec.eq_of_toNat_eq (h.trans (u16_toNat lo hi).symm)
  exact ⟨loByte_u16 lo hi, hiByte_u16 lo hi⟩

/-- Settles O45: `raw` makes the payload's byte pairs the image's pixels, and copy-out writes the pixels' bytes. -/
theorem rawFrameRoundTrip : Obligations.RawFrameRoundTrip := by
  intro s h hp hsub hn
  obtain ⟨hlife, -, hcause, -, hdst⟩ := (runningOk_iff s).1 (h.running (by simp [hp]))
  obtain ⟨u, hu, hframe, -, hpix⟩ := (rawFillsImage s hp (imageReady_of_inv h (by simp [hlife]))).1 hn
  have hfirst : step s = .next u := ((dispatchBySubcodecId s hp).1 hsub).trans hu
  have hphase : u.phase = .finish := by rw [hframe]
  obtain ⟨hcur, hw, hh, hudst, hucause⟩ :
      u.cur = s.cur ∧ u.w = s.w ∧ u.h = s.h ∧ u.dst = s.dst ∧ u.cause = s.cause := by
    rw [hframe]; exact ⟨rfl, rfl, rfl, rfl, rfl⟩
  refine ⟨u.completeDecode, (run_succ 1 hfirst).trans (run_succ 0 (step_finish hphase)), by simp, by simp,
    by simp [hucause, hcause], fun k hk => ?_⟩
  rw [State.completeDecode_dst,
    getElem?_copyOut_image (by rw [hw, hh]; exact hk) (by rw [hw, hh, hudst]; exact hdst), hcur]
  obtain ⟨j, rfl | rfl⟩ : ∃ j, k = 2 * j ∨ k = 2 * j + 1 := ⟨k / 2, by omega⟩
  all_goals obtain ⟨hlo, hhi⟩ := bytes_of_toNat (hpix j (by omega))
  · rw [show 2 * j / 2 = j by omega, dstByte_even, if_pos (by omega)]
    exact ⟨fun ho => by rw [ho]; exact congrArg some hlo, fun ho => by rw [ho]; exact congrArg some hhi⟩
  · rw [show (2 * j + 1) / 2 = j by omega, dstByte_odd, if_neg (by omega)]
    exact ⟨fun ho => by rw [ho]; exact congrArg some hhi, fun ho => by rw [ho]; exact congrArg some hlo⟩

end Sys2Proof.Machine
end

section
/-! The host commands: `init`, `deinit` and `decode` up to its dispatch (R96 to R103). -/

namespace Sys2Proof.Machine

/- The answers of the three commands. -/

/-- Between commands a host command runs its body (R98 duty 4). -/
theorem hostCommand_idle {s : State} (body : State → Host.Outcome State Fault Refusal) (hp : s.phase = .idle) :
    hostCommand body s = body s := if_pos hp

theorem exec_init (w h : U32) (s : State) :
    exec (.init w h) s = hostCommand (fun s =>
      if s.life = .uninit then
        if dimensionOk w.toNat && dimensionOk h.toNat then .next (s.allocate w.toNat h.toNat)
        else .refused .dimensionOutOfRange
      else .refused .alreadyInitialised) s := rfl

theorem exec_deinit (s : State) :
    exec .deinit s =
      hostCommand (fun s => if s.life = .uninit then .refused .notInitialised else .next s.release) s := rfl

theorem exec_decode (dst compressed : List Byte) (size : Nat) (s : State) :
    exec (.decode dst compressed size) s = hostCommand (fun s =>
      if s.life = .uninit then .refused .notInitialised
      else if compressed.length < size then .refused .sizeBeyondInput
      else if dst.length < 2 * (s.w * s.h) then .refused .dstTooSmall
      else .next (s.beginDecode dst compressed size)) s := rfl

/-- `init` with its precondition allocates (R96). -/
theorem exec_init_next {s : State} {w h : U32} (hp : s.phase = .idle) (hl : s.life = .uninit)
    (hw : dimensionOk w.toNat = true) (hh : dimensionOk h.toNat = true) :
    exec (.init w h) s = .next (s.allocate w.toNat h.toNat) := by
  rw [exec_init, hostCommand_idle _ hp, if_pos hl, if_pos (by rw [hw, hh]; rfl)]

/-- `deinit` of a decoder releases it (R97). -/
theorem exec_deinit_next {s : State} (hp : s.phase = .idle) (hl : s.life ≠ .uninit) :
    exec .deinit s = .next s.release := by
  rw [exec_deinit, hostCommand_idle _ hp, if_neg hl]

/-- `decode` with its preconditions and the host's duties met begins (R98, R99). -/
theorem exec_decode_next {s : State} {dst compressed : List Byte} {size : Nat} (hp : s.phase = .idle)
    (hl : s.life ≠ .uninit) (hc : size ≤ compressed.length) (hd : 2 * (s.w * s.h) ≤ dst.length) :
    exec (.decode dst compressed size) s = .next (s.beginDecode dst compressed size) := by
  rw [exec_decode, hostCommand_idle _ hp, if_neg hl, if_neg (Nat.not_lt.2 hc), if_neg (Nat.not_lt.2 hd)]

/-- Settles O13: `init` is one `allocate`, whose aligned dimensions are the least multiples of 8. -/
theorem initAllocates : Obligations.InitAllocates := by
  intro s w h hp hl hw1 hwm hh1 hhm
  refine ⟨s.allocate w.toNat h.toNat,
    exec_init_next hp hl ((dimensionOk_iff _).2 ⟨hw1, hwm⟩) ((dimensionOk_iff _).2 ⟨hh1, hhm⟩), rfl, rfl, rfl,
    align8_spec w.toNat, align8_spec h.toNat, fun b => ?buffers, ?scratch, ⟨rfl, rfl, rfl⟩, rfl, rfl, rfl, rfl, rfl,
    rfl, rfl, hp, rfl, rfl⟩
  case buffers => cases b <;> simp [FrameBuffers.get, drawBuffer]
  case scratch => simp [drawScratch]

/-- Settles O14: `deinit` is one `release`. -/
theorem deinitReleases : Obligations.DeinitReleases :=
  fun s hp hl => ⟨s.release, exec_deinit_next hp hl, rfl, get_empty, rfl, rfl, hp, rfl, rfl⟩

/-- Settles O15: the checks of each command, in their order. -/
theorem hostCommandsRefused : Obligations.HostCommandsRefused := by
  refine ⟨fun s w h hp hl => ?_, fun s w h hp hl hout => ?_, fun s hp hl => ?_, fun s dst c n hp hl => ?_,
    fun s dst c n hp hl hc => ?_, fun s dst c n hp hl hc hd => ?_, fun s c hp => ?_⟩
  · rw [exec_init, hostCommand_idle _ hp, if_neg hl]
  · have hbad : ¬(dimensionOk w.toNat && dimensionOk h.toNat) = true := by
      rw [Bool.and_eq_true, dimensionOk_iff, dimensionOk_iff]
      omega
    rw [exec_init, hostCommand_idle _ hp, if_pos hl, if_neg hbad]
  · rw [exec_deinit, hostCommand_idle _ hp, if_pos hl]
  · rw [exec_decode, hostCommand_idle _ hp, if_pos hl]
  · rw [exec_decode, hostCommand_idle _ hp, if_neg hl, if_pos hc]
  · rw [exec_decode, hostCommand_idle _ hp, if_neg hl, if_neg (Nat.not_lt.2 hc), if_pos hd]
  · cases c <;> exact if_neg hp

/- The start of `decode` (R99 to R103). -/

/-- The bytes the reader gives from the start of a wrapped input are the first bytes of that input (R65, R70). -/
theorem nextBytes_wrapReader (s : State) {compressed : List Byte} {size n : Nat} (hn : n ≤ size)
    (hc : size ≤ compressed.length) : (s.wrapReader compressed size).nextBytes n = compressed.take n := by
  apply List.ext_getElem?
  intro k
  obtain hk | hk := Nat.lt_or_ge k n
  · have hkc : k < compressed.length := by omega
    have hks : k < size := by omega
    rw [getElem?_nextBytes _ hk]
    simp [State.inByte, List.getD_eq_getElem?_getD, hk, hks, List.getElem?_eq_getElem hkc]
  · rw [List.getElem?_eq_none (by simpa using hk), List.getElem?_eq_none (by simp; omega)]

/-- The header is read from the front of the input (R101). -/
theorem parseHeader_wrapReader (s : State) {compressed : List Byte} {size : Nat} (hs : Config.headerSize ≤ size)
    (hc : size ≤ compressed.length) :
    (s.wrapReader compressed size).parseHeader =
      some (((s.wrapReader compressed size).advance Config.headerSize).loadHeader
        (readHeader (compressed.take Config.headerSize))) := by
  have hleft : Config.headerSize ≤ (s.wrapReader compressed size).bytesLeft := by simpa [State.bytesLeft] using hs
  rw [State.parseHeader, readBuf_nextBytes hleft, Option.map_some, nextBytes_wrapReader s hs hc]

/-- The header is not all there (R101). -/
theorem parseHeader_truncated (s : State) (compressed : List Byte) {size : Nat} (hs : size < Config.headerSize) :
    (s.wrapReader compressed size).parseHeader = none := by
  rw [State.parseHeader, readBuf_none _ (by simpa [State.bytesLeft] using hs), Option.map_none]

/-- A `decode` on a ready decoder starts its frame (R99, R100). -/
theorem beginDecode_ready {s : State} (hl : s.life = .ready) (dst compressed : List Byte) (size : Nat) :
    s.beginDecode dst compressed size = (s.beginStatus.withDst dst).startFrame compressed size := by
  rw [State.beginDecode, if_neg (by simp [hl])]

/-- What a frame starts with when its header is whole (R101 to R103). -/
theorem startFrame_header (s : State) {compressed : List Byte} {size : Nat} (hs : Config.headerSize ≤ size)
    (hc : size ≤ compressed.length) {f : Header} (hf : f = readHeader (compressed.take Config.headerSize)) :
    s.startFrame compressed size =
      if f.hw.toNat = s.w ∧ f.hh.toNat = s.h then
        (((s.wrapReader compressed size).advance Config.headerSize).loadHeader f).keyframeClear.enter .dispatch
      else (((s.wrapReader compressed size).advance Config.headerSize).loadHeader f).failDimensions := by
  subst hf
  rw [State.startFrame]
  simp only [parseHeader_wrapReader s hs hc, dimensionsMatch_iff, State.loadHeader_hw, State.loadHeader_hh,
    State.loadHeader_w, State.loadHeader_h, State.advance_w, State.advance_h, State.wrapReader_w, State.wrapReader_h]

/-- The keyframe clear writes frame buffers alone (R103). -/
theorem keyframeClear_eq (s : State) : s.keyframeClear = { s with fb := s.keyframeClear.fb } := by
  unfold State.keyframeClear
  split
  · dsimp only
    split <;> rfl
  · rfl

/-- The state of a started command behind the `n` bytes of its header `f` (R99, R101). -/
def State.behindHeader (s : State) (dst compressed : List Byte) (size n : Nat) (f : Header) : State :=
  { s with
    status := .busy, cause := .none, diag := [], dst := dst, inp := compressed.take size, size := size, pos := n,
    hw := f.hw, hh := f.hh, seq := f.seq, subc := f.subc, rot := f.rot, scb := f.scb, bg := f.bg, cb := f.cb }

theorem loadHeader_advance_wrapReader (s : State) (dst compressed : List Byte) (size n : Nat) (f : Header) :
    (((s.beginStatus.withDst dst).wrapReader compressed size).advance n).loadHeader f =
      s.behindHeader dst compressed size n f := by
  simp only [State.advance, State.wrapReader, Nat.zero_add]
  rfl

/-- A started frame, written out (R99, R103). -/
theorem startedFrame_eq (s : State) (dst compressed : List Byte) (size n : Nat) (f : Header) :
    (s.behindHeader dst compressed size n f).keyframeClear.enter .dispatch = { s with
      status := .busy, cause := .none, diag := [], dst := dst, inp := compressed.take size, size := size, pos := n,
      hw := f.hw, hh := f.hh, seq := f.seq, subc := f.subc, rot := f.rot, scb := f.scb, bg := f.bg, cb := f.cb,
      fb := ((s.behindHeader dst compressed size n f).keyframeClear.enter .dispatch).fb, phase := .dispatch } := by
  rw [keyframeClear_eq]
  rfl

/-- The pixels of a started frame (R103). -/
theorem pixel_startedFrame {s : State} (hlen : ∀ b, (s.fb.get b).length = s.aw * s.ah) (dst compressed : List Byte)
    (size n : Nat) (f : Header) (i : BufId) {x y : Nat} (hx : x < s.aw) (hy : y < s.ah) :
    ((s.behindHeader dst compressed size n f).keyframeClear.enter .dispatch).pixel i x y =
      if f.seq = 0 ∧ (i = s.prev ∨ i = s.ref ∨ (i = s.cur ∧ Config.keyframeClearsCurrent = true)) then f.bg
      else s.pixel i x y := by
  rw [pixel_congr (State.enter_fb _ _) (State.enter_aw _ _),
    pixel_keyframeClear (s.behindHeader dst compressed size n f) i hlen hx hy,
    pixel_congr (t := s.behindHeader dst compressed size n f) (s := s) rfl rfl]
  rfl

/-- What an accepted `decode` on a ready decoder does once its header is whole (R101 to R103). -/
theorem beginDecode_header {s : State} (hl : s.life = .ready) (dst : List Byte) {compressed : List Byte} {size : Nat}
    (hs : Config.headerSize ≤ size) (hc : size ≤ compressed.length) {f : Header}
    (hf : f = readHeader (compressed.take Config.headerSize)) :
    s.beginDecode dst compressed size =
      if f.hw.toNat = s.w ∧ f.hh.toNat = s.h then
        (s.behindHeader dst compressed size Config.headerSize f).keyframeClear.enter .dispatch
      else (s.behindHeader dst compressed size Config.headerSize f).failDimensions := by
  rw [beginDecode_ready hl, startFrame_header _ hs hc hf, loadHeader_advance_wrapReader]
  rfl

/-- Settles O16: the accepted command wraps the reader, loads the header and clears at a keyframe. -/
theorem decodeStartsFrame : Obligations.DecodeStartsFrame := by
  intro s dst c n f hp hl hc hd hlen hs hf hw hh
  have hstart := (beginDecode_header hl dst hs hc hf).trans (if_pos ⟨hw, hh⟩)
  exact ⟨_, (exec_decode_next hp (by simp [hl]) hc hd).trans (congrArg _ hstart), startedFrame_eq s dst c n _ f,
    fun i x y => pixel_startedFrame hlen dst c n _ f i⟩

/- What `decode` fails with before its dispatch (R100 to R102). -/

/-- A failure of a started command, which R143 and R144 fix from the state before it but for `DIAG` and `DST`. -/
theorem failedWith_started {s s' : State} {c : Cause} {dst : List Byte} {l : Life}
    (h : s' = { s with
      life := l, diag := [], dst := dst, pos := s'.pos, status := s'.status, cause := s'.cause, hw := s'.hw,
      hh := s'.hh, seq := s'.seq, subc := s'.subc, rot := s'.rot, scb := s'.scb, bg := s'.bg, cb := s'.cb,
      inp := s'.inp, size := s'.size }) : FailedWith c { s with life := l, diag := [], dst := dst } (s'.raiseFail c) :=
  (raiseFail_failedWith s' c).of_registers (by rw [h])

/-- A sticky mismatch makes the decoder fatal, another one keeps it ready (R102, D20). -/
theorem failDimensions_eq {s : State} (hl : s.life = .ready) :
    s.failDimensions =
      (s.withLife (if Config.dimMismatchSticky = true then .fatal else .ready)).raiseFail .dimMismatch := by
  rw [State.failDimensions, hl]

/-- Settles O17: the fatal decoder, the short input and the other dimensions, in that order. -/
theorem decodeFailsInOrder : Obligations.DecodeFailsInOrder := by
  intro s dst c n f hp hl hc hd hf
  have hexec := exec_decode_next hp hl hc hd
  refine ⟨fun hfatal => ?_, fun hready hs => ?_, fun hready hs hne => ?_⟩
  · have hstart : s.beginDecode dst c n = (s.beginStatus.withDst dst).raiseFail .instanceFatal := if_pos hfatal
    exact ⟨_, hexec.trans (congrArg _ hstart), failedWith_started rfl⟩
  · have hstart : s.beginDecode dst c n = ((s.beginStatus.withDst dst).wrapReader c n).raiseFail .truncated := by
      rw [beginDecode_ready hready, State.startFrame]
      simp only [parseHeader_truncated _ c hs]
    exact ⟨_, hexec.trans (congrArg _ hstart), failedWith_started rfl⟩
  · have hmiss : ¬(f.hw.toNat = s.w ∧ f.hh.toNat = s.h) := by omega
    have hstart := (beginDecode_header hready dst hs hc hf).trans (if_neg hmiss)
    rw [failDimensions_eq (s := s.behindHeader dst c n _ f) hready] at hstart
    exact ⟨_, hexec.trans (congrArg _ hstart), failedWith_started rfl⟩

end Sys2Proof.Machine
end
